-- ==== Sys2Proof/Word.lean ====
section
/-! DEFINITION. The bit vectors the block's buses and registers are made of.

Only what the spec treats as bits is a bit vector: register and buffer words (00_scope.md R10,
"register width"), byte lanes (20_memory.md R65) and byte offsets of the 20-bit aperture (R60). -/

namespace Sys2Proof

/-- A register, buffer or command word: 32 bits (10_state.md R32, R28; 30_encoding.md R90). -/
abbrev Word := BitVec 32

/-- One byte lane of a 32-bit access (20_memory.md R65). -/
abbrev Byte := BitVec 8

/-- A byte offset into the 1 MiB host aperture, 0x00000 to 0xFFFFF (20_memory.md R60). -/
abbrev Offset := BitVec 20

end Sys2Proof
end

