-- ==== Sys2Proof/Config.lean ====
section
/-! DEFINITION. What is fixed for a given block and is not changed by any step: the field, the
shape of the permutation, and the two parameters a platform or implementation chooses
(00_scope.md R9, R10; 10_state.md R54). The ROM contents are in Machine/Roms.lean. -/

namespace Sys2Proof

/-- The modulus P = 2^31 - 1 (00_scope.md R9; 41_field_arithmetic.md R110). -/
abbrev P : Nat := 2147483647

/-- A field element: an integer in [0, P), always fully reduced (41_field_arithmetic.md R110). The
bound is part of the type, so "no representation is allowed to hold a value ≥ P" holds of every
lane, ROM entry and digest of the model. -/
abbrev Fe := Fin P

/-- The 24-lane state of the permutation (10_state.md R20; 00_scope.md R14). -/
abbrev Lanes := Vector Fe 24

/-- A digest: 8 field elements in lane order (00_scope.md R14, R15). -/
abbrev Digest := Vector Fe 8

/-- The number of rounds of the permutation (00_scope.md R9). -/
abbrev numRounds : Nat := 64

/-- The value of the identification register, the bytes of "PO31" (10_state.md R33). -/
abbrev idValue : Word := 0x504F3331#32

/-- The parameters the spec leaves to the implementation and to the platform (00_scope.md R10). -/
structure Config where
  /-- MEM_WORDS, the number of 32-bit words of the data buffer. -/
  memWords : Nat
  /-- BASE, the platform address of the aperture; every rule of the block speaks of offsets from it. -/
  base : Nat
  deriving DecidableEq, Repr

/-- The default instance: MEM_WORDS = 65536 (00_scope.md R10). BASE is the platform's to choose;
0 is a DESIGN CHOICE (log entry 2), and no rule of the block reads it. -/
def Config.standard : Config where
  memWords := 65536
  base := 0

end Sys2Proof
end

