-- ==== Sys2Proof/Syntax.lean ====
section
/-! DEFINITION. The commands of the block: one constructor for each row of spec/opcode_table.json
(30_encoding.md R92). No command carries an operand (R94), so no constructor has an argument. -/

namespace Sys2Proof

/-- A command the host can issue by writing its word to CMD. -/
inductive Instr where
  /-- NOP: completes at once with SUCCESS (44_commands.md R184). -/
  | nop
  /-- COMPRESS: the batched 2-to-1 compression of COUNT pairs (44_commands.md R185). -/
  | compress
  /-- ABORT: stop the running command at the next pair boundary (44_commands.md R191). -/
  | abort
  deriving DecidableEq, Repr

end Sys2Proof
end

