-- ==== Sys2Proof/WellFormed.lean ====
section
/-! DEFINITION. The checks on terms: the commands and the parameters of a block. -/

namespace Sys2Proof

/-- Every command is well formed: none has an operand that could be ill formed (30_encoding.md R94). -/
def Instr.wellFormed : Instr → Bool
  | .nop => true
  | .compress => true
  | .abort => true

/-- 24 ≤ MEM_WORDS: room for one pair and its output (00_scope.md R10). -/
def Config.holdsOnePair (c : Config) : Bool := decide (24 ≤ c.memWords)

/-- MEM_WORDS ≤ 245760: the data window fits in the aperture (20_memory.md R61). -/
def Config.fitsAperture (c : Config) : Bool := decide (c.memWords ≤ 245760)

/-- The parameters are within the bounds of 00_scope.md R10. -/
def Config.wellFormed (c : Config) : Bool := c.holdsOnePair && c.fitsAperture

end Sys2Proof
end

