-- ==== Sys2Proof/Decode.lean ====
section
/-! DEFINITION. Byte order, the decoder of command words and bytes, and the encoder
(20_memory.md R65; 30_encoding.md R90 to R93, R97). -/

namespace Sys2Proof

/-! ## Byte lanes -/

/-- The word whose bits [8j+7 : 8j] are byte lane j (20_memory.md R65, little-endian). -/
def wordOfBytes (b0 b1 b2 b3 : Byte) : Word := b3 ++ b2 ++ b1 ++ b0

/-- Byte lane j of a word: bits [8j+7 : 8j] (20_memory.md R65). -/
def byteLane (w : Word) (j : Nat) : Byte := w.extractLsb' (8 * j) 8

/-- The four bytes of a word, the one at the lowest address first. -/
def bytesOfWord (w : Word) : List Byte := [byteLane w 0, byteLane w 1, byteLane w 2, byteLane w 3]

/-! ## The format CMD32 (30_encoding.md R90) -/

/-- OPC, bits [7:0]. -/
def opcField (w : Word) : BitVec 8 := w.extractLsb' 0 8

/-- RSV, bits [31:8]. -/
def rsvField (w : Word) : BitVec 24 := w.extractLsb' 8 24

/-- Why a word or a run of bytes is no command. The names are the model's (log entry 15). -/
inductive DecodeError where
  /-- Fewer than the four bytes of a command word. -/
  | truncated
  /-- RSV is not 0: the word matches no row, whatever its OPC (R91). -/
  | reservedBits
  /-- RSV is 0 and OPC is in 0x03 to 0xFF (R93). -/
  | opcodeNotAssigned
  deriving DecidableEq, Repr

/-- A row of the opcode map (R92). -/
structure OpcodeRow where
  mask : Word
  value : Word
  instr : Instr
  deriving DecidableEq, Repr

/-- The opcode map (R92); mask 0xFFFFFFFF applies to every row (R91). -/
def opcodeRows : List OpcodeRow :=
  [ ⟨0xFFFFFFFF#32, 0x00000000#32, .nop⟩,
    ⟨0xFFFFFFFF#32, 0x00000001#32, .compress⟩,
    ⟨0xFFFFFFFF#32, 0x00000002#32, .abort⟩ ]

/-- Decoding a command word: exact match of all 32 bits against the opcode map (R91); every other
word is illegal (R93) and is rejected by name. -/
def decode (w : Word) : Except DecodeError Instr :=
  match opcodeRows.find? (fun r => w &&& r.mask == r.value) with
  | some r => .ok r.instr
  | none => if rsvField w = 0 then .error .opcodeNotAssigned else .error .reservedBits

/-- Decoding the command at the head of a run of bytes: four bytes, one word, one length (R97). -/
def decodeBytes : List Byte → Except DecodeError (Instr × List Byte)
  | b0 :: b1 :: b2 :: b3 :: rest =>
    match decode (wordOfBytes b0 b1 b2 b3) with
    | .ok i => .ok (i, rest)
    | .error e => .error e
  | _ => .error .truncated

/-! ## The encoder, from the fields of R90 and the map of R92 -/

/-- The opcode of a command (R92, column OPC). -/
def opcodeOf : Instr → BitVec 8
  | .nop => 0x00#8
  | .compress => 0x01#8
  | .abort => 0x02#8

/-- The word of a command: RSV = 0 above OPC (R90). -/
def encode (i : Instr) : Word := 0#24 ++ opcodeOf i

/-- The bytes of a command, the lowest address first. -/
def encodeBytes (i : Instr) : List Byte := bytesOfWord (encode i)

/-! ## The host's view of the decoder -/

/-- The bytes of an instruction whose low `nbits` bits are `w` and whose further bits are 0, up to
the block's one instruction length of four bytes (R97). -/
def tableBytes (nbits w : Nat) : List Byte :=
  (List.range (max 4 (nbits / 8))).map fun j => BitVec.ofNat 8 (w % 2 ^ nbits / 2 ^ (8 * j))

/-- What the decoder reads from an instruction numbered as spec/opcode_table.json numbers it. -/
def decodeTableWord (nbits w : Nat) : Option Instr :=
  match decodeBytes (tableBytes nbits w) with
  | .ok (i, []) => some i
  | .ok (_, _ :: _) => none
  | .error _ => none

end Sys2Proof
end

