-- ==== Sys2Proof/Machine/State.lean ====
section
/-! DEFINITION. The state of the block as plain data, the reasons a step can stop, and the state
after reset (10_state.md; 70_reset_and_hazards.md R270, R271, R273). -/

namespace Sys2Proof.Machine

/-- The engine phase (10_state.md R25). RUN(k) is `run` together with the pair index register
`State.k`, which R24 makes the index of the next pair: k is stored once (DEDUCED, log entry 11). -/
inductive Phase where
  | idle
  | check
  | run
  deriving DecidableEq, Repr

/-- The error codes (60_exceptions.md R231). The reserved codes 5 to 15 are never raised and have no
constructor. -/
inductive ErrCode where
  | none
  | illegalCmd
  | bounds
  | overlap
  | outOfRange
  deriving DecidableEq, Repr

/-- How a command ends (44_commands.md R190). -/
inductive Kind where
  | success
  | error
  | aborted
  deriving DecidableEq, Repr

/-- The batch descriptor: the seven registers that are locked while busy (10_state.md R43 to R46, R50). -/
structure Descriptor where
  count : Word
  src1 : Word
  stride1 : Word
  src2 : Word
  stride2 : Word
  dst : Word
  strided : Word
  deriving DecidableEq, Repr

/-- The host-visible registers (10_state.md R32). -/
inductive Reg where
  | id
  | cmd
  | status
  | ctrl
  | count
  | src1
  | stride1
  | src2
  | stride2
  | dst
  | strided
  | progress
  | errinfo
  | memsize
  deriving DecidableEq, Repr

/-- A host access (20_memory.md R62): a byte offset into the aperture, a size in bytes, and for a
write a value. Only a value of 32 bits is ever looked at (R63), so the value is one word (log
entry 16). -/
inductive Access where
  | read (addr : Offset) (size : Nat)
  | write (addr : Offset) (size : Nat) (v : Word)
  deriving DecidableEq, Repr

/-- One entry of the block's history to come: who moves next (20_memory.md R79; 44_commands.md R180;
70_reset_and_hazards.md R270). -/
inductive Event where
  /-- The bus delivers this host access. -/
  | host (a : Access)
  /-- It is the engine's turn. -/
  | engine
  /-- The platform drives the reset input RST to this level. -/
  | reset (level : Bool)
  deriving DecidableEq, Repr

/-- The block's answer to the last host access it answered without a bus error (20_memory.md R62). -/
inductive Answer where
  /-- No access has been answered. -/
  | none
  /-- A write was answered OK. -/
  | ok
  /-- A read returned this value. -/
  | data (v : Word)
  deriving DecidableEq, Repr

/-- The causes of a bus error (60_exceptions.md R236; 70_reset_and_hazards.md R270). The block reports
none of them; the names are the model's (log entry 9). -/
inductive BusErrorCause where
  /-- RST is asserted (R270). -/
  | inReset
  /-- The size is not 4 bytes (20_memory.md R63). -/
  | size
  /-- The offset is not a multiple of 4 (20_memory.md R64). -/
  | alignment
  /-- The offset is unmapped (20_memory.md R67). -/
  | unmapped
  /-- The data window is closed while BUSY = 1 (20_memory.md R71). -/
  | bufferBusy
  deriving DecidableEq, Repr

/-- Why a step stops with a fault. Every one is SAFE: the model stops and claims nothing further. -/
inductive Fault where
  /-- Raised by a host access that is answered `bus_error`; the spec makes it "a fault of the host's
  access step" (20_memory.md R66). The refused access changes no state. Safe (log entry 8). -/
  | busError (c : BusErrorCause)
  /-- Raised by a host read of a data-buffer word that nothing has written since reset; the spec makes
  it "a fault of the host's step" (20_memory.md R72). Safe (log entry 8). -/
  | hostReadUnwritten (w : Nat)
  /-- Raised by an engine read of a data-buffer word that nothing has written since reset; the spec
  makes it "a fault of the engine step" (20_memory.md R73). Safe (log entry 8). -/
  | engineReadUnwritten (w : Nat)
  /-- Raised by an engine access to a word index ≥ MEM_WORDS, which does not exist. No reachable state
  raises it: the bounds check guarantees the range (20_memory.md R73). Safe (log entry 12). -/
  | engineOutsideBuffer (w : Nat)
  /-- Raised by a pair step whose input word is ≥ P: no datapath operation ever receives such an
  operand (41_field_arithmetic.md R118). No reachable state raises it, because the range check has
  refused such a command (44_commands.md R188). Safe (log entry 12). -/
  | operandNotReduced (w : Nat)
  deriving DecidableEq, Repr

/-- Why a step is refused. -/
inductive Refusal where
  /-- Raised by exec for a command that has no meaning yet. No command of this model raises it. Safe. -/
  | notModelled (mnemonic : String)
  deriving DecidableEq, Repr

/-- The data buffer's contents: (byte offset in the aperture, byte) pairs, offsets strictly rising.
An unlisted byte is unwritten and reads as no value (10_state.md R29). -/
abbrev Memory := List Host.Cell

/-- The whole state of the block, and the inputs it has yet to receive. -/
structure State where
  /-- The parameters of this block (10_state.md R54; log entry 2). No step writes them. -/
  cfg : Config
  /-- The level of the reset input RST (70_reset_and_hazards.md R270). -/
  rst : Bool
  /-- The lane state S (10_state.md R20). -/
  lanes : Lanes
  /-- The round counter rc_i, 6 bits (10_state.md R23). -/
  rc : BitVec 6
  /-- The pair index k (10_state.md R24). -/
  k : Word
  /-- The engine phase (10_state.md R25); STATUS.BUSY is computed from it. -/
  phase : Phase
  /-- The latched command word CMDL (10_state.md R26). -/
  cmdl : Word
  /-- The abort request abort_req (10_state.md R27). -/
  abortReq : Bool
  /-- STATUS.DONE (10_state.md R37). -/
  done : Bool
  /-- STATUS.ERR (10_state.md R38). -/
  err : Bool
  /-- STATUS.ABORTED (10_state.md R39). -/
  aborted : Bool
  /-- STATUS.BWERR (10_state.md R40). -/
  bwerr : Bool
  /-- STATUS.ERRCODE (10_state.md R41). -/
  errcode : ErrCode
  /-- CTRL.IE (10_state.md R42). -/
  ie : Bool
  /-- The batch descriptor (10_state.md R43 to R46). -/
  desc : Descriptor
  /-- PROGRESS (10_state.md R47). -/
  progress : Word
  /-- ERRINFO (10_state.md R48). -/
  errinfo : Word
  /-- The data buffer Buf (10_state.md R28, R29). -/
  mem : Memory
  /-- The history to come, the next transition first: the model's own field (log entry 3). -/
  bus : List Event
  /-- The answer to the last answered host access: the model's own field (log entry 4). -/
  answer : Answer
  deriving DecidableEq, Repr

/-- The batch descriptor after reset: every register 0x00000000 (10_state.md R52). -/
def Descriptor.zero : Descriptor where
  count := 0#32
  src1 := 0#32
  stride1 := 0#32
  src2 := 0#32
  stride2 := 0#32
  dst := 0#32
  strided := 0#32

/-- The state after reset of a block with parameters `c` (10_state.md R52; 70_reset_and_hazards.md
R270, R273). The lane state and the round counter are unspecified there; zero is a DESIGN CHOICE
(log entry 1). No inputs are pending. -/
def State.resetOf (c : Config) : State where
  cfg := c
  rst := false
  lanes := Vector.replicate 24 0
  rc := 0#6
  k := 0#32
  phase := .idle
  cmdl := 0#32
  abortReq := false
  done := false
  err := false
  aborted := false
  bwerr := false
  errcode := .none
  ie := false
  desc := Descriptor.zero
  progress := 0#32
  errinfo := 0#32
  mem := []
  bus := []
  answer := .none

/-- The machine right after reset, at the default parameters (00_scope.md R10). -/
def State.reset : State := State.resetOf Config.standard

end Sys2Proof.Machine
end

