-- ==== Sys2Proof/Machine/Memory.lean ====
section
/-! DEFINITION. The data buffer's memory: byte cells in one canonical form, and the whole words
every access of the block is made of (10_state.md R28, R29; 20_memory.md R61, R65, R71, R73). -/

namespace Sys2Proof.Machine

/-- The canonical form (log entry 17): byte offsets strictly rising. An unlisted byte reads as no
value, so no entry can equal what an unlisted offset reads as. -/
abbrev Memory.wf (m : Memory) : Prop := List.Pairwise (fun c d : Host.Cell => c.1 < d.1) m

/-- The byte at offset `a`, or none where nothing has been written (10_state.md R29). -/
def Memory.read : Memory → Nat → Option Byte
  | [], _ => none
  | (x, b) :: rest, a => if x = a then some b else Memory.read rest a

/-- Writing one byte, in order of offsets. -/
def Memory.write : Memory → Nat → Byte → Memory
  | [], a, b => [(a, b)]
  | (x, c) :: rest, a, b =>
    if a < x then (a, b) :: (x, c) :: rest
    else if a = x then (a, b) :: rest
    else (x, c) :: Memory.write rest a b

/-- The offset of byte 0 of Buf[w]: 0x10000 + 4·w (20_memory.md R61). -/
def wordOffset (w : Nat) : Nat := 0x10000 + 4 * w

/-- Buf[w], or none where it is unwritten. Byte j of the word is at offset + j (20_memory.md R65). -/
def Memory.readWord (m : Memory) (w : Nat) : Option Word :=
  match m.read (wordOffset w), m.read (wordOffset w + 1), m.read (wordOffset w + 2),
      m.read (wordOffset w + 3) with
  | some b0, some b1, some b2, some b3 => some (wordOfBytes b0 b1 b2 b3)
  | _, _, _, _ => none

/-- Buf[w] <- v, as four byte lanes (20_memory.md R65). -/
def Memory.writeWord (m : Memory) (w : Nat) (v : Word) : Memory :=
  (((m.write (wordOffset w) (byteLane v 0)).write (wordOffset w + 1) (byteLane v 1)).write
    (wordOffset w + 2) (byteLane v 2)).write (wordOffset w + 3) (byteLane v 3)

end Sys2Proof.Machine
end

