-- ==== Sys2Proof/Machine/Flags.lean ====
section
/-! DEFINITION. The STATUS flags, the CTRL word and the interrupt line, as computed from the state
(10_state.md R35 to R42, R51). -/

namespace Sys2Proof.Machine

/-- STATUS.BUSY = 1 exactly when phase ≠ IDLE (10_state.md R25, R36). -/
def State.busy (s : State) : Bool :=
  match s.phase with
  | .idle => false
  | .check => true
  | .run => true

/-- The code of an error in STATUS bits [11:8] (60_exceptions.md R231). -/
def errCodeBits : ErrCode → BitVec 4
  | .none => 0#4
  | .illegalCmd => 1#4
  | .bounds => 2#4
  | .overlap => 3#4
  | .outOfRange => 4#4

/-- The STATUS word: [0] BUSY, [1] DONE, [2] ERR, [3] ABORTED, [4] BWERR, [11:8] ERRCODE, every
other bit 0 (10_state.md R35). -/
def State.statusWord (s : State) : Word :=
  0#20 ++ errCodeBits s.errcode ++ 0#3 ++ BitVec.ofBool s.bwerr ++ BitVec.ofBool s.aborted
    ++ BitVec.ofBool s.err ++ BitVec.ofBool s.done ++ BitVec.ofBool s.busy

/-- The CTRL word: [0] IE, every other bit 0 (10_state.md R42). -/
def State.ctrlWord (s : State) : Word := 0#31 ++ BitVec.ofBool s.ie

/-- IRQ = CTRL.IE AND STATUS.DONE (10_state.md R51). -/
def State.irq (s : State) : Bool := s.ie && s.done

/-- What a STATUS write of `v` does: bit 1 clears DONE, bit 4 clears BWERR, nothing else changes
(44_commands.md R194). -/
def statusWrite (v : Word) (s : State) : State :=
  { s with
    done := s.done && !v.getLsbD 1
    bwerr := s.bwerr && !v.getLsbD 4 }

/-- What a CTRL write of `v` does: IE takes bit 0 (44_commands.md R195). -/
def ctrlWrite (v : Word) (s : State) : State := { s with ie := v.getLsbD 0 }

end Sys2Proof.Machine
end

