-- ==== Sys2Proof/Machine/Field.lean ====
section
/-! DEFINITION. The field arithmetic unit (41_field_arithmetic.md). Every intermediate is an exact
unbounded integer and every result is its residue mod P (R115, R116). -/

namespace Sys2Proof.Machine

/-- `fred(u)`: reduction, u mod P (41_field_arithmetic.md R112). -/
def fred (u : Nat) : Fe := ⟨u % P, Nat.mod_lt _ (by decide)⟩

/-- `fadd(a, b)` = (a + b) mod P (41_field_arithmetic.md R113). -/
def fadd (a b : Fe) : Fe := fred (a.val + b.val)

/-- `fmul(a, b)` = (a · b) mod P (41_field_arithmetic.md R114). -/
def fmul (a b : Fe) : Fe := fred (a.val * b.val)

/-- A field element in a 32-bit data word: zext_32(value) (41_field_arithmetic.md R111). -/
def feWord (x : Fe) : Word := BitVec.ofNat 32 x.val

/-- A 32-bit word is a field-element word iff it is below P = 0x7FFFFFFF (41_field_arithmetic.md
R111; 30_encoding.md R95). -/
def isFieldWord (v : Word) : Bool := decide (v.toNat < P)

end Sys2Proof.Machine
end

