-- ==== Sys2Proof/Machine/Roms.lean ====
section
/-! DEFINITION. The contents of the round-constant ROM RC and of the mixing-matrix ROM M, by the
spec's own contents rules (42_parameter_roms.md R131, R132, R135, R136). They are constants: no
operation writes them (R133, R139), and they hold from reset (R140). The full table of R134 is
compared with them entry by entry in Laws/Roms.lean. -/

namespace Sys2Proof.Machine

/-- c_k = ((3^k) ⊕ (7^k)) mod P: exact powers, XOR, and only then the reduction
(42_parameter_roms.md R131). -/
def roundConstant (k : Nat) : Fe := fred ((3 ^ k) ^^^ (7 ^ k))

/-- RC[i][l] = c_(1536 + 24·i + l) (42_parameter_roms.md R132). -/
def rcEntry (i l : Nat) : Fe := roundConstant (1536 + 24 * i + l)

/-- The base matrix B, row index first (42_parameter_roms.md R135). -/
def baseMatrix : List (List Nat) := [[5, 7, 1, 3], [4, 6, 1, 1], [1, 3, 5, 7], [1, 1, 4, 6]]

/-- B[r][c], 0 ≤ r, c < 4 (42_parameter_roms.md R135). -/
def baseEntry (r c : Nat) : Nat := (baseMatrix.getD r []).getD c 0

/-- M[r][c]: B tiled 6×6, doubled on the diagonal blocks, reduced mod P (42_parameter_roms.md R136). -/
def mixEntry (r c : Nat) : Fe :=
  fred (baseEntry (r % 4) (c % 4) * (if r / 4 = c / 4 then 2 else 1))

end Sys2Proof.Machine
end

