-- ==== Sys2Proof/Machine/Permutation.lean ====
section
/-! DEFINITION. The permutation datapath: the round steps, the rounds, the permutation and the pair
compression (43_permutation.md). All of them are pure total functions (R164). -/

namespace Sys2Proof.Machine

/-- `ARC(S, i)`: every lane l becomes fadd(S[l], RC[i][l]) (43_permutation.md R150). -/
def arc (S : Lanes) (i : Nat) : Lanes := Vector.ofFn fun l : Fin 24 => fadd S[l] (rcEntry i l)

/-- `SBOX(x)`: the chain x → x² → x⁴ → x⁴·x, three multiplications, so x^5 (43_permutation.md R151;
90_conflicts.md C1). -/
def sbox (x : Fe) : Fe :=
  let x2 := fmul x x
  let x4 := fmul x2 x2
  fmul x4 x

/-- `SBOX_FULL(S)`: the S-box on every lane (43_permutation.md R152). -/
def sboxFull (S : Lanes) : Lanes := Vector.ofFn fun l : Fin 24 => sbox S[l]

/-- `SBOX_PARTIAL(S)`: the S-box on lane 0 only (43_permutation.md R153). -/
def sboxPartial (S : Lanes) : Lanes :=
  Vector.ofFn fun l : Fin 24 => if l.val = 0 then sbox S[l] else S[l]

/-- The unreduced sum over r of S[r]·M[r][c] (43_permutation.md R154; 41_field_arithmetic.md R115). -/
def columnSum (S : Lanes) (c : Nat) : Nat :=
  ((List.finRange 24).map fun r : Fin 24 => S[r].val * (mixEntry r c).val).sum

/-- `MIX(S)`: the row vector S times M, every output from the old S (43_permutation.md R154). -/
def mix (S : Lanes) : Lanes := Vector.ofFn fun c : Fin 24 => fred (columnSum S c)

/-- Round i is full iff i < 4 or i ≥ 60; every other round is partial (43_permutation.md R155). -/
def isFullRound (i : Nat) : Bool := decide (i < 4) || decide (60 ≤ i)

/-- `ROUND(S, i)`: add the constants, then the S-box layer, then mix (43_permutation.md R156). -/
def roundFn (S : Lanes) (i : Nat) : Lanes :=
  let A := arc S i
  mix (if isFullRound i then sboxFull A else sboxPartial A)

/-- `PERM(S)`: rounds 0 to 63 in ascending order (43_permutation.md R157). -/
def perm (S : Lanes) : Lanes := (List.range numRounds).foldl roundFn S

/-- The value the round counter holds when PERM is done: it holds i during round i, round 63 is the
last, and it does not wrap within a pair (43_permutation.md R157; 10_state.md R23). DEDUCED, log
entry 5. -/
def lastRound : BitVec 6 := 63#6

/-- `INIT(in1, in2)`: rate1 = in1, rate2 = in2, capacity = 0 (43_permutation.md R158). -/
def initLanes (in1 in2 : Digest) : Lanes :=
  Vector.ofFn fun l : Fin 24 =>
    if h1 : l.val < 8 then in1[l.val]
    else if h2 : l.val < 16 then in2[l.val - 8]
    else 0

/-- `EXTRACT(S)`: lanes 8 to 15, the rate2 segment (43_permutation.md R159). -/
def extractDigest (S : Lanes) : Digest := Vector.ofFn fun j : Fin 8 => S[8 + j.val]

/-- `COMPRESS_PAIR(in1, in2)` (43_permutation.md R160). -/
def compressPair (in1 in2 : Digest) : Digest := extractDigest (perm (initLanes in1 in2))

end Sys2Proof.Machine
end

