-- ==== Sys2Proof/Machine/Operands.lean ====
section
/-! DEFINITION. The operands of COMPRESS: effective word indices, the ranges the checks speak of,
and the engine's two buffer primitives (20_memory.md R73, R74; 44_commands.md R185 to R189). -/

namespace Sys2Proof.Machine

/-- base + k·stride + j, an exact unbounded integer with no wrap (20_memory.md R74). -/
def effIndex (base stride : Word) (k j : Nat) : Nat := base.toNat + k * stride.toNat + j

/-- The word index of in1[j] of pair k (10_state.md R44). -/
def in1Index (d : Descriptor) (k j : Nat) : Nat := effIndex d.src1 d.stride1 k j

/-- The word index of in2[j] of pair k (10_state.md R45). -/
def in2Index (d : Descriptor) (k j : Nat) : Nat := effIndex d.src2 d.stride2 k j

/-- The word index of output word j of pair k (10_state.md R46). -/
def outIndex (d : Descriptor) (k j : Nat) : Nat := effIndex d.dst d.strided k j

/-- end = base + (n − 1)·stride + 8 of a range of n > 0 digests (44_commands.md R186). -/
def rangeEnd (base stride count : Word) : Nat :=
  base.toNat + (count.toNat - 1) * stride.toNat + 8

/-- end1 (44_commands.md R186, R187). -/
def Descriptor.end1 (d : Descriptor) : Nat := rangeEnd d.src1 d.stride1 d.count

/-- end2 (44_commands.md R186, R187). -/
def Descriptor.end2 (d : Descriptor) : Nat := rangeEnd d.src2 d.stride2 d.count

/-- endD (44_commands.md R186, R187). -/
def Descriptor.endD (d : Descriptor) : Nat := rangeEnd d.dst d.strided d.count

/-- [a, b) ∩ [c, e) ≠ ∅ iff a < e and c < b (44_commands.md R187). -/
def intervalsMeet (a b c e : Nat) : Bool := decide (a < e) && decide (c < b)

/-- The bounds check's ERRINFO: the first range, of in1, in2 and the output, that reaches past
MEM_WORDS (44_commands.md R186; 60_exceptions.md R231). -/
def boundsError (memWords : Nat) (d : Descriptor) : Option Word :=
  if memWords < d.end1 then some 1#32
  else if memWords < d.end2 then some 2#32
  else if memWords < d.endD then some 3#32
  else none

/-- The overlap check's ERRINFO (44_commands.md R187; 60_exceptions.md R231). -/
def overlapError (d : Descriptor) : Option Word :=
  if 1 < d.count.toNat ∧ d.strided.toNat < 8 then some 3#32
  else if intervalsMeet d.dst.toNat d.endD d.src1.toNat d.end1 then some 1#32
  else if intervalsMeet d.dst.toNat d.endD d.src2.toNat d.end2 then some 2#32
  else none

/-- The words of pair k in the range check's order: in1 before in2, lane 0 to 7 (44_commands.md R188). -/
def pairScan (d : Descriptor) (k : Nat) : List Nat :=
  (List.range 8).map (in1Index d k) ++ (List.range 8).map (in2Index d k)

/-- The words of the whole batch in the range check's order, pair by pair (44_commands.md R188). -/
def scanOrder (d : Descriptor) : List Nat := (List.range d.count.toNat).flatMap (pairScan d)

/-- The words of pair k in the pair step's order: in1[j], then in2[j], for j = 0 to 7
(44_commands.md R189). -/
def pairReads (d : Descriptor) (k : Nat) : List Nat :=
  (List.range 8).flatMap fun j => [in1Index d k j, in2Index d k j]

/-- `BufRead(w)` (20_memory.md R73): an unwritten word, or one that does not exist, is a fault of the
engine step. -/
def bufRead (s : State) (w : Nat) : Except Fault Word :=
  if w < s.cfg.memWords then
    match s.mem.readWord w with
    | some v => .ok v
    | none => .error (.engineReadUnwritten w)
  else .error (.engineOutsideBuffer w)

/-- `BufWrite(w, v)` (20_memory.md R73). -/
def bufWrite (s : State) (w : Nat) (v : Word) : Except Fault State :=
  if w < s.cfg.memWords then .ok { s with mem := s.mem.writeWord w v }
  else .error (.engineOutsideBuffer w)

/-- BufWrites of a list of (word index, value), first to last. -/
def bufWriteAll : List (Nat × Word) → State → Except Fault State
  | [], s => .ok s
  | (w, v) :: rest, s =>
    match bufWrite s w v with
    | .ok s' => bufWriteAll rest s'
    | .error f => .error f

/-- Why Buf[w] cannot be an operand of the datapath, if it cannot: BufRead faults, or the word is no
field element, which no datapath operation receives (41_field_arithmetic.md R118). -/
def operandFault (s : State) (w : Nat) : Option Fault :=
  match bufRead s w with
  | .ok v => if isFieldWord v then none else some (.operandNotReduced w)
  | .error f => some f

/-- The field element in Buf[w]. The pair step asks for it only where `operandFault` is none, so
neither the reduction nor the 0 is ever used. -/
def operandValue (s : State) (w : Nat) : Fe :=
  match bufRead s w with
  | .ok v => fred v.toNat
  | .error _ => 0

/-- The digest whose word j is Buf[index j]. -/
def operandDigest (s : State) (index : Nat → Nat) : Digest :=
  Vector.ofFn fun j : Fin 8 => operandValue s (index j)

/-- The eight BufWrites of pair k's output digest, each word zext_32(out[j]) (44_commands.md R189). -/
def digestWrites (d : Descriptor) (k : Nat) (out : Digest) : List (Nat × Word) :=
  (List.finRange 8).map fun j : Fin 8 => (outIndex d k j, feWord out[j])

end Sys2Proof.Machine
end

