-- ==== Sys2Proof/Machine/Ops.lean ====
section
/-! DEFINITION. The shared operations on the whole state: the end of a command (this block's only
"exception entry", 60_exceptions.md R240), the acceptance of one (its "return", R242), and reset. -/

namespace Sys2Proof.Machine

/-- `complete(kind, code, info)`: the end of a command (44_commands.md R190). Every SUCCESS, ERROR
and ABORTED completion is this one operation. PROGRESS, the descriptor, CTRL, BWERR and Buf are
unchanged by it; so are k and CMDL (DEDUCED, log entry 10). -/
def complete (kind : Kind) (code : ErrCode) (info : Word) (s : State) : State :=
  { s with
    phase := .idle
    abortReq := false
    done := true
    err := decide (kind = .error)
    aborted := decide (kind = .aborted)
    errcode := code
    errinfo := info }

/-- `issue(v)`: the acceptance of a command while idle (44_commands.md R182). BWERR, CTRL and the
batch descriptor are unchanged. -/
def issue (v : Word) (s : State) : State :=
  { s with
    cmdl := v
    phase := .check
    k := 0#32
    abortReq := false
    done := false
    err := false
    aborted := false
    errcode := .none
    progress := 0#32
    errinfo := 0#32 }

/-- Set BWERR: a write was dropped because the block is busy (60_exceptions.md R237). -/
def setBwerr (s : State) : State := { s with bwerr := true }

/-- The block answers a host access. -/
def answered (a : Answer) (s : State) : State := { s with answer := a }

/-- The first entry of the history to come has been taken. -/
def popEvent (s : State) : State := { s with bus := s.bus.tail }

/-- Drive RST to `level` (70_reset_and_hazards.md R270, R272, R273). Every piece of state takes its
reset value and every buffer word is unwritten, whatever the engine was doing; the parameters and
the inputs still to come are no state of the block and stay (log entry 13). -/
def setReset (level : Bool) (s : State) : State :=
  { State.resetOf s.cfg with rst := level, bus := s.bus, answer := s.answer }

end Sys2Proof.Machine
end

