-- ==== Sys2Proof/Machine/Commands.lean ====
section
/-! DEFINITION. The meanings of the three commands (44_commands.md section 3).

A command's meaning is what ONE transition of the block does for it. ABORT acts at its CMD write
(R191). NOP acts at its check step (R184). COMPRESS acts at its check step and then at one pair step
for each pair (R185), so its meaning takes the phase the engine is in. The issue of NOP and COMPRESS
at the CMD write is the same for every word (R182) and is in Machine/Bus.lean. -/

namespace Sys2Proof.Machine

/-- `NOP` at its check step: complete(SUCCESS, 0, 0) (44_commands.md R184). The engine has no other
step for a NOP (R180; log entry 7). -/
def execNop (s : State) : Host.Outcome State Fault Refusal :=
  match s.phase with
  | .check => .next (complete .success .none 0#32 s)
  | .idle => .next s
  | .run => .next s

/-- `compress_check` part 3: the range check over the words still to scan; when all of them are field
elements the run phase begins at pair 0 (44_commands.md R188). -/
def rangeCheck : List Nat → State → Host.Outcome State Fault Refusal
  | [], s => .next { s with phase := .run, k := 0#32 }
  | w :: ws, s =>
    match bufRead s w with
    | .error f => .fault f
    | .ok v =>
      if isFieldWord v then rangeCheck ws s
      else .next (complete .error .outOfRange (BitVec.ofNat 32 w) s)

/-- `compress_check`: the empty batch, then bounds, then overlap, then the range of every input word;
the first failing check is the one reported (44_commands.md R186 to R188, R197; 60_exceptions.md
R238). -/
def compressCheck (s : State) : Host.Outcome State Fault Refusal :=
  if s.desc.count = 0#32 then .next (complete .success .none 0#32 s)
  else
    match boundsError s.cfg.memWords s.desc with
    | some id => .next (complete .error .bounds id s)
    | none =>
      match overlapError s.desc with
      | some id => .next (complete .error .overlap id s)
      | none => rangeCheck (scanOrder s.desc) s

/-- What follows the eight writes of a pair step: PROGRESS <- k + 1, and completion after the last
pair or else the next pair (44_commands.md R189). -/
def pairDone (s : State) : State :=
  let s1 := { s with progress := s.k + 1#32 }
  if s.k.toNat + 1 = s.desc.count.toNat then complete .success .none 0#32 s1
  else { s1 with k := s.k + 1#32 }

/-- The pair step, enabled when phase = RUN(k) with k < COUNT (44_commands.md R189): an abort request
ends the command; otherwise one COMPRESS_PAIR is computed and its digest written. -/
def pairStep (s : State) : Host.Outcome State Fault Refusal :=
  if s.desc.count.toNat ≤ s.k.toNat then .next s
  else if s.abortReq then .next (complete .aborted .none 0#32 s)
  else
    match (pairReads s.desc s.k.toNat).findSome? (operandFault s) with
    | some f => .fault f
    | none =>
      let in1 := operandDigest s (in1Index s.desc s.k.toNat)
      let in2 := operandDigest s (in2Index s.desc s.k.toNat)
      let S := perm (initLanes in1 in2)
      match bufWriteAll (digestWrites s.desc s.k.toNat (extractDigest S))
          { s with lanes := S, rc := lastRound } with
      | .error f => .fault f
      | .ok t => .next (pairDone t)

/-- `COMPRESS`: its check step, then its pair steps (44_commands.md R185). The engine has no step while
idle (R180; log entry 7). -/
def execCompress (s : State) : Host.Outcome State Fault Refusal :=
  match s.phase with
  | .idle => .next s
  | .check => compressCheck s
  | .run => pairStep s

/-- `ABORT` at its CMD write: while busy it sets the abort request; while idle it has no effect at all
(44_commands.md R181, R191). -/
def execAbort (s : State) : Host.Outcome State Fault Refusal :=
  .next (if s.busy then { s with abortReq := true } else s)

end Sys2Proof.Machine
end

