-- ==== Sys2Proof/Machine/Engine.lean ====
section
/-! DEFINITION. The engine's step relation (44_commands.md R180, R183, R189). -/

namespace Sys2Proof.Machine

/-- One engine step. In phase CHECK the latched word is decoded and its command's check step runs;
a word that is neither NOP nor COMPRESS completes with ILLEGAL_CMD (R183, R192; `CMDL` never holds
the ABORT word, R182; log entry 14). In phase RUN the pair step of COMPRESS runs (R189). An idle engine has no step
(R180; 60_exceptions.md R252; log entry 7). -/
def engineStep (s : State) : Host.Outcome State Fault Refusal :=
  match s.phase with
  | .idle => .next s
  | .check =>
    match decode s.cmdl with
    | .ok .nop => exec .nop s
    | .ok .compress => exec .compress s
    | .ok .abort => .next (complete .error .illegalCmd s.cmdl s)
    | .error _ => .next (complete .error .illegalCmd s.cmdl s)
  | .run => exec .compress s

/-- The engine's turn: while RST is asserted the block takes no engine step (70_reset_and_hazards.md
R270). -/
def engineTurn (s : State) : Host.Outcome State Fault Refusal :=
  if s.rst then .next s else engineStep s

end Sys2Proof.Machine
end

