-- ==== Sys2Proof/Machine/Bus.lean ====
section
/-! DEFINITION. The host's bus accesses: the address map, register reads and writes, the ROM windows
and the data window (20_memory.md; 44_commands.md R181, R193 to R196). -/

namespace Sys2Proof.Machine

/-- What an aligned offset of the aperture addresses (20_memory.md R61). -/
inductive Region where
  | reg (r : Reg)
  | rcRom (q : Nat)
  | mixRom (q : Nat)
  | data (w : Nat)
  | unmapped
  deriving DecidableEq, Repr

/-- The registers in order of their offsets 0x000, 0x004, … 0x034 (10_state.md R32). -/
def regMap : List Reg :=
  [.id, .cmd, .status, .ctrl, .count, .src1, .stride1, .src2, .stride2, .dst, .strided, .progress,
    .errinfo, .memsize]

/-- The aperture decode (20_memory.md R61). -/
def decodeOffset (memWords : Nat) (a : Nat) : Region :=
  if 0x01000 ≤ a ∧ a < 0x02800 then .rcRom ((a - 0x01000) / 4)
  else if 0x03000 ≤ a ∧ a < 0x03900 then .mixRom ((a - 0x03000) / 4)
  else if 0x10000 ≤ a ∧ a < 0x10000 + 4 * memWords then .data ((a - 0x10000) / 4)
  else
    match regMap[a / 4]? with
    | some r => .reg r
    | none => .unmapped

/-- The platform address of an aperture offset: offsets are bytes from BASE (20_memory.md R61). No
rule of the block reads it: every access reaches the block as an offset (R62). -/
def systemAddress (c : Config) (a : Offset) : Nat := c.base + a.toNat

/-- The value a read of a register returns (20_memory.md R68; 10_state.md R33 to R49). -/
def regRead (r : Reg) (s : State) : Word :=
  match r with
  | .id => idValue
  | .cmd => 0#32
  | .status => s.statusWord
  | .ctrl => s.ctrlWord
  | .count => s.desc.count
  | .src1 => s.desc.src1
  | .stride1 => s.desc.stride1
  | .src2 => s.desc.src2
  | .stride2 => s.desc.stride2
  | .dst => s.desc.dst
  | .strided => s.desc.strided
  | .progress => s.progress
  | .errinfo => s.errinfo
  | .memsize => BitVec.ofNat 32 s.cfg.memWords

/-- RC[floor(q/24)][q mod 24] as a word (20_memory.md R70). -/
def rcRomWord (q : Nat) : Word := feWord (rcEntry (q / 24) (q % 24))

/-- M[floor(q/24)][q mod 24] as a word (20_memory.md R70). -/
def mixRomWord (q : Nat) : Word := feWord (mixEntry (q / 24) (q % 24))

/-- A write to the batch descriptor: while idle the register takes its value, while busy the write is
dropped and BWERR is set (44_commands.md R193). -/
def lockedWrite (d : Descriptor) (s : State) : State :=
  if s.busy then setBwerr s else { s with desc := d }

/-- A write of `v` to CMD: the exact ABORT word runs ABORT; any other word is dropped with BWERR while
busy and issued while idle (44_commands.md R181). -/
def cmdWrite (v : Word) (s : State) : Host.Outcome State Fault Refusal :=
  match decode v with
  | .ok .abort => exec .abort s
  | .ok .nop => .next (if s.busy then setBwerr s else issue v s)
  | .ok .compress => .next (if s.busy then setBwerr s else issue v s)
  | .error _ => .next (if s.busy then setBwerr s else issue v s)

/-- A write of `v` to a register (20_memory.md R69). -/
def regWrite (r : Reg) (v : Word) (s : State) : Host.Outcome State Fault Refusal :=
  match r with
  | .id => .next s
  | .cmd => cmdWrite v s
  | .status => .next (statusWrite v s)
  | .ctrl => .next (ctrlWrite v s)
  | .count => .next (lockedWrite { s.desc with count := v } s)
  | .src1 => .next (lockedWrite { s.desc with src1 := v } s)
  | .stride1 => .next (lockedWrite { s.desc with stride1 := v } s)
  | .src2 => .next (lockedWrite { s.desc with src2 := v } s)
  | .stride2 => .next (lockedWrite { s.desc with stride2 := v } s)
  | .dst => .next (lockedWrite { s.desc with dst := v } s)
  | .strided => .next (lockedWrite { s.desc with strided := v } s)
  | .progress => .next s
  | .errinfo => .next s
  | .memsize => .next s

/-- An aligned 32-bit read (20_memory.md R67, R68, R70 to R72). It changes no state of the block. -/
def hostRead (g : Region) (s : State) : Host.Outcome State Fault Refusal :=
  match g with
  | .reg r => .next (answered (.data (regRead r s)) s)
  | .rcRom q => .next (answered (.data (rcRomWord q)) s)
  | .mixRom q => .next (answered (.data (mixRomWord q)) s)
  | .data w =>
    if s.busy then .fault (.busError .bufferBusy)
    else
      match s.mem.readWord w with
      | some v => .next (answered (.data v) s)
      | none => .fault (.hostReadUnwritten w)
  | .unmapped => .fault (.busError .unmapped)

/-- An aligned 32-bit write of `v` (20_memory.md R67, R69 to R71). -/
def hostWrite (g : Region) (v : Word) (s : State) : Host.Outcome State Fault Refusal :=
  match g with
  | .reg r => regWrite r v (answered .ok s)
  | .rcRom _ => .next (answered .ok s)
  | .mixRom _ => .next (answered .ok s)
  | .data w =>
    if s.busy then .fault (.busError .bufferBusy)
    else .next { answered .ok s with mem := s.mem.writeWord w v }
  | .unmapped => .fault (.busError .unmapped)

/-- The bus error an access gets before its offset is decoded, if it gets one: while RST is asserted
(70_reset_and_hazards.md R270), for a size other than 4 (20_memory.md R63), for a misaligned offset
(R64). -/
def earlyBusError (s : State) (addr : Offset) (size : Nat) : Option BusErrorCause :=
  if s.rst then some .inReset
  else if size ≠ 4 then some .size
  else if addr.toNat % 4 ≠ 0 then some .alignment
  else none

/-- One host access (20_memory.md R62). -/
def hostAccess (a : Access) (s : State) : Host.Outcome State Fault Refusal :=
  match a with
  | .read addr size =>
    match earlyBusError s addr size with
    | some c => .fault (.busError c)
    | none => hostRead (decodeOffset s.cfg.memWords addr.toNat) s
  | .write addr size v =>
    match earlyBusError s addr size with
    | some c => .fault (.busError c)
    | none => hostWrite (decodeOffset s.cfg.memWords addr.toNat) v s

end Sys2Proof.Machine
end

