-- ==== Sys2Proof/Machine/Step.lean ====
section
/-! DEFINITION. One transition of the block (20_memory.md R79; 44_commands.md R180), and how a
command word is placed so that the very next step runs it. -/

namespace Sys2Proof.Machine

/-- One transition: the first entry of the history to come moves. When no entry is left, only the
engine can move, and it does (weak fairness, 44_commands.md R198). -/
def step (s : State) : Host.Outcome State Fault Refusal :=
  match s.bus with
  | [] => engineTurn s
  | .engine :: _ => engineTurn (popEvent s)
  | .host a :: _ => hostAccess a (popEvent s)
  | .reset level :: _ => .next (setReset level (popEvent s))

/-- The offset of CMD (10_state.md R34). -/
def cmdOffset : Offset := 0x00004#20

/-- The 32-bit word whose low `nbits` bits are `w` and whose further bits are 0. -/
def fetchWord (nbits w : Nat) : Word := BitVec.ofNat 32 (w % 2 ^ nbits)

/-- `s` with the command word placed where the very next step takes its command from (log entry 6).
The ABORT word takes effect at its CMD write (44_commands.md R181), so that write is the next host
access. Every other word takes effect at the check step of the command it is issued as (R182, R183),
so it is issued and the engine moves next. In both cases RST is not asserted. -/
def State.withFetchWord (s : State) (nbits w : Nat) : State :=
  match decode (fetchWord nbits w) with
  | .ok .abort =>
    { s with rst := false, bus := .host (.write cmdOffset 4 (fetchWord nbits w)) :: s.bus }
  | .ok .nop => { issue (fetchWord nbits w) s with rst := false, bus := .engine :: s.bus }
  | .ok .compress => { issue (fetchWord nbits w) s with rst := false, bus := .engine :: s.bus }
  | .error _ => { issue (fetchWord nbits w) s with rst := false, bus := .engine :: s.bus }

end Sys2Proof.Machine
end

