-- ==== Sys2Proof/Machine/HostSeq.lean ====
section
/-! DEFINITION. The host-sequence notation, the assembler syntax of this block: targets, lines,
pseudo-instructions with their expansions, and the encoding of a program as the list of its bus
accesses (30_encoding.md R98 to R100); and the host's leaf encoding (20_memory.md R84). -/

namespace Sys2Proof.Machine

/-- What a line reads or writes (30_encoding.md R98). -/
inductive Target where
  | reg (r : Reg)
  | buf (w : Nat)
  | rcRom (i l : Nat)
  | mixRom (r c : Nat)
  | offset (a : Nat)
  deriving DecidableEq, Repr

/-- The offset of a register (10_state.md R32). -/
def Reg.offset : Reg → Nat
  | .id => 0x000
  | .cmd => 0x004
  | .status => 0x008
  | .ctrl => 0x00C
  | .count => 0x010
  | .src1 => 0x014
  | .stride1 => 0x018
  | .src2 => 0x01C
  | .stride2 => 0x020
  | .dst => 0x024
  | .strided => 0x028
  | .progress => 0x02C
  | .errinfo => 0x030
  | .memsize => 0x034

/-- offset(target) (30_encoding.md R98; 20_memory.md R61). -/
def Target.byteOffset : Target → Nat
  | .reg r => r.offset
  | .buf w => 0x10000 + 4 * w
  | .rcRom i l => 0x01000 + 4 * (24 * i + l)
  | .mixRom r c => 0x03000 + 4 * (24 * r + c)
  | .offset a => a

/-- The target lies in the aperture, so that its offset is one the bus can carry (20_memory.md R60). -/
def Target.wellFormed (g : Target) : Bool := decide (g.byteOffset < 0x100000)

/-- One line: one host bus access, or the repeated reads of a POLL. How often a POLL reads is the
host's own, so the line carries the number of reads before the last one (30_encoding.md R98, R100;
log entry 18). -/
inductive HostLine where
  | wr (g : Target) (v : Word)
  | rd (g : Target)
  | poll (g : Target) (mask value : Word) (before : Nat)
  deriving DecidableEq, Repr

/-- The read of a POLL that ends it: (t AND mask) = value (30_encoding.md R98). -/
def pollEnds (mask value t : Word) : Bool := t &&& mask == value

/-- The bus accesses of a line, in order (30_encoding.md R98, R100). -/
def HostLine.accesses : HostLine → List Access
  | .wr g v => [.write (BitVec.ofNat 20 g.byteOffset) 4 v]
  | .rd g => [.read (BitVec.ofNat 20 g.byteOffset) 4]
  | .poll g _ _ before => List.replicate (before + 1) (.read (BitVec.ofNat 20 g.byteOffset) 4)

/-- The pseudo-instructions (30_encoding.md R99). -/
inductive Pseudo where
  | issue (i : Instr)
  | setBatch (d : Descriptor)
  | wait (before : Nat)
  | ack
  | loadD (w : Nat) (d : Vector Word 8)
  | readD (w : Nat)
  | compress1 (a b d : Word) (before : Nat)
  deriving DecidableEq, Repr

/-- SETBATCH (30_encoding.md R99). -/
def setBatchLines (d : Descriptor) : List HostLine :=
  [ .wr (.reg .count) d.count, .wr (.reg .src1) d.src1, .wr (.reg .stride1) d.stride1,
    .wr (.reg .src2) d.src2, .wr (.reg .stride2) d.stride2, .wr (.reg .dst) d.dst,
    .wr (.reg .strided) d.strided ]

/-- WAIT: until DONE = 1 (30_encoding.md R99). -/
def waitLine (before : Nat) : HostLine := .poll (.reg .status) 0x00000002#32 0x00000002#32 before

/-- The expansion of a pseudo-instruction (30_encoding.md R99). -/
def Pseudo.expand : Pseudo → List HostLine
  | .issue i => [.wr (.reg .cmd) (encode i)]
  | .setBatch d => setBatchLines d
  | .wait before => [waitLine before]
  | .ack => [.wr (.reg .status) 0x00000002#32]
  | .loadD w d => (List.finRange 8).map fun j : Fin 8 => .wr (.buf (w + j)) d[j]
  | .readD w => (List.range 8).map fun j => .rd (.buf (w + j))
  | .compress1 a b d before =>
    setBatchLines ⟨1#32, a, 8#32, b, 8#32, d, 8#32⟩
      ++ [.wr (.reg .cmd) (encode .compress), waitLine before]

/-- The bus accesses of a host sequence (30_encoding.md R100). -/
def hostProgram (ps : List Pseudo) : List Access :=
  ps.flatMap fun p => p.expand.flatMap HostLine.accesses

/-- Leaf encoding, the host's own turning of a 32-byte block into a digest: four bytes an element, the
first least significant, each reduced mod P (20_memory.md R84). The block takes no part in it (log
entry 19). -/
def leafDigest (b : Vector Byte 32) : Digest :=
  Vector.ofFn fun j : Fin 8 =>
    fred (wordOfBytes b[4 * j.val] b[4 * j.val + 1] b[4 * j.val + 2] b[4 * j.val + 3]).toNat

/-- A block to which the host makes these accesses next, before all others. -/
def State.withHost (s : State) (as : List Access) : State :=
  { s with bus := as.map Event.host ++ s.bus }

end Sys2Proof.Machine
end

