-- ==== Sys2Proof/Safety.lean ====
section
/-! DEFINITION. The terms the claims are stated in: what a checked batch is, the invariant of the
block, and what a safe run is. -/

namespace Sys2Proof.Machine

/-! ## The three checks of COMPRESS, as predicates -/

/-- Every range of the batch ends within the buffer (44_commands.md R186). -/
abbrev BoundsPass (memWords : Nat) (d : Descriptor) : Prop :=
  d.end1 ≤ memWords ∧ d.end2 ≤ memWords ∧ d.endD ≤ memWords

/-- The outputs overlap neither each other nor a source range (44_commands.md R187). -/
abbrev OverlapPass (d : Descriptor) : Prop :=
  (d.count.toNat ≤ 1 ∨ 8 ≤ d.strided.toNat) ∧
  (d.end1 ≤ d.dst.toNat ∨ d.endD ≤ d.src1.toNat) ∧
  (d.end2 ≤ d.dst.toNat ∨ d.endD ≤ d.src2.toNat)

/-- Buf[w] is written and holds a field element (41_field_arithmetic.md R111). -/
def holdsField (m : Memory) (w : Nat) : Bool :=
  match m.readWord w with
  | some v => isFieldWord v
  | none => false

/-- Every input word of the batch is written and holds a field element (44_commands.md R188). -/
abbrev InputsPass (m : Memory) (d : Descriptor) : Prop :=
  ∀ w ∈ scanOrder d, holdsField m w = true

/-- A batch that has passed the check step (44_commands.md R186 to R188). -/
structure Checked (s : State) : Prop where
  bounds : BoundsPass s.cfg.memWords s.desc
  overlap : OverlapPass s.desc
  inputs : InputsPass s.mem s.desc

/-- In `t` the buffer holds exactly the first `m` output digests of the batch that stands in `s`: each is
the COMPRESS_PAIR of that pair's own input words in `s`, and every other byte reads as in `s`
(44_commands.md R199). -/
structure FirstPairs (s t : State) (m : Nat) : Prop where
  /-- Pairs 0 to m - 1 are written. -/
  written : ∀ k < m, ∀ j : Fin 8, t.mem.readWord (outIndex s.desc k j) =
    some (BitVec.ofNat 32 (compressPair (operandDigest s (in1Index s.desc k))
      (operandDigest s (in2Index s.desc k)))[j].val)
  /-- Nothing else is. -/
  others : ∀ a, (∀ k < m, ∀ j < 8, ∀ b < 4, a ≠ wordOffset (outIndex s.desc k j) + b) →
    t.mem.read a = s.mem.read a

/-! ## The invariant -/

/-- The data buffer holds whole words of the data window, in canonical form. -/
structure MemoryInv (memWords : Nat) (m : Memory) : Prop where
  /-- The canonical form. -/
  sorted : Memory.wf m
  /-- Every cell is in the data window (20_memory.md R61). -/
  window : ∀ c ∈ m, 0x10000 ≤ c.1 ∧ c.1 < 0x10000 + 4 * memWords
  /-- A word is written as a whole or not at all (20_memory.md R63, R73). -/
  whole : ∀ c ∈ m, ∀ j < 4, (m.read (4 * (c.1 / 4) + j)).isSome = true

/-- What holds of the block at reset and is kept by every step. -/
structure Inv (s : State) : Prop where
  /-- 24 ≤ MEM_WORDS ≤ 245760 (00_scope.md R10). -/
  config : s.cfg.wellFormed = true
  memory : MemoryInv s.cfg.memWords s.mem
  /-- DONE = 1 and BUSY = 1 never hold together, and an issue has cleared ERR, ABORTED, ERRCODE and
  ERRINFO (10_state.md R37 to R41, R48). -/
  busyClear : s.busy = true →
    s.done = false ∧ s.err = false ∧ s.aborted = false
  /-- ERR = 1 exactly when ERRCODE ≠ 0 (10_state.md R38, R41). -/
  errCode : s.err = true ↔ s.errcode ≠ .none
  /-- ERR = 1 and ABORTED = 1 never hold together (10_state.md R39). -/
  errAborted : ¬(s.err = true ∧ s.aborted = true)
  /-- ERRINFO is 0 unless the last command ended in an error (10_state.md R48). -/
  errInfo : s.err = false → s.errinfo = 0#32
  /-- A command that ended in an error has made no progress (10_state.md R47; 60_exceptions.md R240). -/
  errProgress : s.err = true → s.progress = 0#32
  /-- An abort request is pending only while busy (44_commands.md R181, R190). -/
  abortBusy : s.abortReq = true → s.busy = true
  /-- CMDL never holds the ABORT word (44_commands.md R182). -/
  cmdlNotAbort : s.cmdl ≠ 0x00000002#32
  /-- Before the check step no pair has been computed (44_commands.md R182). -/
  checkFresh : s.phase = .check → s.k = 0#32 ∧ s.progress = 0#32
  /-- The run phase belongs to a COMPRESS with pairs left, and PROGRESS counts those done (10_state.md
  R24, R25). -/
  runPairs : s.phase = .run →
    s.cmdl = 0x00000001#32 ∧ s.k.toNat < s.desc.count.toNat ∧ s.progress = s.k
  /-- In the run phase the batch is still a checked one: nothing can change what was checked
  (10_state.md R50; 20_memory.md R71; 44_commands.md R187). -/
  runChecked : s.phase = .run → Checked s
  /-- While RST is asserted every piece of state holds its reset value. 70_reset_and_hazards.md R270 says
  so of deassertion only: that it holds from assertion on is the model's own (DESIGN CHOICE, log entry
  13), and so are the values of the lane state and the round counter (DESIGN CHOICE, log entry 1). -/
  inReset : s.rst = true →
    s = { State.resetOf s.cfg with rst := true, bus := s.bus, answer := s.answer }

/-! ## Turns and runs -/

/-- The next transition is the engine's: its turn comes next, or no input is left. -/
abbrev EngineNext (s : State) : Prop := s.bus = [] ∨ s.bus.head? = some .engine

/-- `n` transitions of the block. -/
def runFor (n : Nat) (s : State) : Host.Outcome State Fault Refusal := core.run n s

/-- A safe run: none of its first `n` steps stops. -/
def SafeFor (n : Nat) (s : State) : Prop := ∃ t, runFor n s = .next t

/-- A host program's run has ended: no further access, and phase = IDLE (44_commands.md R201). -/
abbrev RunEnded (s : State) : Prop := s.bus = [] ∧ s.phase = .idle

end Sys2Proof.Machine
end

