-- ==== Sys2Proof/Certificates/Slice0/Obligations.lean ====
section
/-! DEFINITION. The statements about the block. Each docstring names the rule of the spec it
formalises; nothing is proved here. -/

open Sys2Proof Sys2Proof.Machine

/-! ## Encoding -/

/-- The opcode map, word by word, and two illegal words (30_encoding.md section 2, R92, R93). By which of
two names an illegal word is rejected is the model's own (DESIGN CHOICE, log entry 15). -/
def Obligations.OpcodeMapWordsDecode : Prop :=
  decode 0x00000000#32 = .ok .nop ∧
  decode 0x00000001#32 = .ok .compress ∧
  decode 0x00000002#32 = .ok .abort ∧
  decode 0x00000003#32 = .error .opcodeNotAssigned ∧
  decode 0x00000102#32 = .error .reservedBits ∧
  decodeBytes [0x01#8, 0x00#8, 0x00#8, 0x00#8] = .ok (.compress, []) ∧
  decodeBytes [0x00#8, 0x00#8, 0x00#8, 0x01#8] = .error .reservedBits

/-- Decoding and encoding agree, in both directions and on every run of bytes: a run of bytes decodes
to a command exactly when it begins with that command's four bytes (30_encoding.md section 1, R91,
R97). No bit of a word is dropped and no two commands share a word. -/
def Obligations.DecodeAndEncodeAgree : Prop :=
  ∀ (bs rest : List Byte) (i : Instr),
    decodeBytes bs = .ok (i, rest) ↔ bs = encodeBytes i ++ rest

/-- Which words are illegal, and by which of the model's two names each is rejected (log entry 15)
(30_encoding.md section 2, R93). -/
def Obligations.EveryOtherWordIsIllegal : Prop :=
  ∀ w : Word,
    ((∃ e, decode w = .error e) ↔
      w ≠ 0x00000000#32 ∧ w ≠ 0x00000001#32 ∧ w ≠ 0x00000002#32) ∧
    (decode w = .error .reservedBits ↔ 0x100 ≤ w.toNat) ∧
    (decode w = .error .opcodeNotAssigned ↔ 3 ≤ w.toNat ∧ w.toNat < 0x100)

/-- A step runs the decoded command: at a check step the command that CMDL decodes to (NOP or
COMPRESS), at a pair step COMPRESS, at a CMD write of the ABORT word ABORT. Around `exec` the step
only takes the event off the history, and answers the host's write OK (44_commands.md sections 1
and 2, R181, R183, R189). -/
def Obligations.StepRunsTheDecodedCommand : Prop :=
  ∀ s : State, s.rst = false →
    (EngineNext s → s.phase = .check → ∀ i : Instr, i ≠ .abort → decode s.cmdl = .ok i →
      step s = exec i (popEvent s)) ∧
    (EngineNext s → s.phase = .run → step s = exec .compress (popEvent s)) ∧
    (∀ (v : Word) (rest : List Event), s.bus = .host (.write 0x00004#20 4 v) :: rest →
      decode v = .ok .abort → step s = exec .abort (answered .ok (popEvent s)))

/-! ## The commands -/

/-- R184: NOP completes with SUCCESS at its check step. While busy a NOP word is dropped and sets
BWERR. The example: an idle block with BWERR clear, given a CMD write of 0, has STATUS 0x2 after one
check step, with PROGRESS and ERRINFO 0 and IRQ = CTRL.IE. -/
def Obligations.NopCompletesWithSuccess : Prop :=
  (∀ s : State, s.phase = .check →
    exec .nop s = .next { s with
      phase := .idle, abortReq := false, done := true, err := false, aborted := false,
      errcode := .none, errinfo := 0#32 }) ∧
  (∀ (s : State) (rest : List Event), s.rst = false → s.busy = true →
    s.bus = .host (.write 0x00004#20 4 0#32) :: rest →
    step s = .next { s with bwerr := true, bus := rest, answer := .ok }) ∧
  encode .nop = 0x00000000#32 ∧
  (∀ s : State, s.rst = false → s.phase = .idle → s.bwerr = false →
    s.bus = [.host (.write 0x00004#20 4 0#32)] →
    ∃ t, runFor 2 s = .next t ∧ t.statusWord = 0x00000002#32 ∧ t.progress = 0#32 ∧
      t.errinfo = 0#32 ∧ t.irq = s.ie)

/-- ABORT while busy sets the abort request and nothing else; while idle it has no effect at all
(44_commands.md section 3, R191). -/
def Obligations.AbortSetsOnlyTheAbortRequest : Prop :=
  ∀ s : State,
    (s.phase ≠ .idle → exec .abort s = .next { s with abortReq := true }) ∧
    (s.phase = .idle → exec .abort s = .next s)

/-- An ABORT during the check step does not stop the check step: a NOP, an empty batch and a failing
check complete as without it and discard the request; a batch that passes goes on to pair 0, whose
step completes ABORTED with PROGRESS as it stood (44_commands.md section 3, R191 corner cases). -/
def Obligations.AbortDuringTheCheckStepWaitsForAPair : Prop :=
  ∀ s : State, s.phase = .check →
    (exec .nop { s with abortReq := true } = exec .nop s) ∧
    (∀ t, exec .compress s = .next t → t.phase = .idle →
      exec .compress { s with abortReq := true } = .next t) ∧
    (∀ t, exec .compress s = .next t → t.phase = .run →
      exec .compress { s with abortReq := true } = .next { t with abortReq := true } ∧
      exec .compress { t with abortReq := true } = .next { t with
        phase := .idle, abortReq := false, done := true, err := false, aborted := true,
        errcode := .none, errinfo := 0#32 })

/-- R197: a COMPRESS with COUNT = 0 completes SUCCESS at its check step, whatever the other
descriptor registers hold, with no buffer access; PROGRESS is 0. -/
def Obligations.EmptyBatchSucceeds : Prop :=
  (∀ s : State, s.phase = .check → s.desc.count = 0#32 →
    exec .compress s = .next { s with
      phase := .idle, abortReq := false, done := true, err := false, aborted := false,
      errcode := .none, errinfo := 0#32 }) ∧
  (∀ s t : State, s.desc.count = 0#32 →
    exec .compress (issue 0x00000001#32 s) = .next t → t.progress = 0#32 ∧ t.mem = s.mem)

/-- The bounds check: with n > 0 the first of the ranges in1, in2 and output whose end, an exact
integer, is past MEM_WORDS ends the command with BOUNDS and its number (44_commands.md section 3,
R186; 60_exceptions.md R231, R233). -/
def Obligations.BoundsErrorNamesTheFirstRange : Prop :=
  ∀ s : State, s.phase = .check → s.desc.count ≠ 0#32 →
    let n := s.desc.count.toNat
    let end1 := s.desc.src1.toNat + (n - 1) * s.desc.stride1.toNat + 8
    let end2 := s.desc.src2.toNat + (n - 1) * s.desc.stride2.toNat + 8
    let endD := s.desc.dst.toNat + (n - 1) * s.desc.strided.toNat + 8
    let boundsAt : Word → State := fun id => { s with
      phase := .idle, abortReq := false, done := true, err := true, aborted := false,
      errcode := .bounds, errinfo := id }
    (end1 > s.cfg.memWords → exec .compress s = .next (boundsAt 1#32)) ∧
    (end1 ≤ s.cfg.memWords → end2 > s.cfg.memWords → exec .compress s = .next (boundsAt 2#32)) ∧
    (end1 ≤ s.cfg.memWords → end2 ≤ s.cfg.memWords → endD > s.cfg.memWords →
      exec .compress s = .next (boundsAt 3#32))

/-- The overlap check: with n > 0 and the bounds check passed, the first of "outputs overlap each
other", "output meets in1", "output meets in2" ends the command with OVERLAP and 3, 1 or 2
(44_commands.md section 3, R187; 60_exceptions.md R231, R234). -/
def Obligations.OverlapErrorNamesTheFirstRange : Prop :=
  ∀ s : State, s.phase = .check → s.desc.count ≠ 0#32 → BoundsPass s.cfg.memWords s.desc →
    let n := s.desc.count.toNat
    let end1 := s.desc.src1.toNat + (n - 1) * s.desc.stride1.toNat + 8
    let end2 := s.desc.src2.toNat + (n - 1) * s.desc.stride2.toNat + 8
    let endD := s.desc.dst.toNat + (n - 1) * s.desc.strided.toNat + 8
    let selfOverlap := n > 1 ∧ s.desc.strided.toNat < 8
    let meets1 := s.desc.dst.toNat < end1 ∧ s.desc.src1.toNat < endD
    let meets2 := s.desc.dst.toNat < end2 ∧ s.desc.src2.toNat < endD
    let overlapAt : Word → State := fun id => { s with
      phase := .idle, abortReq := false, done := true, err := true, aborted := false,
      errcode := .overlap, errinfo := id }
    (selfOverlap → exec .compress s = .next (overlapAt 3#32)) ∧
    (¬selfOverlap → meets1 → exec .compress s = .next (overlapAt 1#32)) ∧
    (¬selfOverlap → ¬meets1 → meets2 → exec .compress s = .next (overlapAt 2#32))

/-- R188: the range check, for a batch past the bounds and overlap checks. Words are scanned pair by
pair, in1 before in2, lane 0 to 7. When every word is a field element the run phase begins at pair 0.
The first word ≥ P ends the command with OUT_OF_RANGE and its word index. A scanned word that is
unwritten is a fault of the engine step. -/
def Obligations.RangeCheckScansInOrder : Prop :=
  ∀ s : State, s.phase = .check → s.desc.count ≠ 0#32 →
    BoundsPass s.cfg.memWords s.desc → OverlapPass s.desc →
    let in1 : Nat → Nat → Nat := fun k j => s.desc.src1.toNat + k * s.desc.stride1.toNat + j
    let in2 : Nat → Nat → Nat := fun k j => s.desc.src2.toNat + k * s.desc.stride2.toNat + j
    let good : Nat → Prop := fun w => ∃ v, s.mem.readWord w = some v ∧ v.toNat < P
    let pairsBefore : Nat → Prop := fun k => ∀ k' < k, ∀ j < 8, good (in1 k' j) ∧ good (in2 k' j)
    let stops : Nat → Prop := fun w =>
      (∀ v, s.mem.readWord w = some v → P ≤ v.toNat →
        exec .compress s = .next { s with
          phase := .idle, abortReq := false, done := true, err := true, aborted := false,
          errcode := .outOfRange, errinfo := BitVec.ofNat 32 w }) ∧
      (s.mem.readWord w = none → exec .compress s = .fault (.engineReadUnwritten w))
    (pairsBefore s.desc.count.toNat →
      exec .compress s = .next { s with phase := .run, k := 0#32 }) ∧
    (∀ k < s.desc.count.toNat, ∀ j < 8, pairsBefore k → (∀ j' < j, good (in1 k j')) →
      stops (in1 k j)) ∧
    (∀ k < s.desc.count.toNat, ∀ j < 8, pairsBefore k → (∀ j' < 8, good (in1 k j')) →
      (∀ j' < j, good (in2 k j')) → stops (in2 k j))

/-- The pair step in RUN(k), k < COUNT (44_commands.md section 3, R189). An abort request completes
ABORTED. Otherwise, with the sixteen input words written and below P and the output digest inside the
buffer, the step answers a next state: the eight output words hold zext_32 of COMPRESS_PAIR of the two
input digests, every other byte reads as before, PROGRESS is k + 1, and the command completes SUCCESS
after the last pair or goes on to pair k + 1. Only the lane state and the round counter are left unsaid.
The last clause, that in every state that meets the invariant the sixteen input words are written and
below P, is R189's own inference. That a completion leaves the register k, and so k keeps the index of
the last pair, is the model's reading (DEDUCED, log entries 10 and 11). -/
def Obligations.PairStepWritesTheCompression : Prop :=
  ∀ s : State, s.phase = .run → s.k.toNat < s.desc.count.toNat →
    (s.abortReq = true → exec .compress s = .next { s with
      phase := .idle, abortReq := false, done := true, err := false, aborted := true,
      errcode := .none, errinfo := 0#32 }) ∧
    (s.abortReq = false → ∀ in1 in2 : Digest,
      let k := s.k.toNat
      let w1 := s.desc.src1.toNat + k * s.desc.stride1.toNat
      let w2 := s.desc.src2.toNat + k * s.desc.stride2.toNat
      let wD := s.desc.dst.toNat + k * s.desc.strided.toNat
      w1 + 8 ≤ s.cfg.memWords → w2 + 8 ≤ s.cfg.memWords → wD + 8 ≤ s.cfg.memWords →
      (∀ j : Fin 8, s.mem.readWord (w1 + j) = some (BitVec.ofNat 32 in1[j].val)) →
      (∀ j : Fin 8, s.mem.readWord (w2 + j) = some (BitVec.ofNat 32 in2[j].val)) →
      ∃ (m : Memory) (L : Lanes) (r : BitVec 6),
        (∀ j : Fin 8, m.readWord (wD + j) = some (BitVec.ofNat 32 (compressPair in1 in2)[j].val)) ∧
        (∀ a, a < 0x10000 + 4 * wD ∨ 0x10000 + 4 * (wD + 8) ≤ a → m.read a = s.mem.read a) ∧
        exec .compress s = .next (
          if k + 1 = s.desc.count.toNat then { s with
            mem := m, lanes := L, rc := r, progress := s.k + 1#32,
            phase := .idle, abortReq := false, done := true, err := false, aborted := false,
            errcode := .none, errinfo := 0#32 }
          else { s with
            mem := m, lanes := L, rc := r, progress := s.k + 1#32, k := s.k + 1#32 })) ∧
    (Inv s → ∀ j < 8, ∃ v1 v2 : Word,
      s.mem.readWord (s.desc.src1.toNat + s.k.toNat * s.desc.stride1.toNat + j) = some v1 ∧
      s.mem.readWord (s.desc.src2.toNat + s.k.toNat * s.desc.stride2.toNat + j) = some v2 ∧
      v1.toNat < P ∧ v2.toNat < P)

/-- The frame of COMPRESS, whichever step of it runs: the parameters, RST, CMDL, BWERR, CTRL, the
descriptor and the host's side are unchanged; every byte of the buffer is unchanged except, at a pair
step, the eight words of pair k's output digest; the lane state, the round counter and PROGRESS change
only at a pair step; and the status of the command and the abort request change only when it ends.
Where the engine has no step (idle, or no pair left) nothing changes; that is the model's own (log
entry 7) (44_commands.md section 3, R185 to R190; 10_state.md R22). -/
def Obligations.CompressFrame : Prop :=
  ∀ s t : State, exec .compress s = .next t →
    (t.cfg = s.cfg ∧ t.rst = s.rst ∧ t.cmdl = s.cmdl ∧ t.bwerr = s.bwerr ∧ t.ie = s.ie ∧
      t.desc = s.desc ∧ t.bus = s.bus ∧ t.answer = s.answer) ∧
    (∀ a, (s.phase = .run → ∀ j < 8, ∀ b < 4, a ≠ wordOffset (outIndex s.desc s.k.toNat j) + b) →
      t.mem.read a = s.mem.read a) ∧
    (s.phase ≠ .run → t.lanes = s.lanes ∧ t.rc = s.rc ∧ t.progress = s.progress) ∧
    (t.phase ≠ .idle → t.abortReq = s.abortReq ∧ t.done = s.done ∧ t.err = s.err ∧
      t.aborted = s.aborted ∧ t.errcode = s.errcode ∧ t.errinfo = s.errinfo) ∧
    (s.phase = .idle ∨ (s.phase = .run ∧ s.desc.count.toNat ≤ s.k.toNat) → t = s)

/-- The frame of NOP and ABORT: everything but the completion's own fields and the abort request is
unchanged, the whole buffer among it. Away from its check step NOP changes nothing, which is the
model's own (log entry 7) (44_commands.md section 3, R184, R191). -/
def Obligations.NopAndAbortFrame : Prop :=
  ∀ s t : State, (exec .nop s = .next t ∨ exec .abort s = .next t) →
    t.cfg = s.cfg ∧ t.rst = s.rst ∧ t.lanes = s.lanes ∧ t.rc = s.rc ∧ t.k = s.k ∧
    t.cmdl = s.cmdl ∧ t.bwerr = s.bwerr ∧ t.ie = s.ie ∧ t.desc = s.desc ∧
    t.progress = s.progress ∧ t.bus = s.bus ∧ t.answer = s.answer ∧
    (∀ a, t.mem.read a = s.mem.read a) ∧
    (exec .nop s = .next t → s.phase ≠ .check → t = s) ∧
    (exec .abort s = .next t → t.phase = s.phase ∧ t.done = s.done ∧ t.err = s.err ∧
      t.aborted = s.aborted ∧ t.errcode = s.errcode ∧ t.errinfo = s.errinfo)

/-- R192: at the check step a CMDL other than 0 and 1 completes ERROR with ILLEGAL_CMD and ERRINFO =
CMDL, and nothing else happens. The example: an idle block with BWERR clear, given a CMD write of
0x00000103, ends with STATUS 0x106 and ERRINFO 0x103. -/
def Obligations.IllegalCommandCompletesWithError : Prop :=
  (∀ s : State, s.rst = false → EngineNext s → s.phase = .check →
    s.cmdl ≠ 0x00000000#32 → s.cmdl ≠ 0x00000001#32 →
    step s = .next { s with
      bus := s.bus.tail, phase := .idle, abortReq := false, done := true, err := true,
      aborted := false, errcode := .illegalCmd, errinfo := s.cmdl }) ∧
  (∀ s : State, s.rst = false → s.phase = .idle → s.bwerr = false →
    s.bus = [.host (.write 0x00004#20 4 0x00000103#32)] →
    ∃ t, runFor 2 s = .next t ∧ t.statusWord = 0x00000106#32 ∧ t.errinfo = 0x00000103#32)

/-- R190: what the end of a command writes, for every kind, and that IRQ is then CTRL.IE. -/
def Obligations.CompletionWritesStatus : Prop :=
  ∀ (kind : Kind) (code : ErrCode) (info : Word) (s : State),
    complete kind code info s = { s with
      phase := .idle, abortReq := false, done := true, err := decide (kind = .error),
      aborted := decide (kind = .aborted), errcode := code, errinfo := info } ∧
    (complete kind code info s).busy = false ∧
    (complete kind code info s).irq = s.ie

/-! ## Whole commands -/

/-- The whole of a checked batch, with no ABORT: from the issue, m + 1 engine steps (m ≤ COUNT, COUNT
> 0) leave exactly the first m output digests written, each the COMPRESS_PAIR of that pair's own input
words as they stood at the issue; every other byte reads as at the issue, PROGRESS is m, and the
command is complete with SUCCESS exactly when m = COUNT. The pairs are independent of each other
(44_commands.md section 5, R199; 43_permutation.md section 4, R162). -/
def Obligations.BatchComputesEveryPair : Prop :=
  ∀ (s : State) (m : Nat), s.rst = false → s.bus = [] → s.phase = .idle →
    s.desc.count ≠ 0#32 → Checked s → m ≤ s.desc.count.toNat →
    let in1 : Nat → Digest := fun k => operandDigest s (in1Index s.desc k)
    let in2 : Nat → Digest := fun k => operandDigest s (in2Index s.desc k)
    ∃ t, runFor (m + 1) (issue 0x00000001#32 s) = .next t ∧
      (∀ k < m, ∀ j : Fin 8, t.mem.readWord (outIndex s.desc k j) =
        some (BitVec.ofNat 32 (compressPair (in1 k) (in2 k))[j].val)) ∧
      (∀ a, (∀ k < m, ∀ j < 8, ∀ b < 4, a ≠ wordOffset (outIndex s.desc k j) + b) →
        t.mem.read a = s.mem.read a) ∧
      t.progress.toNat = m ∧ t.desc = s.desc ∧ t.ie = s.ie ∧ t.bwerr = s.bwerr ∧
      (m < s.desc.count.toNat → t.phase = .run ∧ t.k.toNat = m) ∧
      (m = s.desc.count.toNat → t.phase = .idle ∧ t.done = true ∧ t.err = false ∧
        t.aborted = false ∧ t.errcode = .none ∧ t.errinfo = 0#32)

/-- A command of a block that keeps the invariant, left alone by the host, completes after at most
COUNT + 1 engine steps, provided its range check, if it comes to one, meets no unwritten word: every
word it comes to, past field elements only, is written. A NOP, an illegal word and a COMPRESS that fails
the bounds or the overlap check scan no word and need none written (44_commands.md section 5, R198, and
R183, R186 to R188; 20_memory.md R73). Left alone, the engine moves (log entry 3). -/
def Obligations.CommandCompletesWithinCountPlusOneSteps : Prop :=
  ∀ s : State, Inv s → s.rst = false → s.bus = [] → s.busy = true →
    (s.phase = .check → s.cmdl = 0x00000001#32 → BoundsPass s.cfg.memWords s.desc →
      OverlapPass s.desc → ∀ pre w post, scanOrder s.desc = pre ++ w :: post →
        (∀ u ∈ pre, holdsField s.mem u = true) → s.mem.readWord w ≠ none) →
    ∃ n ≤ s.desc.count.toNat + 1, ∃ t, runFor n s = .next t ∧ RunEnded t ∧ t.done = true

/-- Once the run phase has begun no engine step faults (20_memory.md section 4, R73; 44_commands.md
section 3, R189). -/
def Obligations.RunPhaseNeverFaults : Prop :=
  ∀ s : State, Inv s → s.phase = .run → ∃ t, exec .compress s = .next t

/-- A block past its check step, and one that is idle, is safe for good when the host leaves it alone:
no step of it ever stops (44_commands.md section 5, R198; 20_memory.md section 4, R73). R180 and R252
give an idle engine no step: that a step of an idle block, and of one in reset, answers a next state
is the model's own (DESIGN CHOICE, log entries 3 and 7). -/
def Obligations.BlockPastItsCheckIsSafeForever : Prop :=
  ∀ (s : State) (n : Nat), Inv s → s.bus = [] → s.phase ≠ .check → SafeFor n s

/-- Every fault the engine can raise is a read of an unwritten input word, at the check step of a
COMPRESS whose descriptor has passed the bounds and overlap checks (20_memory.md section 4, R73;
44_commands.md R188). -/
def Obligations.EngineFaultsOnlyOnUnwrittenInputs : Prop :=
  ∀ (s : State) (f : Fault), Inv s → EngineNext s → step s = .fault f →
    s.phase = .check ∧ s.cmdl = 0x00000001#32 ∧
    BoundsPass s.cfg.memWords s.desc ∧ OverlapPass s.desc ∧
    ∃ w ∈ scanOrder s.desc, w < s.cfg.memWords ∧ s.mem.readWord w = none ∧
      f = .engineReadUnwritten w

/-- What an error completion saves and changes. Errors come only at the check step; PROGRESS is 0; the
buffer, the descriptor and CTRL are as they were; ERRCODE and ERRINFO are those of an illegal command,
of a range that fails, or of an input word ≥ P (60_exceptions.md sections 1 and 3). -/
def Obligations.ErrorCompletionIsPrecise : Prop :=
  ∀ s t : State, Inv s → s.rst = false → EngineNext s → s.busy = true →
    step s = .next t → t.err = true →
    s.phase = .check ∧ t.phase = .idle ∧ t.done = true ∧ t.aborted = false ∧
    t.progress = 0#32 ∧ t.mem = s.mem ∧ t.desc = s.desc ∧ t.ie = s.ie ∧
    ((t.errcode = .illegalCmd ∧ t.errinfo = s.cmdl ∧
        s.cmdl ≠ 0x00000000#32 ∧ s.cmdl ≠ 0x00000001#32) ∨
      (s.cmdl = 0x00000001#32 ∧ s.desc.count ≠ 0#32 ∧
        ((t.errcode = .bounds ∧ t.errinfo.toNat ∈ [1, 2, 3]) ∨
         (t.errcode = .overlap ∧ t.errinfo.toNat ∈ [1, 2, 3]) ∨
         (t.errcode = .outOfRange ∧ t.errinfo.toNat ∈ scanOrder s.desc ∧
          ∃ v, s.mem.readWord t.errinfo.toNat = some v ∧ P ≤ v.toNat))))

/-- After the bounds check every word index the command will access is below MEM_WORDS
(44_commands.md section 3, R186; 20_memory.md R73). -/
def Obligations.CheckedBatchStaysInsideTheBuffer : Prop :=
  ∀ (memWords : Nat) (d : Descriptor), BoundsPass memWords d →
    ∀ k < d.count.toNat, ∀ j < 8,
      d.src1.toNat + k * d.stride1.toNat + j < memWords ∧
      d.src2.toNat + k * d.stride2.toNat + j < memWords ∧
      d.dst.toNat + k * d.strided.toNat + j < memWords

/-- After the overlap check no pair step reads a word that any pair step writes, and no two pairs
write the same word (44_commands.md section 3, R187). -/
def Obligations.CheckedBatchNeverReadsAnOutputWord : Prop :=
  ∀ d : Descriptor, OverlapPass d →
    ∀ k < d.count.toNat, ∀ k' < d.count.toNat, ∀ j < 8, ∀ j' < 8,
      in1Index d k j ≠ outIndex d k' j' ∧
      in2Index d k j ≠ outIndex d k' j' ∧
      (outIndex d k j = outIndex d k' j' → k = k' ∧ j = j')

/-! ## The invariant -/

/-- The state after reset meets the invariant, at the default parameters and at all legal ones
(70_reset_and_hazards.md section 1). -/
def Obligations.ResetMeetsTheInvariant : Prop :=
  Inv State.reset ∧ ∀ c : Config, c.wellFormed = true → Inv (State.resetOf c)

/-- Every step keeps the invariant: the buffer keeps its canonical form and holds whole words of the
data window; DONE and BUSY, and ERR and ABORTED, are never 1 together; ERR agrees with ERRCODE and
ERRINFO; an abort request is pending only while busy; CMDL is never the ABORT word; in the run phase
k < COUNT, PROGRESS = k and the batch is still a checked one (10_state.md sections 1 and 3). The last
clause, that while RST stays asserted all is at its reset value, is the model's own (DESIGN CHOICE, log
entry 13; the lane state and the round counter at 0, log entry 1): R270 speaks of deassertion only. -/
def Obligations.EveryStepKeepsTheInvariant : Prop :=
  ∀ s t : State, Inv s → step s = .next t → Inv t

/-! ## Rules about every step -/

/-- While a command is in progress no step but a reset changes the batch descriptor (10_state.md
section 3, R50). -/
def Obligations.DescriptorIsFixedWhileBusy : Prop :=
  ∀ s t : State, step s = .next t → s.busy = true →
    (∀ level, s.bus.head? ≠ some (.reset level)) → t.desc = s.desc

/-- A host access to a busy block that keeps the invariant changes at most BWERR, CTRL.IE and the
abort request: not the buffer, the descriptor, the engine's own state or the status of the command
(70_reset_and_hazards.md section 3, R276 to R278; 20_memory.md R71). -/
def Obligations.HostCannotDisturbARunningCommand : Prop :=
  ∀ (s t : State) (a : Access) (rest : List Event), Inv s → s.busy = true →
    s.bus = .host a :: rest → step s = .next t →
    ∃ (bw ie ab : Bool) (ans : Answer),
      t = { s with bwerr := bw, ie := ie, abortReq := ab, bus := rest, answer := ans }

/-- No read has a side effect: a read that is answered changes nothing but the answer, so the same
read again returns the same value (20_memory.md section 5, R76, R77; R68). -/
def Obligations.ReadsHaveNoSideEffect : Prop :=
  ∀ (s t : State) (addr : Offset) (size : Nat) (rest : List Event),
    s.bus = .host (.read addr size) :: rest → step s = .next t →
    ∃ v, t = { s with bus := rest, answer := .data v } ∧
      step { t with bus := .host (.read addr size) :: rest } = .next t

/-- R40: exactly when a step leaves BWERR at 1. It is set while busy by a write to a locked register
or by a CMD write of any word but the ABORT word; it is cleared only by a STATUS write with bit 4 = 1
or by reset; everything else leaves it unchanged. -/
def Obligations.BwerrIsSticky : Prop :=
  ∀ s t : State, step s = .next t →
    (t.bwerr = true ↔
      (s.busy = true ∧ ∃ (addr : Offset) (v : Word),
        s.bus.head? = some (.host (.write addr 4 v)) ∧
        ((addr = 0x00004#20 ∧ v ≠ 0x00000002#32) ∨
          (0x00010 ≤ addr.toNat ∧ addr.toNat ≤ 0x00028))) ∨
      (s.bwerr = true ∧
        (∀ v : Word, s.bus.head? = some (.host (.write 0x00008#20 4 v)) → v.getLsbD 4 = false) ∧
        (∀ level, s.bus.head? ≠ some (.reset level))))

/-- DONE rises only when a command completes, and a command that stops being in progress has set DONE
or was cut short by reset (10_state.md section 3, R37; 44_commands.md R190, R201). -/
def Obligations.DoneMarksExactlyTheEndOfACommand : Prop :=
  ∀ s t : State, step s = .next t → (∀ level, s.bus.head? ≠ some (.reset level)) →
    (s.done = false → t.done = true → s.busy = true ∧ t.busy = false) ∧
    (s.busy = true → t.busy = false → t.done = true)

/-- The lane state and the round counter change only in a pair step or a reset: no host access and no
check step writes them (10_state.md section 1, R22). -/
def Obligations.LaneStateChangesOnlyInAPairStep : Prop :=
  ∀ s t : State, step s = .next t → (∀ level, s.bus.head? ≠ some (.reset level)) →
    ¬(s.phase = .run ∧ EngineNext s) → t.lanes = s.lanes ∧ t.rc = s.rc

/-- A byte of the buffer changes only in three ways: a pair step writes it as part of its output
digest; the host writes its word through the data window while idle; or reset (20_memory.md sections
3 and 4, R71, R73). -/
def Obligations.BufferChangesOnlyByItsOwners : Prop :=
  ∀ (s t : State) (a : Nat), step s = .next t → t.mem.read a ≠ s.mem.read a →
    (s.phase = .run ∧ EngineNext s ∧
      ∃ j < 8, ∃ b < 4, a = wordOffset (outIndex s.desc s.k.toNat j) + b) ∨
    (s.busy = false ∧ ∃ (addr : Offset) (v : Word),
      s.bus.head? = some (.host (.write addr 4 v)) ∧ 0x10000 ≤ addr.toNat ∧
      addr.toNat ≤ a ∧ a < addr.toNat + 4) ∨
    (∃ level, s.bus.head? = some (.reset level))

/-! ## Host accesses -/

/-- R181: a CMD write. The exact ABORT word while busy sets the abort request, while idle nothing;
any other word while busy sets BWERR, while idle is issued. It is answered OK in every case. -/
def Obligations.CmdWriteDispatches : Prop :=
  ∀ (s : State) (v : Word) (rest : List Event), s.rst = false →
    s.bus = .host (.write 0x00004#20 4 v) :: rest →
    (v = 0x00000002#32 → s.busy = true →
      step s = .next { s with abortReq := true, bus := rest, answer := .ok }) ∧
    (v = 0x00000002#32 → s.busy = false → step s = .next { s with bus := rest, answer := .ok }) ∧
    (v ≠ 0x00000002#32 → s.busy = true →
      step s = .next { s with bwerr := true, bus := rest, answer := .ok }) ∧
    (v ≠ 0x00000002#32 → s.busy = false →
      step s = .next { s with
        cmdl := v, phase := .check, k := 0#32, abortReq := false, done := false, err := false,
        aborted := false, errcode := .none, progress := 0#32, errinfo := 0#32,
        bus := rest, answer := .ok })

/-- R193: a write to a locked register takes effect while idle and is dropped with BWERR while busy;
it is answered OK either way. -/
def Obligations.LockedRegisterWrites : Prop :=
  ∀ (s : State) (addr : Offset) (v : Word) (rest : List Event), s.rst = false →
    s.bus = .host (.write addr 4 v) :: rest →
    (s.busy = false →
      let sets : Descriptor → Prop := fun d =>
        step s = .next { s with desc := d, bus := rest, answer := .ok }
      (addr = 0x00010#20 → sets { s.desc with count := v }) ∧
      (addr = 0x00014#20 → sets { s.desc with src1 := v }) ∧
      (addr = 0x00018#20 → sets { s.desc with stride1 := v }) ∧
      (addr = 0x0001C#20 → sets { s.desc with src2 := v }) ∧
      (addr = 0x00020#20 → sets { s.desc with stride2 := v }) ∧
      (addr = 0x00024#20 → sets { s.desc with dst := v }) ∧
      (addr = 0x00028#20 → sets { s.desc with strided := v })) ∧
    (s.busy = true →
      addr ∈ [0x00010#20, 0x00014#20, 0x00018#20, 0x0001C#20, 0x00020#20, 0x00024#20, 0x00028#20] →
      step s = .next { s with bwerr := true, bus := rest, answer := .ok })

/-- R194: a STATUS write clears DONE if bit 1 is 1 and BWERR if bit 4 is 1 and changes nothing else,
whatever BUSY is; clearing DONE drops IRQ; while busy DONE is already 0. -/
def Obligations.StatusWriteIsWriteOneToClear : Prop :=
  ∀ (s : State) (v : Word) (rest : List Event), s.rst = false →
    s.bus = .host (.write 0x00008#20 4 v) :: rest →
    (∃ t, step s = .next t ∧
      t = { s with
        done := if v.getLsbD 1 = true then false else s.done
        bwerr := if v.getLsbD 4 = true then false else s.bwerr
        bus := rest, answer := .ok } ∧
      (v.getLsbD 1 = true → t.irq = false)) ∧
    (Inv s → s.busy = true → s.done = false)

/-- R195: a CTRL write sets IE to bit 0 of the value and changes nothing else, whatever BUSY is. -/
def Obligations.CtrlWriteSetsIe : Prop :=
  ∀ (s : State) (v : Word) (rest : List Event), s.rst = false →
    s.bus = .host (.write 0x0000C#20 4 v) :: rest →
    step s = .next { s with ie := v.getLsbD 0, bus := rest, answer := .ok }

/-- IRQ is the level CTRL.IE AND STATUS.DONE: setting IE while DONE = 1 raises it at once, clearing
IE masks it, an issue drops it and a completion leaves it at IE (10_state.md R51; 60_exceptions.md
section 4). -/
def Obligations.IrqFollowsIeAndDone : Prop :=
  ∀ (s : State) (v : Word),
    s.irq = (s.ie && s.done) ∧
    (ctrlWrite v s).irq = (v.getLsbD 0 && s.done) ∧
    (issue v s).irq = false ∧
    (∀ kind code info, (complete kind code info s).irq = s.ie)

/-- R196: a write to ID, PROGRESS, ERRINFO, MEMSIZE, the RC window or the M window is answered OK and
changes nothing. -/
def Obligations.ReadOnlyWritesAreIgnored : Prop :=
  ∀ (s : State) (addr : Offset) (v : Word) (rest : List Event), s.rst = false →
    s.bus = .host (.write addr 4 v) :: rest → addr.toNat % 4 = 0 →
    (addr ∈ [0x00000#20, 0x0002C#20, 0x00030#20, 0x00034#20] ∨
      (0x01000 ≤ addr.toNat ∧ addr.toNat < 0x02800) ∨
      (0x03000 ≤ addr.toNat ∧ addr.toNat < 0x03900)) →
    step s = .next { s with bus := rest, answer := .ok }

/-- Every register's read value, with no side effect: CMD reads 0, ID and MEMSIZE are constants
(20_memory.md section 3, R68; 10_state.md section 3, R32 to R49). -/
def Obligations.RegisterReadsReturnTheirValues : Prop :=
  ∀ (s : State) (addr : Offset) (rest : List Event), s.rst = false →
    s.bus = .host (.read addr 4) :: rest →
    let reads : Word → Prop := fun v => step s = .next { s with bus := rest, answer := .data v }
    (addr = 0x00000#20 → reads 0x504F3331#32) ∧
    (addr = 0x00004#20 → reads 0#32) ∧
    (addr = 0x00008#20 → reads s.statusWord) ∧
    (addr = 0x0000C#20 → reads (if s.ie then 1#32 else 0#32)) ∧
    (addr = 0x00010#20 → reads s.desc.count) ∧
    (addr = 0x00014#20 → reads s.desc.src1) ∧
    (addr = 0x00018#20 → reads s.desc.stride1) ∧
    (addr = 0x0001C#20 → reads s.desc.src2) ∧
    (addr = 0x00020#20 → reads s.desc.stride2) ∧
    (addr = 0x00024#20 → reads s.desc.dst) ∧
    (addr = 0x00028#20 → reads s.desc.strided) ∧
    (addr = 0x0002C#20 → reads s.progress) ∧
    (addr = 0x00030#20 → reads s.errinfo) ∧
    (addr = 0x00034#20 → reads (BitVec.ofNat 32 s.cfg.memWords))

/-- The STATUS word's fields, bit by bit; reserved bits read 0 (10_state.md section 3, R35). -/
def Obligations.StatusWordFields : Prop :=
  ∀ s : State,
    s.statusWord.getLsbD 0 = decide (s.phase ≠ .idle) ∧
    s.statusWord.getLsbD 1 = s.done ∧
    s.statusWord.getLsbD 2 = s.err ∧
    s.statusWord.getLsbD 3 = s.aborted ∧
    s.statusWord.getLsbD 4 = s.bwerr ∧
    s.statusWord.extractLsb' 8 4 = (match s.errcode with
      | .none => 0#4 | .illegalCmd => 1#4 | .bounds => 2#4 | .overlap => 3#4 | .outOfRange => 4#4) ∧
    (∀ i, (5 ≤ i ∧ i ≤ 7) ∨ 12 ≤ i → s.statusWord.getLsbD i = false)

/-- R70: the two ROM windows, readable whatever BUSY is, with the contents of R131 and R136; a write
to either is ignored and answered OK. -/
def Obligations.RomWindowsReadTheRoms : Prop :=
  ∀ (s : State) (addr : Offset) (rest : List Event), s.rst = false →
    (∀ q < 1536, addr.toNat = 0x01000 + 4 * q →
      s.bus = .host (.read addr 4) :: rest →
      let k := 1536 + 24 * (q / 24) + q % 24
      step s = .next { s with
        bus := rest, answer := .data (BitVec.ofNat 32 (((3 ^ k) ^^^ (7 ^ k)) % P)) }) ∧
    (∀ q < 576, addr.toNat = 0x03000 + 4 * q →
      s.bus = .host (.read addr 4) :: rest →
      let r := q / 24
      let c := q % 24
      let b := ([[5, 7, 1, 3], [4, 6, 1, 1], [1, 3, 5, 7], [1, 1, 4, 6]].getD (r % 4) []).getD (c % 4) 0
      step s = .next { s with
        bus := rest,
        answer := .data (BitVec.ofNat 32 (if r / 4 = c / 4 then 2 * b else b)) }) ∧
    (∀ (q : Nat) (v : Word),
      ((q < 1536 ∧ addr.toNat = 0x01000 + 4 * q) ∨ (q < 576 ∧ addr.toNat = 0x03000 + 4 * q)) →
      s.bus = .host (.write addr 4 v) :: rest →
      step s = .next { s with bus := rest, answer := .ok })

/-- R71: the data window. While busy every access gets a bus error. While idle a read returns Buf[w]
and a write of any 32-bit value sets Buf[w], with every other byte as before; a read of an unwritten
word is a fault of the host's step (R72). -/
def Obligations.DataWindowAccesses : Prop :=
  ∀ (s : State) (addr : Offset) (w : Nat) (rest : List Event), s.rst = false →
    w < s.cfg.memWords → addr.toNat = 0x10000 + 4 * w →
    (s.bus = .host (.read addr 4) :: rest →
      (s.busy = true → step s = .fault (.busError .bufferBusy)) ∧
      (s.busy = false → ∀ v, s.mem.readWord w = some v →
        step s = .next { s with bus := rest, answer := .data v }) ∧
      (s.busy = false → s.mem.readWord w = none → step s = .fault (.hostReadUnwritten w))) ∧
    (∀ v, s.bus = .host (.write addr 4 v) :: rest →
      (s.busy = true → step s = .fault (.busError .bufferBusy)) ∧
      (s.busy = false → ∃ m : Memory,
        step s = .next { s with mem := m, bus := rest, answer := .ok } ∧
        m.readWord w = some v ∧
        (∀ a, a < addr.toNat ∨ addr.toNat + 4 ≤ a → m.read a = s.mem.read a)))

/-- Byte order: the byte of a buffer word at offset addr + j carries bits [8j+7 : 8j] of the word
written there (20_memory.md section 3, R65). -/
def Obligations.BufferWordsAreLittleEndian : Prop :=
  ∀ (m : Memory) (w : Nat) (v : Word), ∀ j < 4,
    (m.writeWord w v).read (0x10000 + 4 * w + j) = some (BitVec.ofNat 8 (v.toNat / 2 ^ (8 * j)))

/-- R63, R64 and R67: an access of a size other than 4 bytes, a misaligned access, and an aligned
32-bit access to an unmapped offset each get a bus error; the step changes no state. -/
def Obligations.RefusedAccessesGetABusError : Prop :=
  ∀ (s : State) (addr : Offset) (size : Nat) (a : Access) (rest : List Event), s.rst = false →
    (a = .read addr size ∨ ∃ v, a = .write addr size v) → s.bus = .host a :: rest →
    (size ≠ 4 ∨ addr.toNat % 4 ≠ 0 → ∃ c, step s = .fault (.busError c)) ∧
    (size = 4 → addr.toNat % 4 = 0 →
      ((0x00038 ≤ addr.toNat ∧ addr.toNat < 0x01000) ∨
        (0x02800 ≤ addr.toNat ∧ addr.toNat < 0x03000) ∨
        (0x03900 ≤ addr.toNat ∧ addr.toNat < 0x10000) ∨
        0x10000 + 4 * s.cfg.memWords ≤ addr.toNat) →
      step s = .fault (.busError .unmapped))

/-- Driving RST, whatever the engine was doing: every piece of state the spec gives a reset value
takes it and every buffer word is unwritten. While RST is asserted every host access gets a bus error
and the engine takes no step (70_reset_and_hazards.md section 1, R270, R272, R273). R270 speaks of the
state at deassertion: that driving RST high, or driving it low when it was not asserted, puts all state
at reset is the model's own (DESIGN CHOICE, log entry 13), and so are the cause a refused access is
given in reset, before size and alignment (DESIGN CHOICE, log entry 9), and a turn of an engine that
takes no step (DESIGN CHOICE, log entry 3). -/
def Obligations.ResetReturnsEveryPieceOfState : Prop :=
  (∀ (s : State) (level : Bool) (rest : List Event), s.bus = .reset level :: rest →
    ∃ t, step s = .next t ∧ t.rst = level ∧ t.cfg = s.cfg ∧ t.phase = .idle ∧ t.k = 0#32 ∧
      t.cmdl = 0#32 ∧ t.abortReq = false ∧ t.statusWord = 0#32 ∧ t.ie = false ∧ t.irq = false ∧
      t.desc = ⟨0#32, 0#32, 0#32, 0#32, 0#32, 0#32, 0#32⟩ ∧ t.progress = 0#32 ∧
      t.errinfo = 0#32 ∧ (∀ a, t.mem.read a = none)) ∧
  (∀ (s : State) (a : Access) (rest : List Event), s.rst = true → s.bus = .host a :: rest →
    step s = .fault (.busError .inReset)) ∧
  (∀ s : State, s.rst = true → EngineNext s → step s = .next (popEvent s))

/-- R52: the values the spec gives for reset, at every legal MEM_WORDS. The lane state and the round
counter have none. -/
def Obligations.ResetValues : Prop :=
  ∀ c : Config,
    let s := State.resetOf c
    s.k = 0#32 ∧ s.phase = .idle ∧ s.cmdl = 0#32 ∧ s.abortReq = false ∧
    regRead .id s = 0x504F3331#32 ∧ regRead .status s = 0#32 ∧ regRead .ctrl s = 0#32 ∧
    regRead .count s = 0#32 ∧ regRead .src1 s = 0#32 ∧ regRead .stride1 s = 0#32 ∧
    regRead .src2 s = 0#32 ∧ regRead .stride2 s = 0#32 ∧ regRead .dst s = 0#32 ∧
    regRead .strided s = 0#32 ∧ regRead .progress s = 0#32 ∧ regRead .errinfo s = 0#32 ∧
    regRead .memsize s = BitVec.ofNat 32 c.memWords ∧ s.irq = false ∧
    (∀ w, s.mem.readWord w = none) ∧
    (∀ i l, (rcEntry i l).val = ((3 ^ (1536 + 24 * i + l)) ^^^ (7 ^ (1536 + 24 * i + l))) % P) ∧
    (∀ r c, (mixEntry r c).val =
      (([[5, 7, 1, 3], [4, 6, 1, 1], [1, 3, 5, 7], [1, 1, 4, 6]].getD (r % 4) []).getD (c % 4) 0)
        * (if r / 4 = c / 4 then 2 else 1) % P)

/-! ## The datapath -/

/-- SBOX(x) is x^5 mod P, with the corner cases; it is a bijection of the field, as the seventh power
would not be, which is the spec's own inference (from general knowledge, and derived by computation)
(43_permutation.md section 1, R151). -/
def Obligations.SboxIsTheFifthPower : Prop :=
  (∀ x : Fe, (sbox x).val = x.val ^ 5 % P) ∧
  Function.Bijective sbox ∧
  ¬Function.Injective (fun x : Fe => fred (x.val ^ 7)) ∧
  sbox 0 = 0 ∧ sbox 1 = 1 ∧ (sbox (fred (P - 1))).val = P - 1 ∧
  (sbox (fred (P - 2))).val = 2147483615 ∧ (sbox 2).val = 32 ∧ (sbox 3).val = 243 ∧
  (sbox 65536).val = 262144 ∧ (sbox 1626172032).val = 828275683

/-- One round as one formula: add the constant, raise every lane (full round) or lane 0 only (partial
round) to the fifth power, and multiply the row vector by M (43_permutation.md sections 1 and 2, R150
to R156). -/
def Obligations.RoundIsConstantThenSboxThenMix : Prop :=
  ∀ (S : Lanes) (i : Nat) (c : Fin 24),
    let k : Nat → Nat := fun l => 1536 + 24 * i + l
    let A : Fin 24 → Nat := fun l => (S[l].val + ((3 ^ k l) ^^^ (7 ^ k l)) % P) % P
    let Y : Fin 24 → Nat := fun l => if i < 4 ∨ 60 ≤ i ∨ l.val = 0 then A l ^ 5 % P else A l
    let b : Nat → Nat → Nat := fun r c =>
      ([[5, 7, 1, 3], [4, 6, 1, 1], [1, 3, 5, 7], [1, 1, 4, 6]].getD r []).getD c 0
    let M : Fin 24 → Nat := fun r =>
      if r.val / 4 = c.val / 4 then 2 * b (r.val % 4) (c.val % 4) else b (r.val % 4) (c.val % 4)
    (roundFn S i)[c].val = (∑ r : Fin 24, Y r * M r) % P

/-- R154: MIX is the row vector S times M, with every output from the old S; it is linear, it maps the
unit vector of lane r to row r of M, and M is not symmetric; the examples. -/
def Obligations.MixIsLinear : Prop :=
  (∀ (S : Lanes) (c : Fin 24),
    (mix S)[c].val = (∑ r : Fin 24, S[r].val * (mixEntry r.val c.val).val) % P) ∧
  (∀ a b : Lanes,
    mix (Vector.ofFn fun l : Fin 24 => fadd a[l] b[l]) =
      Vector.ofFn fun c : Fin 24 => fadd (mix a)[c] (mix b)[c]) ∧
  (∀ r : Fin 24, mix (Vector.ofFn fun l : Fin 24 => if l = r then 1 else 0) =
    Vector.ofFn fun c : Fin 24 => mixEntry r.val c.val) ∧
  mixEntry 0 1 ≠ mixEntry 1 0 ∧
  mix (Vector.replicate 24 0) = Vector.replicate 24 0 ∧
  (mix (Vector.ofFn fun l : Fin 24 => if l.val = 0 then 1 else 0)).toList.map Fin.val =
    [10, 14, 2, 6, 5, 7, 1, 3, 5, 7, 1, 3, 5, 7, 1, 3, 5, 7, 1, 3, 5, 7, 1, 3] ∧
  (mix (Vector.ofFn fun l : Fin 24 => if l.val = 23 then 1 else 0)).toList.map Fin.val =
    [1, 1, 4, 6, 1, 1, 4, 6, 1, 1, 4, 6, 1, 1, 4, 6, 1, 1, 4, 6, 2, 2, 8, 12] ∧
  (∀ c : Fin 24, (mix (Vector.replicate 24 1))[c].val = if c.val % 2 = 0 then 77 else 119) ∧
  (∀ c : Fin 24, (mix (Vector.replicate 24 (fred (P - 1))))[c].val =
    if c.val % 2 = 0 then 2147483570 else 2147483528)

/-- MIX by lane-class sums, 24 + 96 products in place of 576, gives the same result: the spec's own
derived remark, not a requirement (43_permutation.md section 4, R163). -/
def Obligations.MixByLaneClassSums : Prop :=
  ∀ (S : Lanes) (J : Fin 6) (c : Fin 4),
    let lane : Nat → Nat := fun l => if h : l < 24 then S[l].val else 0
    let U : Nat → Nat := fun r => ∑ I : Fin 6, lane (4 * I.val + r)
    (if h : 4 * J.val + c.val < 24 then (mix S)[4 * J.val + c.val].val else 0) =
      (∑ r : Fin 4, baseEntry r.val c.val * (U r.val + lane (4 * J.val + r.val))) % P

/-- The bounds of the unreduced intermediates, the spec's own inference from R113, R114 and R154: the sum
of any two field elements fits 32 bits and the product of any two fits 62, as the sums of ARC and the
products of the S-box do, and the linear layer's column sum fits 40 (41_field_arithmetic.md section 2,
R115). -/
def Obligations.IntermediatesFitTheirAccumulators : Prop :=
  (∀ a b : Fe, a.val + b.val < 2 * P ∧ a.val + b.val < 2 ^ 32) ∧
  (∀ a b : Fe, a.val * b.val ≤ (P - 1) ^ 2 ∧ a.val * b.val < 2 ^ 62) ∧
  (∀ (S : Lanes) (c : Fin 24),
    columnSum S c.val ≤ 24 * 14 * (P - 1) ∧ columnSum S c.val < 2 ^ 40)

/-- The spec's own derived remark in an implementation note, not a requirement (41_field_arithmetic.md
section 2, R119): reducing a product u < 2^62 by folding its upper bits onto its lower 31 and
subtracting P at most twice gives u mod P; the example, with t < P. -/
def Obligations.MersenneFoldReduces : Prop :=
  (∀ u < 2 ^ 62,
    let t := (u &&& 0x7FFFFFFF) + (u >>> 31)
    let t1 := if P ≤ t then t - P else t
    let t2 := if P ≤ t1 then t1 - P else t1
    t2 = (fred u).val ∧ t2 < P) ∧
  (let u := 121932631112635269
   u >>> 31 = 56779305 ∧ u &&& 0x7FFFFFFF = 2080330629 ∧
     (u &&& 0x7FFFFFFF) + (u >>> 31) = 2137109934 ∧ 2137109934 < P)

/-- The laws of the arithmetic: addition and multiplication are commutative and associative,
multiplication distributes over addition, 0 and 1 are the identities; the unreduced sum is below 2P and
2^32, so the sum may be reduced by one comparison and one subtraction. All of it is the spec's own
inference from the operations' rules (41_field_arithmetic.md section 2, R113, R120). -/
def Obligations.FieldArithmeticLaws : Prop :=
  ∀ a b c : Fe,
    fadd a b = fadd b a ∧ fmul a b = fmul b a ∧
    fadd (fadd a b) c = fadd a (fadd b c) ∧ fmul (fmul a b) c = fmul a (fmul b c) ∧
    fmul a (fadd b c) = fadd (fmul a b) (fmul a c) ∧
    fadd 0 b = b ∧ fmul 1 b = b ∧ fmul 0 b = 0 ∧
    a.val + b.val < 2 * P ∧ 2 * P < 2 ^ 32 ∧
    (fadd a b).val = if a.val + b.val ≥ P then a.val + b.val - P else a.val + b.val

/-- R112, R113 and R114: fred, fadd and fmul are the exact residues mod P; their corner cases and
examples. What R113 derives of the unreduced sum is in FieldArithmeticLaws. -/
def Obligations.FieldOperationsAreExactResidues : Prop :=
  (∀ u : Nat, (fred u).val = u % P ∧ (u < P → (fred u).val = u)) ∧
  fred P = 0 ∧ fred (2 ^ 31) = 1 ∧ fred (2 ^ 62) = 1 ∧ fred 0 = 0 ∧
  (fred 121932631112635269).val = 2137109934 ∧
  (∀ a b : Fe, (fadd a b).val = (a.val + b.val) % P ∧ (fmul a b).val = a.val * b.val % P) ∧
  (∀ a b : Fe, a.val * b.val < 2 ^ 62) ∧
  (∀ a b : Fe, fadd 0 b = b ∧ fadd a b = fadd b a ∧ fmul 0 b = 0 ∧ fmul 1 b = b ∧
    fmul a b = fmul b a) ∧
  fadd (fred (P - 1)) 1 = 0 ∧ (fadd (fred (P - 1)) (fred (P - 1))).val = 2147483645 ∧
  (fadd 2000000000 2000000000).val = 1852516353 ∧
  fmul (fred (P - 1)) (fred (P - 1)) = 1 ∧ fmul (fred (2 ^ 30)) 2 = 1 ∧ fmul 65536 65536 = 2 ∧
  (fmul 123456789 987654321).val = 2137109934

/-- A pair's compression from end to end: INIT puts in1 in lanes 0 to 7, in2 in lanes 8 to 15 and 0 in
the capacity; PERM is the rounds 0 to 63, all of them, once each and in ascending order, each round (of
RoundIsConstantThenSboxThenMix) on the whole state the round before it left; EXTRACT takes lanes 8 to 15;
and COMPRESS_PAIR is EXTRACT of PERM of INIT, so that its digest is lanes 8 to 15 after round 63
(43_permutation.md sections 2 and 3, R157 to R160). -/
def Obligations.InitAndExtractSegments : Prop :=
  (∀ (in1 in2 : Digest) (j : Fin 8),
    (initLanes in1 in2)[j.val] = in1[j.val] ∧
    (initLanes in1 in2)[8 + j.val] = in2[j.val] ∧
    (initLanes in1 in2)[16 + j.val] = 0) ∧
  (∀ T : Nat → Lanes, (∀ i < 64, T (i + 1) = roundFn (T i) i) → perm (T 0) = T 64) ∧
  (∀ (S : Lanes) (j : Fin 8), (extractDigest S)[j.val] = S[8 + j.val]) ∧
  (∀ in1 in2 : Digest, compressPair in1 in2 = extractDigest (perm (initLanes in1 in2))) ∧
  (∀ (in1 in2 : Digest) (T : Nat → Lanes), T 0 = initLanes in1 in2 →
    (∀ i < 64, T (i + 1) = roundFn (T i) i) →
    ∀ j : Fin 8, (compressPair in1 in2)[j.val] = (T 64)[8 + j.val])

/-- PERM is a bijection of the 24-lane states: every round step is invertible (43_permutation.md
section 2, R157, the spec's own derived remark). -/
def Obligations.PermIsABijection : Prop := Function.Bijective perm

/-! ## Host sequences and the first command -/

/-- The command word placed by `withFetchWord` runs at the very next step: NOP and COMPRESS at the
check step of the command they are issued as, ABORT at its CMD write (30_encoding.md section 2;
44_commands.md sections 1 and 2). How a word is placed is the model's own (log entry 6). -/
def Obligations.FetchedWordRunsNext : Prop :=
  ∀ s : State,
    (∀ i : Instr, i ≠ .abort → step (s.withFetchWord 32 (encode i).toNat) =
      exec i { issue (encode i) s with rst := false }) ∧
    step (s.withFetchWord 32 (encode .abort).toNat) =
      exec .abort { s with rst := false, answer := .ok }

/-- The host sequence `SETBATCH` ; `ISSUE COMPRESS` on an idle block: seven locked-register writes and
the CMD write leave the batch descriptor set and the command issued (30_encoding.md section 5, R99,
R100; 44_commands.md R182, R193). -/
def Obligations.HostSequenceIssuesABatch : Prop :=
  ∀ (s : State) (d : Descriptor), s.rst = false → s.phase = .idle → s.bus = [] →
    runFor 8 (s.withHost (hostProgram [.setBatch d, .issue .compress])) =
      .next { s with
        desc := d, cmdl := 0x00000001#32, phase := .check, k := 0#32, abortReq := false,
        done := false, err := false, aborted := false, errcode := .none, progress := 0#32,
        errinfo := 0#32, answer := .ok }

/-! ## A batch that the host interrupts -/

/-- A checked batch under any history without a reset, ABORT among it: from the issue until the step
that ends the command, the buffer holds exactly the first PROGRESS output digests, each the COMPRESS_PAIR
of that pair's own input words as they stood at the issue, and every other byte is as at the issue. The
command ends SUCCESS with PROGRESS = COUNT, or ABORTED with PROGRESS < COUNT after a write of the ABORT
word; and an ABORT written between two engine steps does end it so, at the pair it finds next, as one
written before the check step does at pair 0 (44_commands.md section 5, R199, and R191; 60_exceptions.md
section 3, R241; 20_memory.md R79). -/
def Obligations.InterruptedBatchKeepsExactlyItsFirstPairs : Prop :=
  ∀ s : State, s.rst = false → s.phase = .idle → s.desc.count ≠ 0#32 → Checked s →
    let issued := issue 0x00000001#32 s
    let abort : Event := .host (.write 0x00004#20 4 0x00000002#32)
    let abortedAt : State → Nat → Prop := fun t m =>
      t.phase = .idle ∧ t.done = true ∧ t.err = false ∧ t.aborted = true ∧ t.errcode = .none ∧
      t.errinfo = 0#32 ∧ t.progress.toNat = m ∧ t.desc = s.desc ∧ FirstPairs s t m
    (∀ (n : Nat) (t : State), (∀ level, .reset level ∉ s.bus.take n) →
      (∀ n' < n, ∀ u, runFor n' issued = .next u → u.busy = true) → runFor n issued = .next t →
      FirstPairs s t t.progress.toNat ∧ t.progress.toNat ≤ s.desc.count.toNat ∧ t.desc = s.desc ∧
      (t.busy = false → t.done = true ∧ t.err = false ∧ t.errcode = .none ∧ t.errinfo = 0#32 ∧
        (t.aborted = false → t.progress = s.desc.count) ∧
        (t.aborted = true → t.progress.toNat < s.desc.count.toNat ∧ abort ∈ s.bus.take n))) ∧
    (∀ (m : Nat) (rest : List Event), m < s.desc.count.toNat →
      s.bus = List.replicate (m + 1) .engine ++ abort :: .engine :: rest →
      ∃ t, runFor (m + 3) issued = .next t ∧ t.bus = rest ∧ abortedAt t m) ∧
    (∀ rest : List Event, s.bus = abort :: .engine :: .engine :: rest →
      ∃ t, runFor 3 issued = .next t ∧ t.bus = rest ∧ abortedAt t 0)
end

