-- ==== Sys2Proof/Laws/State.lean ====
section
/-! SUPPORT. For each operation on the whole state, what it leaves in each field: one lemma a field,
true by unfolding, so that no later proof unfolds a record update. -/

namespace Sys2Proof.Machine

/-! ## complete -/

@[simp] theorem complete_cfg (kind : Kind) (code : ErrCode) (info : Word) (s : State) :
    (complete kind code info s).cfg = s.cfg := rfl
@[simp] theorem complete_rst (kind : Kind) (code : ErrCode) (info : Word) (s : State) :
    (complete kind code info s).rst = s.rst := rfl
@[simp] theorem complete_lanes (kind : Kind) (code : ErrCode) (info : Word) (s : State) :
    (complete kind code info s).lanes = s.lanes := rfl
@[simp] theorem complete_rc (kind : Kind) (code : ErrCode) (info : Word) (s : State) :
    (complete kind code info s).rc = s.rc := rfl
@[simp] theorem complete_k (kind : Kind) (code : ErrCode) (info : Word) (s : State) :
    (complete kind code info s).k = s.k := rfl
@[simp] theorem complete_phase (kind : Kind) (code : ErrCode) (info : Word) (s : State) :
    (complete kind code info s).phase = .idle := rfl
@[simp] theorem complete_cmdl (kind : Kind) (code : ErrCode) (info : Word) (s : State) :
    (complete kind code info s).cmdl = s.cmdl := rfl
@[simp] theorem complete_abortReq (kind : Kind) (code : ErrCode) (info : Word) (s : State) :
    (complete kind code info s).abortReq = false := rfl
@[simp] theorem complete_done (kind : Kind) (code : ErrCode) (info : Word) (s : State) :
    (complete kind code info s).done = true := rfl
@[simp] theorem complete_err (kind : Kind) (code : ErrCode) (info : Word) (s : State) :
    (complete kind code info s).err = decide (kind = .error) := rfl
@[simp] theorem complete_aborted (kind : Kind) (code : ErrCode) (info : Word) (s : State) :
    (complete kind code info s).aborted = decide (kind = .aborted) := rfl
@[simp] theorem complete_bwerr (kind : Kind) (code : ErrCode) (info : Word) (s : State) :
    (complete kind code info s).bwerr = s.bwerr := rfl
@[simp] theorem complete_errcode (kind : Kind) (code : ErrCode) (info : Word) (s : State) :
    (complete kind code info s).errcode = code := rfl
@[simp] theorem complete_ie (kind : Kind) (code : ErrCode) (info : Word) (s : State) :
    (complete kind code info s).ie = s.ie := rfl
@[simp] theorem complete_desc (kind : Kind) (code : ErrCode) (info : Word) (s : State) :
    (complete kind code info s).desc = s.desc := rfl
@[simp] theorem complete_progress (kind : Kind) (code : ErrCode) (info : Word) (s : State) :
    (complete kind code info s).progress = s.progress := rfl
@[simp] theorem complete_errinfo (kind : Kind) (code : ErrCode) (info : Word) (s : State) :
    (complete kind code info s).errinfo = info := rfl
@[simp] theorem complete_mem (kind : Kind) (code : ErrCode) (info : Word) (s : State) :
    (complete kind code info s).mem = s.mem := rfl
@[simp] theorem complete_bus (kind : Kind) (code : ErrCode) (info : Word) (s : State) :
    (complete kind code info s).bus = s.bus := rfl
@[simp] theorem complete_answer (kind : Kind) (code : ErrCode) (info : Word) (s : State) :
    (complete kind code info s).answer = s.answer := rfl

/-! ## issue -/

@[simp] theorem issue_cfg (v : Word) (s : State) :
    (issue v s).cfg = s.cfg := rfl
@[simp] theorem issue_rst (v : Word) (s : State) :
    (issue v s).rst = s.rst := rfl
@[simp] theorem issue_lanes (v : Word) (s : State) :
    (issue v s).lanes = s.lanes := rfl
@[simp] theorem issue_rc (v : Word) (s : State) :
    (issue v s).rc = s.rc := rfl
@[simp] theorem issue_k (v : Word) (s : State) :
    (issue v s).k = 0#32 := rfl
@[simp] theorem issue_phase (v : Word) (s : State) :
    (issue v s).phase = .check := rfl
@[simp] theorem issue_cmdl (v : Word) (s : State) :
    (issue v s).cmdl = v := rfl
@[simp] theorem issue_abortReq (v : Word) (s : State) :
    (issue v s).abortReq = false := rfl
@[simp] theorem issue_done (v : Word) (s : State) :
    (issue v s).done = false := rfl
@[simp] theorem issue_err (v : Word) (s : State) :
    (issue v s).err = false := rfl
@[simp] theorem issue_aborted (v : Word) (s : State) :
    (issue v s).aborted = false := rfl
@[simp] theorem issue_bwerr (v : Word) (s : State) :
    (issue v s).bwerr = s.bwerr := rfl
@[simp] theorem issue_errcode (v : Word) (s : State) :
    (issue v s).errcode = .none := rfl
@[simp] theorem issue_ie (v : Word) (s : State) :
    (issue v s).ie = s.ie := rfl
@[simp] theorem issue_desc (v : Word) (s : State) :
    (issue v s).desc = s.desc := rfl
@[simp] theorem issue_progress (v : Word) (s : State) :
    (issue v s).progress = 0#32 := rfl
@[simp] theorem issue_errinfo (v : Word) (s : State) :
    (issue v s).errinfo = 0#32 := rfl
@[simp] theorem issue_mem (v : Word) (s : State) :
    (issue v s).mem = s.mem := rfl
@[simp] theorem issue_bus (v : Word) (s : State) :
    (issue v s).bus = s.bus := rfl
@[simp] theorem issue_answer (v : Word) (s : State) :
    (issue v s).answer = s.answer := rfl

/-! ## setBwerr -/

@[simp] theorem setBwerr_cfg (s : State) :
    (setBwerr s).cfg = s.cfg := rfl
@[simp] theorem setBwerr_rst (s : State) :
    (setBwerr s).rst = s.rst := rfl
@[simp] theorem setBwerr_lanes (s : State) :
    (setBwerr s).lanes = s.lanes := rfl
@[simp] theorem setBwerr_rc (s : State) :
    (setBwerr s).rc = s.rc := rfl
@[simp] theorem setBwerr_k (s : State) :
    (setBwerr s).k = s.k := rfl
@[simp] theorem setBwerr_phase (s : State) :
    (setBwerr s).phase = s.phase := rfl
@[simp] theorem setBwerr_cmdl (s : State) :
    (setBwerr s).cmdl = s.cmdl := rfl
@[simp] theorem setBwerr_abortReq (s : State) :
    (setBwerr s).abortReq = s.abortReq := rfl
@[simp] theorem setBwerr_done (s : State) :
    (setBwerr s).done = s.done := rfl
@[simp] theorem setBwerr_err (s : State) :
    (setBwerr s).err = s.err := rfl
@[simp] theorem setBwerr_aborted (s : State) :
    (setBwerr s).aborted = s.aborted := rfl
@[simp] theorem setBwerr_bwerr (s : State) :
    (setBwerr s).bwerr = true := rfl
@[simp] theorem setBwerr_errcode (s : State) :
    (setBwerr s).errcode = s.errcode := rfl
@[simp] theorem setBwerr_ie (s : State) :
    (setBwerr s).ie = s.ie := rfl
@[simp] theorem setBwerr_desc (s : State) :
    (setBwerr s).desc = s.desc := rfl
@[simp] theorem setBwerr_progress (s : State) :
    (setBwerr s).progress = s.progress := rfl
@[simp] theorem setBwerr_errinfo (s : State) :
    (setBwerr s).errinfo = s.errinfo := rfl
@[simp] theorem setBwerr_mem (s : State) :
    (setBwerr s).mem = s.mem := rfl
@[simp] theorem setBwerr_bus (s : State) :
    (setBwerr s).bus = s.bus := rfl
@[simp] theorem setBwerr_answer (s : State) :
    (setBwerr s).answer = s.answer := rfl

/-! ## answered -/

@[simp] theorem answered_cfg (a : Answer) (s : State) :
    (answered a s).cfg = s.cfg := rfl
@[simp] theorem answered_rst (a : Answer) (s : State) :
    (answered a s).rst = s.rst := rfl
@[simp] theorem answered_lanes (a : Answer) (s : State) :
    (answered a s).lanes = s.lanes := rfl
@[simp] theorem answered_rc (a : Answer) (s : State) :
    (answered a s).rc = s.rc := rfl
@[simp] theorem answered_k (a : Answer) (s : State) :
    (answered a s).k = s.k := rfl
@[simp] theorem answered_phase (a : Answer) (s : State) :
    (answered a s).phase = s.phase := rfl
@[simp] theorem answered_cmdl (a : Answer) (s : State) :
    (answered a s).cmdl = s.cmdl := rfl
@[simp] theorem answered_abortReq (a : Answer) (s : State) :
    (answered a s).abortReq = s.abortReq := rfl
@[simp] theorem answered_done (a : Answer) (s : State) :
    (answered a s).done = s.done := rfl
@[simp] theorem answered_err (a : Answer) (s : State) :
    (answered a s).err = s.err := rfl
@[simp] theorem answered_aborted (a : Answer) (s : State) :
    (answered a s).aborted = s.aborted := rfl
@[simp] theorem answered_bwerr (a : Answer) (s : State) :
    (answered a s).bwerr = s.bwerr := rfl
@[simp] theorem answered_errcode (a : Answer) (s : State) :
    (answered a s).errcode = s.errcode := rfl
@[simp] theorem answered_ie (a : Answer) (s : State) :
    (answered a s).ie = s.ie := rfl
@[simp] theorem answered_desc (a : Answer) (s : State) :
    (answered a s).desc = s.desc := rfl
@[simp] theorem answered_progress (a : Answer) (s : State) :
    (answered a s).progress = s.progress := rfl
@[simp] theorem answered_errinfo (a : Answer) (s : State) :
    (answered a s).errinfo = s.errinfo := rfl
@[simp] theorem answered_mem (a : Answer) (s : State) :
    (answered a s).mem = s.mem := rfl
@[simp] theorem answered_bus (a : Answer) (s : State) :
    (answered a s).bus = s.bus := rfl
@[simp] theorem answered_answer (a : Answer) (s : State) :
    (answered a s).answer = a := rfl

/-! ## popEvent -/

@[simp] theorem popEvent_cfg (s : State) :
    (popEvent s).cfg = s.cfg := rfl
@[simp] theorem popEvent_rst (s : State) :
    (popEvent s).rst = s.rst := rfl
@[simp] theorem popEvent_lanes (s : State) :
    (popEvent s).lanes = s.lanes := rfl
@[simp] theorem popEvent_rc (s : State) :
    (popEvent s).rc = s.rc := rfl
@[simp] theorem popEvent_k (s : State) :
    (popEvent s).k = s.k := rfl
@[simp] theorem popEvent_phase (s : State) :
    (popEvent s).phase = s.phase := rfl
@[simp] theorem popEvent_cmdl (s : State) :
    (popEvent s).cmdl = s.cmdl := rfl
@[simp] theorem popEvent_abortReq (s : State) :
    (popEvent s).abortReq = s.abortReq := rfl
@[simp] theorem popEvent_done (s : State) :
    (popEvent s).done = s.done := rfl
@[simp] theorem popEvent_err (s : State) :
    (popEvent s).err = s.err := rfl
@[simp] theorem popEvent_aborted (s : State) :
    (popEvent s).aborted = s.aborted := rfl
@[simp] theorem popEvent_bwerr (s : State) :
    (popEvent s).bwerr = s.bwerr := rfl
@[simp] theorem popEvent_errcode (s : State) :
    (popEvent s).errcode = s.errcode := rfl
@[simp] theorem popEvent_ie (s : State) :
    (popEvent s).ie = s.ie := rfl
@[simp] theorem popEvent_desc (s : State) :
    (popEvent s).desc = s.desc := rfl
@[simp] theorem popEvent_progress (s : State) :
    (popEvent s).progress = s.progress := rfl
@[simp] theorem popEvent_errinfo (s : State) :
    (popEvent s).errinfo = s.errinfo := rfl
@[simp] theorem popEvent_mem (s : State) :
    (popEvent s).mem = s.mem := rfl
@[simp] theorem popEvent_bus (s : State) :
    (popEvent s).bus = s.bus.tail := rfl
@[simp] theorem popEvent_answer (s : State) :
    (popEvent s).answer = s.answer := rfl

/-! ## setReset -/

@[simp] theorem setReset_cfg (level : Bool) (s : State) :
    (setReset level s).cfg = s.cfg := rfl
@[simp] theorem setReset_rst (level : Bool) (s : State) :
    (setReset level s).rst = level := rfl
@[simp] theorem setReset_lanes (level : Bool) (s : State) :
    (setReset level s).lanes = Vector.replicate 24 0 := rfl
@[simp] theorem setReset_rc (level : Bool) (s : State) :
    (setReset level s).rc = 0#6 := rfl
@[simp] theorem setReset_k (level : Bool) (s : State) :
    (setReset level s).k = 0#32 := rfl
@[simp] theorem setReset_phase (level : Bool) (s : State) :
    (setReset level s).phase = .idle := rfl
@[simp] theorem setReset_cmdl (level : Bool) (s : State) :
    (setReset level s).cmdl = 0#32 := rfl
@[simp] theorem setReset_abortReq (level : Bool) (s : State) :
    (setReset level s).abortReq = false := rfl
@[simp] theorem setReset_done (level : Bool) (s : State) :
    (setReset level s).done = false := rfl
@[simp] theorem setReset_err (level : Bool) (s : State) :
    (setReset level s).err = false := rfl
@[simp] theorem setReset_aborted (level : Bool) (s : State) :
    (setReset level s).aborted = false := rfl
@[simp] theorem setReset_bwerr (level : Bool) (s : State) :
    (setReset level s).bwerr = false := rfl
@[simp] theorem setReset_errcode (level : Bool) (s : State) :
    (setReset level s).errcode = .none := rfl
@[simp] theorem setReset_ie (level : Bool) (s : State) :
    (setReset level s).ie = false := rfl
@[simp] theorem setReset_desc (level : Bool) (s : State) :
    (setReset level s).desc = Descriptor.zero := rfl
@[simp] theorem setReset_progress (level : Bool) (s : State) :
    (setReset level s).progress = 0#32 := rfl
@[simp] theorem setReset_errinfo (level : Bool) (s : State) :
    (setReset level s).errinfo = 0#32 := rfl
@[simp] theorem setReset_mem (level : Bool) (s : State) :
    (setReset level s).mem = [] := rfl
@[simp] theorem setReset_bus (level : Bool) (s : State) :
    (setReset level s).bus = s.bus := rfl
@[simp] theorem setReset_answer (level : Bool) (s : State) :
    (setReset level s).answer = s.answer := rfl

/-! ## statusWrite -/

@[simp] theorem statusWrite_cfg (v : Word) (s : State) :
    (statusWrite v s).cfg = s.cfg := rfl
@[simp] theorem statusWrite_rst (v : Word) (s : State) :
    (statusWrite v s).rst = s.rst := rfl
@[simp] theorem statusWrite_lanes (v : Word) (s : State) :
    (statusWrite v s).lanes = s.lanes := rfl
@[simp] theorem statusWrite_rc (v : Word) (s : State) :
    (statusWrite v s).rc = s.rc := rfl
@[simp] theorem statusWrite_k (v : Word) (s : State) :
    (statusWrite v s).k = s.k := rfl
@[simp] theorem statusWrite_phase (v : Word) (s : State) :
    (statusWrite v s).phase = s.phase := rfl
@[simp] theorem statusWrite_cmdl (v : Word) (s : State) :
    (statusWrite v s).cmdl = s.cmdl := rfl
@[simp] theorem statusWrite_abortReq (v : Word) (s : State) :
    (statusWrite v s).abortReq = s.abortReq := rfl
@[simp] theorem statusWrite_done (v : Word) (s : State) :
    (statusWrite v s).done = (s.done && !v.getLsbD 1) := rfl
@[simp] theorem statusWrite_err (v : Word) (s : State) :
    (statusWrite v s).err = s.err := rfl
@[simp] theorem statusWrite_aborted (v : Word) (s : State) :
    (statusWrite v s).aborted = s.aborted := rfl
@[simp] theorem statusWrite_bwerr (v : Word) (s : State) :
    (statusWrite v s).bwerr = (s.bwerr && !v.getLsbD 4) := rfl
@[simp] theorem statusWrite_errcode (v : Word) (s : State) :
    (statusWrite v s).errcode = s.errcode := rfl
@[simp] theorem statusWrite_ie (v : Word) (s : State) :
    (statusWrite v s).ie = s.ie := rfl
@[simp] theorem statusWrite_desc (v : Word) (s : State) :
    (statusWrite v s).desc = s.desc := rfl
@[simp] theorem statusWrite_progress (v : Word) (s : State) :
    (statusWrite v s).progress = s.progress := rfl
@[simp] theorem statusWrite_errinfo (v : Word) (s : State) :
    (statusWrite v s).errinfo = s.errinfo := rfl
@[simp] theorem statusWrite_mem (v : Word) (s : State) :
    (statusWrite v s).mem = s.mem := rfl
@[simp] theorem statusWrite_bus (v : Word) (s : State) :
    (statusWrite v s).bus = s.bus := rfl
@[simp] theorem statusWrite_answer (v : Word) (s : State) :
    (statusWrite v s).answer = s.answer := rfl

/-! ## ctrlWrite -/

@[simp] theorem ctrlWrite_cfg (v : Word) (s : State) :
    (ctrlWrite v s).cfg = s.cfg := rfl
@[simp] theorem ctrlWrite_rst (v : Word) (s : State) :
    (ctrlWrite v s).rst = s.rst := rfl
@[simp] theorem ctrlWrite_lanes (v : Word) (s : State) :
    (ctrlWrite v s).lanes = s.lanes := rfl
@[simp] theorem ctrlWrite_rc (v : Word) (s : State) :
    (ctrlWrite v s).rc = s.rc := rfl
@[simp] theorem ctrlWrite_k (v : Word) (s : State) :
    (ctrlWrite v s).k = s.k := rfl
@[simp] theorem ctrlWrite_phase (v : Word) (s : State) :
    (ctrlWrite v s).phase = s.phase := rfl
@[simp] theorem ctrlWrite_cmdl (v : Word) (s : State) :
    (ctrlWrite v s).cmdl = s.cmdl := rfl
@[simp] theorem ctrlWrite_abortReq (v : Word) (s : State) :
    (ctrlWrite v s).abortReq = s.abortReq := rfl
@[simp] theorem ctrlWrite_done (v : Word) (s : State) :
    (ctrlWrite v s).done = s.done := rfl
@[simp] theorem ctrlWrite_err (v : Word) (s : State) :
    (ctrlWrite v s).err = s.err := rfl
@[simp] theorem ctrlWrite_aborted (v : Word) (s : State) :
    (ctrlWrite v s).aborted = s.aborted := rfl
@[simp] theorem ctrlWrite_bwerr (v : Word) (s : State) :
    (ctrlWrite v s).bwerr = s.bwerr := rfl
@[simp] theorem ctrlWrite_errcode (v : Word) (s : State) :
    (ctrlWrite v s).errcode = s.errcode := rfl
@[simp] theorem ctrlWrite_ie (v : Word) (s : State) :
    (ctrlWrite v s).ie = v.getLsbD 0 := rfl
@[simp] theorem ctrlWrite_desc (v : Word) (s : State) :
    (ctrlWrite v s).desc = s.desc := rfl
@[simp] theorem ctrlWrite_progress (v : Word) (s : State) :
    (ctrlWrite v s).progress = s.progress := rfl
@[simp] theorem ctrlWrite_errinfo (v : Word) (s : State) :
    (ctrlWrite v s).errinfo = s.errinfo := rfl
@[simp] theorem ctrlWrite_mem (v : Word) (s : State) :
    (ctrlWrite v s).mem = s.mem := rfl
@[simp] theorem ctrlWrite_bus (v : Word) (s : State) :
    (ctrlWrite v s).bus = s.bus := rfl
@[simp] theorem ctrlWrite_answer (v : Word) (s : State) :
    (ctrlWrite v s).answer = s.answer := rfl

/-! ## BUSY and IRQ -/

theorem busy_iff (s : State) : s.busy = true ↔ s.phase ≠ .idle := by
  unfold State.busy; cases s.phase <;> simp

theorem busy_eq_false_iff (s : State) : s.busy = false ↔ s.phase = .idle := by
  unfold State.busy; cases s.phase <;> simp

/-- BUSY depends on the phase alone. -/
theorem busy_congr {s t : State} (h : s.phase = t.phase) : s.busy = t.busy := by
  unfold State.busy; rw [h]

@[simp] theorem complete_busy (kind : Kind) (code : ErrCode) (info : Word) (s : State) :
    (complete kind code info s).busy = false := rfl

@[simp] theorem issue_busy (v : Word) (s : State) : (issue v s).busy = true := rfl

@[simp] theorem setBwerr_busy (s : State) : (setBwerr s).busy = s.busy := rfl

@[simp] theorem answered_busy (a : Answer) (s : State) : (answered a s).busy = s.busy := rfl

@[simp] theorem popEvent_busy (s : State) : (popEvent s).busy = s.busy := rfl

@[simp] theorem setReset_busy (level : Bool) (s : State) : (setReset level s).busy = false := rfl

@[simp] theorem statusWrite_busy (v : Word) (s : State) : (statusWrite v s).busy = s.busy := rfl

@[simp] theorem ctrlWrite_busy (v : Word) (s : State) : (ctrlWrite v s).busy = s.busy := rfl

/-- After an issue IRQ = 0 (44_commands.md R182). -/
@[simp] theorem issue_irq (v : Word) (s : State) : (issue v s).irq = false := by simp [State.irq]

/-- After a completion IRQ = CTRL.IE (44_commands.md R190). -/
@[simp] theorem complete_irq (kind : Kind) (code : ErrCode) (info : Word) (s : State) :
    (complete kind code info s).irq = s.ie := by simp [State.irq]

/-- With no input left there is nothing to take. -/
theorem popEvent_of_bus_nil {s : State} (h : s.bus = []) : popEvent s = s := by
  cases s; simp only at h; subst h; rfl

end Sys2Proof.Machine
end

