-- ==== Sys2Proof/Laws/Memory.lean ====
section
/-! SUPPORT. The laws of the data buffer's memory: a read after a write to the same place gives the
value written, a write leaves every other place alone, and every write keeps the canonical form. -/

namespace Sys2Proof.Machine

/-! ## Bytes -/

@[simp] theorem memory_read_nil (a : Nat) : Memory.read [] a = none := rfl

/-- What reading one byte gives after one byte has been written. -/
theorem memory_read_write (m : Memory) (a b : Nat) (v : Byte) :
    (m.write a v).read b = if a = b then some v else m.read b := by
  induction m with
  | nil => simp [Memory.write, Memory.read]
  | cons c rest ih =>
    obtain ⟨x, c⟩ := c
    simp only [Memory.write]
    split
    · next h => simp only [Memory.read]
    · next h =>
      split
      · next h2 => subst h2; simp only [Memory.read]; split <;> simp_all
      · next h2 =>
        simp only [Memory.read]
        split
        · next h3 => subst h3; simp [h2]
        · exact ih

@[simp] theorem memory_read_write_same (m : Memory) (a : Nat) (v : Byte) :
    (m.write a v).read a = some v := by simp [memory_read_write]

theorem memory_read_write_other (m : Memory) {a b : Nat} (v : Byte) (h : a ≠ b) :
    (m.write a v).read b = m.read b := by simp [memory_read_write, h]

/-- The cells after a write: the one written, or an old one. -/
theorem memory_mem_write {m : Memory} {a : Nat} {v : Byte} {c : Host.Cell}
    (h : c ∈ m.write a v) : c = (a, v) ∨ c ∈ m := by
  induction m with
  | nil => simpa [Memory.write] using h
  | cons d rest ih =>
    obtain ⟨x, d⟩ := d
    simp only [Memory.write] at h
    split at h
    · simpa using h
    · split at h
      · rcases List.mem_cons.1 h with h | h
        · exact .inl h
        · exact .inr (List.mem_cons_of_mem _ h)
      · rcases List.mem_cons.1 h with h | h
        · exact .inr (by simp [h])
        · exact (ih h).imp id (List.mem_cons_of_mem _)

/-- Writing a byte keeps the canonical form. -/
theorem memory_write_wf {m : Memory} (a : Nat) (v : Byte) (h : Memory.wf m) :
    Memory.wf (m.write a v) := by
  induction m with
  | nil => simp [Memory.write, Memory.wf]
  | cons d rest ih =>
    obtain ⟨x, d⟩ := d
    obtain ⟨h1, h2⟩ := List.pairwise_cons.1 h
    simp only [Memory.write]
    split
    · next hlt =>
      refine List.pairwise_cons.2 ⟨?_, h⟩
      intro c hc
      rcases List.mem_cons.1 hc with rfl | hc
      · exact hlt
      · exact hlt.trans (h1 c hc)
    · next hnlt =>
      split
      · next heq => subst heq; exact List.pairwise_cons.2 ⟨h1, h2⟩
      · next hne =>
        refine List.pairwise_cons.2 ⟨?_, ih h2⟩
        intro c hc
        rcases memory_mem_write hc with rfl | hc
        · show x < a; omega
        · exact h1 c hc

/-- A byte reads as something exactly when a cell of its offset is listed. -/
theorem memory_read_isSome {m : Memory} {a : Nat} :
    (m.read a).isSome = true ↔ ∃ b, (a, b) ∈ m := by
  induction m with
  | nil => simp
  | cons d rest ih =>
    obtain ⟨x, d⟩ := d
    simp only [Memory.read]
    split
    · next h => subst h; simp
    · next h =>
      rw [ih]
      constructor
      · rintro ⟨b, hb⟩; exact ⟨b, List.mem_cons_of_mem _ hb⟩
      · rintro ⟨b, hb⟩
        rcases List.mem_cons.1 hb with hb | hb
        · exact absurd (congrArg Prod.fst hb).symm h
        · exact ⟨b, hb⟩

/-! ## Words -/

/-- The four byte lanes of a word give it back (20_memory.md R65). -/
@[simp] theorem wordOfBytes_byteLanes (v : Word) :
    wordOfBytes (byteLane v 0) (byteLane v 1) (byteLane v 2) (byteLane v 3) = v := by
  apply BitVec.eq_of_getLsbD_eq
  intro i hi
  simp only [wordOfBytes, byteLane, BitVec.getLsbD_append, BitVec.getLsbD_extractLsb']
  by_cases h0 : i < 8
  · simp [h0]
  by_cases h1 : i - 8 < 8
  · simp [h0, h1]; congr 1; omega
  by_cases h2 : i - 8 - 8 < 8
  · simp [h0, h1, h2]; congr 1; omega
  · simp [h0, h1, h2]; rw [show 24 + (i - 8 - 8 - 8) = i by omega]; simp; intro _; omega

/-- What reading one byte gives after a word has been written. -/
theorem memory_read_writeWord (m : Memory) (w : Nat) (v : Word) (a : Nat) :
    (m.writeWord w v).read a =
      if wordOffset w ≤ a ∧ a < wordOffset w + 4 then some (byteLane v (a - wordOffset w))
      else m.read a := by
  simp only [Memory.writeWord, memory_read_write]
  by_cases h3 : wordOffset w + 3 = a
  · subst h3; simp
  by_cases h2 : wordOffset w + 2 = a
  · subst h2; simp
  by_cases h1 : wordOffset w + 1 = a
  · subst h1; simp
  by_cases h0 : wordOffset w = a
  · subst h0; simp
  · rw [if_neg h3, if_neg h2, if_neg h1, if_neg h0, if_neg (by omega)]

/-- A byte outside the word written reads as before. -/
theorem memory_read_writeWord_other (m : Memory) {w a : Nat} (v : Word)
    (h : a < wordOffset w ∨ wordOffset w + 4 ≤ a) : (m.writeWord w v).read a = m.read a := by
  rw [memory_read_writeWord, if_neg (by omega)]

@[simp] theorem memory_readWord_writeWord_same (m : Memory) (w : Nat) (v : Word) :
    (m.writeWord w v).readWord w = some v := by
  simp [Memory.readWord, memory_read_writeWord]

theorem memory_readWord_writeWord_other (m : Memory) {w x : Nat} (v : Word) (h : w ≠ x) :
    (m.writeWord w v).readWord x = m.readWord x := by
  have hx : ∀ j < 4, (m.writeWord w v).read (wordOffset x + j) = m.read (wordOffset x + j) := by
    intro j hj
    exact memory_read_writeWord_other m v (by simp only [wordOffset]; omega)
  have h0 := hx 0 (by decide)
  simp only [Nat.add_zero] at h0
  simp only [Memory.readWord, h0, hx 1 (by decide), hx 2 (by decide), hx 3 (by decide)]

/-- Two memories with the same bytes have the same words. -/
theorem memory_readWord_congr {m m' : Memory} {w : Nat}
    (h : ∀ j < 4, m.read (wordOffset w + j) = m'.read (wordOffset w + j)) :
    m.readWord w = m'.readWord w := by
  have h0 := h 0 (by decide)
  simp only [Nat.add_zero] at h0
  simp only [Memory.readWord, h0, h 1 (by decide), h 2 (by decide), h 3 (by decide)]

/-- Nothing is written in an empty memory. -/
@[simp] theorem memory_readWord_nil (w : Nat) : Memory.readWord [] w = none := rfl

/-- Writing a word keeps the canonical form. -/
theorem memory_writeWord_wf {m : Memory} (w : Nat) (v : Word) (h : Memory.wf m) :
    Memory.wf (m.writeWord w v) :=
  memory_write_wf _ _ (memory_write_wf _ _ (memory_write_wf _ _ (memory_write_wf _ _ h)))

/-- The cells after a word has been written: one of its four bytes, or an old one. -/
theorem memory_mem_writeWord {m : Memory} {w : Nat} {v : Word} {c : Host.Cell}
    (h : c ∈ m.writeWord w v) : (∃ j < 4, c.1 = wordOffset w + j) ∨ c ∈ m := by
  rcases memory_mem_write h with rfl | h
  · exact .inl ⟨3, by decide, rfl⟩
  rcases memory_mem_write h with rfl | h
  · exact .inl ⟨2, by decide, rfl⟩
  rcases memory_mem_write h with rfl | h
  · exact .inl ⟨1, by decide, rfl⟩
  rcases memory_mem_write h with rfl | h
  · exact .inl ⟨0, by decide, rfl⟩
  · exact .inr h

/-! ## The buffer's invariant -/

/-- An empty buffer meets the invariant. -/
theorem memoryInv_nil (memWords : Nat) : MemoryInv memWords [] where
  sorted := List.Pairwise.nil
  window := by simp
  whole := by simp

/-- Writing a word of the buffer keeps the invariant. -/
theorem memoryInv_writeWord {memWords : Nat} {m : Memory} {w : Nat} (v : Word)
    (h : MemoryInv memWords m) (hw : w < memWords) : MemoryInv memWords (m.writeWord w v) where
  sorted := memory_writeWord_wf w v h.sorted
  window := by
    intro c hc
    rcases memory_mem_writeWord hc with ⟨j, hj, hc⟩ | hc
    · simp only [wordOffset] at hc; omega
    · exact h.window c hc
  whole := by
    intro c hc j hj
    rw [memory_read_writeWord]
    split
    · rfl
    · next hout =>
      rcases memory_mem_writeWord hc with ⟨i, hi, hc⟩ | hc
      · simp only [wordOffset] at hc hout; omega
      · exact h.whole c hc j hj

end Sys2Proof.Machine
end

