-- ==== Sys2Proof/Laws/Decode.lean ====
section
/-! SUPPORT. The decoder and the encoder on words and on the four bytes of a word. -/

namespace Sys2Proof

/-- The three words of the opcode map, and what every other word decodes to (30_encoding.md R92, R93). -/
theorem decode_cases (w : Word) :
    (w = 0x00000000#32 ∧ decode w = .ok .nop) ∨
    (w = 0x00000001#32 ∧ decode w = .ok .compress) ∨
    (w = 0x00000002#32 ∧ decode w = .ok .abort) ∨
    (w ≠ 0x00000000#32 ∧ w ≠ 0x00000001#32 ∧ w ≠ 0x00000002#32 ∧
      decode w = if rsvField w = 0 then .error .opcodeNotAssigned else .error .reservedBits) := by
  have hmask : ∀ v : Word, v &&& 0xFFFFFFFF#32 = v := by
    intro v
    exact BitVec.and_allOnes
  by_cases h0 : w = 0x00000000#32
  · subst h0; exact .inl ⟨rfl, by decide⟩
  by_cases h1 : w = 0x00000001#32
  · subst h1; exact .inr (.inl ⟨rfl, by decide⟩)
  by_cases h2 : w = 0x00000002#32
  · subst h2; exact .inr (.inr (.inl ⟨rfl, by decide⟩))
  · refine .inr (.inr (.inr ⟨h0, h1, h2, ?_⟩))
    have hfind : opcodeRows.find? (fun r => w &&& r.mask == r.value) = none := by
      simp [opcodeRows, hmask, h0, h1, h2, Ne.symm]
    rw [decode, hfind]

/-- RSV is 0 exactly when the word is below 2^8 (30_encoding.md R90). -/
theorem rsvField_zero_iff (w : Word) : rsvField w = 0 ↔ w.toNat < 0x100 := by
  unfold rsvField
  constructor
  · intro h
    have := congrArg BitVec.toNat h
    simp [BitVec.extractLsb'_toNat, Nat.shiftRight_eq_div_pow] at this
    omega
  · intro h
    apply BitVec.eq_of_toNat_eq
    simp [BitVec.extractLsb'_toNat, Nat.shiftRight_eq_div_pow]
    omega

/-- A word decodes to a command exactly when it is that command's word. -/
theorem decode_eq_ok_iff (w : Word) (i : Instr) : decode w = .ok i ↔ w = encode i := by
  have hn : encode .nop = 0x00000000#32 := by decide
  have hc : encode .compress = 0x00000001#32 := by decide
  have ha : encode .abort = 0x00000002#32 := by decide
  rcases decode_cases w with ⟨rfl, h⟩ | ⟨rfl, h⟩ | ⟨rfl, h⟩ | ⟨h0, h1, h2, h⟩
  all_goals rw [h]
  · cases i <;> simp [hn, hc, ha]
  · cases i <;> simp [hn, hc, ha]
  · cases i <;> simp [hn, hc, ha]
  · cases i <;> simp [hn, hc, ha, h0, h1, h2] <;> split <;> simp

/-- A word decodes to ABORT exactly when it is 0x00000002 (44_commands.md R181). -/
theorem decode_abort_iff (w : Word) : decode w = .ok .abort ↔ w = 0x00000002#32 := by
  rw [decode_eq_ok_iff]; rfl

/-- The four bytes of a word make the word. -/
theorem wordOfBytes_injective {a0 a1 a2 a3 b0 b1 b2 b3 : Byte}
    (h : wordOfBytes a0 a1 a2 a3 = wordOfBytes b0 b1 b2 b3) :
    a0 = b0 ∧ a1 = b1 ∧ a2 = b2 ∧ a3 = b3 := by
  have hb : ∀ i, (wordOfBytes a0 a1 a2 a3).getLsbD i = (wordOfBytes b0 b1 b2 b3).getLsbD i := by
    intro i; rw [h]
  simp only [wordOfBytes, BitVec.getLsbD_append] at hb
  refine ⟨?_, ?_, ?_, ?_⟩ <;> apply BitVec.eq_of_getLsbD_eq <;> intro i hi
  · simpa [hi] using hb i
  · have := hb (8 + i)
    simpa [hi] using this
  · have := hb (8 + (8 + i))
    simpa [hi, show ¬(8 + (8 + i) < 8) by omega] using this
  · have := hb (8 + (8 + (8 + i)))
    simpa [hi, show ¬(8 + (8 + (8 + i)) < 8) by omega] using this

end Sys2Proof
end

