-- ==== Sys2Proof/Laws/PerInstr.lean ====
section
/-! SUPPORT. A statement about every command as syntax, one lemma a constructor: the command is well
formed, RSV of its word is 0, its OPC is the opcode map's (30_encoding.md R90, R92), and its word and
its bytes decode back to it. -/

namespace Sys2Proof.Laws.RoundTrip

/-- What holds of a command's encoding. -/
def Statement (i : Instr) : Prop :=
  i.wellFormed = true ∧ rsvField (encode i) = 0 ∧ opcField (encode i) = opcodeOf i ∧
    decode (encode i) = .ok i ∧ decodeBytes (encodeBytes i) = .ok (i, [])

theorem nop : Statement .nop := by unfold Statement; decide

theorem compress : Statement .compress := by unfold Statement; decide

theorem abort : Statement .abort := by unfold Statement; decide

end Sys2Proof.Laws.RoundTrip
end

