-- ==== Sys2Proof/Laws/Field.lean ====
section
/-! SUPPORT. The field arithmetic on values, and field elements in 32-bit words
(41_field_arithmetic.md). -/

namespace Sys2Proof.Machine

@[simp] theorem fred_val (u : Nat) : (fred u).val = u % P := rfl

/-- Reduction leaves a field element unchanged. -/
@[simp] theorem fred_of_fe (x : Fe) : fred x.val = x :=
  Fin.ext (Nat.mod_eq_of_lt x.isLt)

theorem fadd_val (a b : Fe) : (fadd a b).val = (a.val + b.val) % P := rfl

theorem fmul_val (a b : Fe) : (fmul a b).val = a.val * b.val % P := rfl

/-- The S-box chain is the fifth power. -/
theorem sbox_val (x : Fe) : (sbox x).val = x.val ^ 5 % P := by
  have h2 : (fmul x x).val ≡ x.val * x.val [MOD P] := Nat.mod_modEq _ _
  have h4 : (fmul (fmul x x) (fmul x x)).val ≡ x.val * x.val * (x.val * x.val) [MOD P] :=
    (Nat.mod_modEq _ _).trans (h2.mul h2)
  have h5 : (sbox x).val ≡ x.val * x.val * (x.val * x.val) * x.val [MOD P] :=
    (Nat.mod_modEq _ _).trans (h4.mul_right _)
  rw [show x.val ^ 5 = x.val * x.val * (x.val * x.val) * x.val by ring]
  exact (Nat.mod_eq_of_lt (sbox x).isLt).symm.trans h5

/-- The word of a field element holds its value. -/
@[simp] theorem feWord_toNat (x : Fe) : (feWord x).toNat = x.val := by
  have h : x.val < 2147483647 := x.isLt
  simp only [feWord, BitVec.toNat_ofNat]
  omega

/-- The word of a field element is a field-element word. -/
@[simp] theorem isFieldWord_feWord (x : Fe) : isFieldWord (feWord x) = true := by
  simp [isFieldWord]

theorem isFieldWord_iff (v : Word) : isFieldWord v = true ↔ v.toNat < P := by
  simp [isFieldWord]

end Sys2Proof.Machine
end

