-- ==== Sys2Proof/Laws/Operands.lean ====
section
/-! SUPPORT. What the engine's buffer primitives and the operands of COMPRESS can do, each said once
(20_memory.md R73, R74; 44_commands.md R186 to R189). -/

namespace Sys2Proof.Machine

/-! ## BufRead and BufWrite -/

/-- BufRead succeeds exactly on a written word of the buffer. -/
theorem bufRead_ok_iff (s : State) (w : Nat) (v : Word) :
    bufRead s w = .ok v ↔ w < s.cfg.memWords ∧ s.mem.readWord w = some v := by
  unfold bufRead
  split
  · next h => cases hr : s.mem.readWord w <;> simp [h]
  · next h => simp [h]

/-- An unwritten word of the buffer is a fault of the engine step. -/
theorem bufRead_unwritten {s : State} {w : Nat} (h : w < s.cfg.memWords)
    (hr : s.mem.readWord w = none) : bufRead s w = .error (.engineReadUnwritten w) := by
  simp [bufRead, h, hr]

/-- BufRead reads nothing but the buffer. -/
theorem bufRead_congr {s t : State} (hc : s.cfg = t.cfg) (hm : s.mem = t.mem) (w : Nat) :
    bufRead s w = bufRead t w := by
  simp [bufRead, hc, hm]

/-- The memory after a list of word writes. -/
def writeWords (m : Memory) (ws : List (Nat × Word)) : Memory :=
  ws.foldl (fun m p => m.writeWord p.1 p.2) m

@[simp] theorem writeWords_nil (m : Memory) : writeWords m [] = m := rfl

@[simp] theorem writeWords_cons (m : Memory) (p : Nat × Word) (ws : List (Nat × Word)) :
    writeWords m (p :: ws) = writeWords (m.writeWord p.1 p.2) ws := rfl

/-- A list of BufWrites within the buffer changes the buffer and nothing else. -/
theorem bufWriteAll_ok {ws : List (Nat × Word)} {s : State}
    (h : ∀ p ∈ ws, p.1 < s.cfg.memWords) :
    bufWriteAll ws s = .ok { s with mem := writeWords s.mem ws } := by
  induction ws generalizing s with
  | nil => rfl
  | cons p ws ih =>
    obtain ⟨w, v⟩ := p
    have hw : w < s.cfg.memWords := h (w, v) (by simp)
    simp only [bufWriteAll, bufWrite, hw, if_true, writeWords_cons]
    exact ih fun p hp => h p (List.mem_cons_of_mem _ hp)

/-- A list of BufWrites that succeeds was within the buffer, and is what `bufWriteAll_ok` says. -/
theorem bufWriteAll_cases {ws : List (Nat × Word)} {s t : State} (h : bufWriteAll ws s = .ok t) :
    (∀ p ∈ ws, p.1 < s.cfg.memWords) ∧ t = { s with mem := writeWords s.mem ws } := by
  have hall : ∀ p ∈ ws, p.1 < s.cfg.memWords := by
    induction ws generalizing s with
    | nil => simp
    | cons p ws ih =>
      obtain ⟨w, v⟩ := p
      simp only [bufWriteAll, bufWrite] at h
      by_cases hw : w < s.cfg.memWords
      · simp only [hw, if_true] at h
        intro p hp
        rcases List.mem_cons.1 hp with rfl | hp
        · exact hw
        · exact ih h p hp
      · simp [hw] at h
  refine ⟨hall, ?_⟩
  rw [bufWriteAll_ok hall] at h
  exact (Except.ok.inj h).symm

/-- A byte outside every word written reads as before. -/
theorem writeWords_read_other {ws : List (Nat × Word)} {m : Memory} {a : Nat}
    (h : ∀ p ∈ ws, a < wordOffset p.1 ∨ wordOffset p.1 + 4 ≤ a) :
    (writeWords m ws).read a = m.read a := by
  induction ws generalizing m with
  | nil => rfl
  | cons p ws ih =>
    rw [writeWords_cons, ih fun q hq => h q (List.mem_cons_of_mem _ hq)]
    exact memory_read_writeWord_other m _ (h p (by simp))

/-- A word that is not among the words written reads as before. -/
theorem writeWords_readWord_other {ws : List (Nat × Word)} {m : Memory} {w : Nat}
    (h : ∀ p ∈ ws, p.1 ≠ w) : (writeWords m ws).readWord w = m.readWord w := by
  induction ws generalizing m with
  | nil => rfl
  | cons p ws ih =>
    rw [writeWords_cons, ih fun q hq => h q (List.mem_cons_of_mem _ hq)]
    exact memory_readWord_writeWord_other m _ (h p (by simp))

/-- Each word written once holds what was written. -/
theorem writeWords_readWord_same {ws : List (Nat × Word)} {m : Memory} {w : Nat} {v : Word}
    (hnd : (ws.map Prod.fst).Nodup) (h : (w, v) ∈ ws) : (writeWords m ws).readWord w = some v := by
  induction ws generalizing m with
  | nil => simp at h
  | cons p ws ih =>
    rw [List.map_cons, List.nodup_cons] at hnd
    rw [writeWords_cons]
    rcases List.mem_cons.1 h with rfl | h
    · rw [writeWords_readWord_other, memory_readWord_writeWord_same]
      intro q hq he
      exact hnd.1 (List.mem_map.2 ⟨q, hq, he⟩)
    · exact ih hnd.2 h

/-- Word writes within the buffer keep its invariant. -/
theorem memoryInv_writeWords {memWords : Nat} {ws : List (Nat × Word)} {m : Memory}
    (hm : MemoryInv memWords m) (h : ∀ p ∈ ws, p.1 < memWords) :
    MemoryInv memWords (writeWords m ws) := by
  induction ws generalizing m with
  | nil => exact hm
  | cons p ws ih =>
    rw [writeWords_cons]
    exact ih (memoryInv_writeWord _ hm (h p (by simp))) fun q hq => h q (List.mem_cons_of_mem _ hq)

/-! ## Field elements as operands -/

theorem holdsField_iff (m : Memory) (w : Nat) :
    holdsField m w = true ↔ ∃ v, m.readWord w = some v ∧ v.toNat < P := by
  unfold holdsField
  cases m.readWord w <;> simp [isFieldWord_iff]

/-- A word can be an operand exactly when it is in the buffer, written and below P. -/
theorem operandFault_none_iff (s : State) (w : Nat) :
    operandFault s w = none ↔ w < s.cfg.memWords ∧ holdsField s.mem w = true := by
  unfold operandFault
  rcases hr : bufRead s w with f | v
  · simp only [reduceCtorEq, false_iff, not_and]
    intro hw hf
    obtain ⟨v, hv, -⟩ := (holdsField_iff _ _).1 hf
    rw [(bufRead_ok_iff s w v).2 ⟨hw, hv⟩] at hr
    cases hr
  · obtain ⟨hw, hv⟩ := (bufRead_ok_iff s w v).1 hr
    by_cases hf : isFieldWord v = true <;> simp [hf, hw, holdsField, hv]

/-- The operand in a word that holds a field element's word is that field element. -/
theorem operandValue_of_feWord {s : State} {w : Nat} {x : Fe} (hw : w < s.cfg.memWords)
    (h : s.mem.readWord w = some (feWord x)) : operandValue s w = x := by
  simp [operandValue, (bufRead_ok_iff s w _).2 ⟨hw, h⟩]

/-- The operand in a word reads nothing but that word. -/
theorem operandValue_congr {s t : State} {w : Nat} (hc : s.cfg = t.cfg)
    (hm : s.mem.readWord w = t.mem.readWord w) : operandValue s w = operandValue t w := by
  simp [operandValue, bufRead, hc, hm]

/-- A digest read from eight words that hold its lanes. -/
theorem operandDigest_eq {s : State} {f : Nat → Nat} {d : Digest}
    (h : ∀ j : Fin 8, operandValue s (f j) = d[j]) : operandDigest s f = d :=
  Vector.ext fun i hi => by
    simp only [operandDigest, Vector.getElem_ofFn]
    exact h ⟨i, hi⟩

/-- A digest's lanes are the operands in its eight words. -/
theorem operandDigest_congr {s t : State} {f : Nat → Nat}
    (h : ∀ j < 8, operandValue s (f j) = operandValue t (f j)) :
    operandDigest s f = operandDigest t f := by
  unfold operandDigest
  congr 1
  funext j
  exact h j.val j.isLt

/-! ## Ranges and the three checks -/

/-- The bounds check reports nothing exactly when every range ends within the buffer. -/
theorem boundsError_none_iff (memWords : Nat) (d : Descriptor) :
    boundsError memWords d = none ↔ BoundsPass memWords d := by
  unfold boundsError BoundsPass
  split <;> [skip; split <;> [skip; split]] <;> simp <;> omega

/-- What the bounds check reports is 1, 2 or 3 (60_exceptions.md R231). -/
theorem boundsError_some {memWords : Nat} {d : Descriptor} {id : Word}
    (h : boundsError memWords d = some id) : id.toNat ∈ [1, 2, 3] := by
  unfold boundsError at h
  split at h <;> [skip; split at h <;> [skip; split at h]] <;> simp at h <;> subst h <;> decide

theorem intervalsMeet_iff (a b c e : Nat) : intervalsMeet a b c e = true ↔ a < e ∧ c < b := by
  simp [intervalsMeet]

/-- The overlap check reports nothing exactly when no two of the ranges it compares meet. -/
theorem overlapError_none_iff (d : Descriptor) : overlapError d = none ↔ OverlapPass d := by
  unfold overlapError OverlapPass intervalsMeet
  split <;> [skip; split <;> [skip; split]] <;> (simp_all; try omega)

/-- What the overlap check reports is 1, 2 or 3 (60_exceptions.md R231). -/
theorem overlapError_some {d : Descriptor} {id : Word}
    (h : overlapError d = some id) : id.toNat ∈ [1, 2, 3] := by
  unfold overlapError at h
  split at h <;> [skip; split at h <;> [skip; split at h]] <;> simp at h <;> subst h <;> decide

/-- A word of pair k < n of a range lies in the range (44_commands.md R186). -/
theorem effIndex_lt_rangeEnd (base stride count : Word) {k j : Nat} (hk : k < count.toNat)
    (hj : j < 8) :
    base.toNat ≤ effIndex base stride k j ∧
      effIndex base stride k j < rangeEnd base stride count := by
  have h : k * stride.toNat ≤ (count.toNat - 1) * stride.toNat :=
    Nat.mul_le_mul_right _ (by omega)
  unfold effIndex rangeEnd
  omega

/-- The words the range check scans are the input words of the pairs. -/
theorem mem_scanOrder (d : Descriptor) (w : Nat) :
    w ∈ scanOrder d ↔ ∃ k < d.count.toNat, ∃ j < 8, w = in1Index d k j ∨ w = in2Index d k j := by
  simp only [scanOrder, pairScan, List.mem_flatMap, List.mem_range, List.mem_append, List.mem_map]
  constructor
  · rintro ⟨k, hk, ⟨j, hj, rfl⟩ | ⟨j, hj, rfl⟩⟩
    · exact ⟨k, hk, j, hj, .inl rfl⟩
    · exact ⟨k, hk, j, hj, .inr rfl⟩
  · rintro ⟨k, hk, j, hj, rfl | rfl⟩
    · exact ⟨k, hk, .inl ⟨j, hj, rfl⟩⟩
    · exact ⟨k, hk, .inr ⟨j, hj, rfl⟩⟩

theorem range_split {n k : Nat} (h : k < n) :
    ∃ post, List.range n = List.range k ++ k :: post := by
  obtain ⟨m, rfl⟩ : ∃ m, n = k + (m + 1) := ⟨n - k - 1, by omega⟩
  exact ⟨_, by rw [List.range_add, List.range_succ_eq_map, List.map_cons, Nat.add_zero]⟩

/-- The scan up to in1[j] of pair k: all pairs before it, then in1's words before j. -/
theorem scanOrder_split_in1 {d : Descriptor} {k j : Nat} (hk : k < d.count.toNat) (hj : j < 8) :
    ∃ post, scanOrder d =
      ((List.range k).flatMap (pairScan d) ++ (List.range j).map (in1Index d k)) ++
        in1Index d k j :: post := by
  obtain ⟨ks, hks⟩ := range_split hk
  obtain ⟨js, hjs⟩ := range_split hj
  exact ⟨_, by
    rw [scanOrder, hks, List.flatMap_append, List.flatMap_cons, pairScan, hjs]
    simp only [List.map_append, List.map_cons, List.append_assoc, List.cons_append]
    rfl⟩

/-- The scan up to in2[j] of pair k: all pairs before it, all of in1, then in2's words before j. -/
theorem scanOrder_split_in2 {d : Descriptor} {k j : Nat} (hk : k < d.count.toNat) (hj : j < 8) :
    ∃ post, scanOrder d =
      ((List.range k).flatMap (pairScan d) ++ (List.range 8).map (in1Index d k) ++
        (List.range j).map (in2Index d k)) ++ in2Index d k j :: post := by
  obtain ⟨ks, hks⟩ := range_split hk
  obtain ⟨js, hjs⟩ := range_split hj
  refine ⟨js.map (in2Index d k) ++ ks.flatMap (pairScan d), ?_⟩
  have hp : pairScan d k = (List.range 8).map (in1Index d k) ++
      ((List.range j).map (in2Index d k) ++ in2Index d k j :: js.map (in2Index d k)) := by
    rw [pairScan, ← List.map_cons, ← List.map_append, ← hjs]
  rw [scanOrder, hks, List.flatMap_append, List.flatMap_cons, hp]
  simp only [List.append_assoc, List.cons_append]

/-- The output words of two pairs of a batch that passes the overlap check are different (R187). -/
theorem outIndex_injective {d : Descriptor} (ho : OverlapPass d) {k k' j j' : Nat}
    (hk : k < d.count.toNat) (hk' : k' < d.count.toNat) (hj : j < 8) (hj' : j' < 8)
    (h : outIndex d k j = outIndex d k' j') : k = k' ∧ j = j' := by
  unfold outIndex effIndex at h
  have hkk : k = k' := by
    rcases ho.1 with h1 | h8
    · omega
    · rcases Nat.lt_trichotomy k k' with hlt | heq | hgt
      · have := Nat.mul_le_mul_right d.strided.toNat (show k + 1 ≤ k' from hlt)
        rw [Nat.add_mul] at this; omega
      · exact heq
      · have := Nat.mul_le_mul_right d.strided.toNat (show k' + 1 ≤ k from hgt)
        rw [Nat.add_mul] at this; omega
  subst hkk
  exact ⟨rfl, by omega⟩

/-- The words a pair step reads are the input words of its pair. -/
theorem mem_pairReads (d : Descriptor) (k w : Nat) :
    w ∈ pairReads d k ↔ ∃ j < 8, w = in1Index d k j ∨ w = in2Index d k j := by
  simp [pairReads, List.mem_flatMap]

/-- The words a pair step writes are the output words of its pair. -/
theorem mem_digestWrites {d : Descriptor} {k : Nat} {out : Digest} {p : Nat × Word}
    (h : p ∈ digestWrites d k out) : ∃ j < 8, p.1 = outIndex d k j := by
  obtain ⟨j, -, rfl⟩ := List.mem_map.1 h
  exact ⟨j.val, j.isLt, rfl⟩

/-- Lane j of the digest is written to output word j. -/
theorem digestWrites_mem (d : Descriptor) (k : Nat) (out : Digest) (j : Fin 8) :
    (outIndex d k j, feWord out[j]) ∈ digestWrites d k out :=
  List.mem_map.2 ⟨j, List.mem_finRange j, rfl⟩

/-- The eight words a pair step writes are different. -/
theorem digestWrites_nodup (d : Descriptor) (k : Nat) (out : Digest) :
    ((digestWrites d k out).map Prod.fst).Nodup := by
  rw [digestWrites, List.map_map]
  refine (List.nodup_finRange 8).map ?_
  intro i j h
  simp only [Function.comp_apply, outIndex, effIndex] at h
  exact Fin.ext (by omega)

end Sys2Proof.Machine
end

