-- ==== Sys2Proof/Laws/Commands.lean ====
section
/-! SUPPORT. What each step of a command can do, said once, with its guards: one lemma from the
outcome to the case, and one from each case to the outcome (44_commands.md R184 to R191). -/

namespace Sys2Proof.Machine

/-! ## The range check (R188) -/

/-- A scan over words that are all written field elements of the buffer enters the run phase. -/
theorem rangeCheck_pass {ws : List Nat} {s : State}
    (h : ∀ w ∈ ws, w < s.cfg.memWords ∧ holdsField s.mem w = true) :
    rangeCheck ws s = .next { s with phase := .run, k := 0#32 } := by
  induction ws with
  | nil => rfl
  | cons w ws ih =>
    obtain ⟨hw, hf⟩ := h w (by simp)
    obtain ⟨v, hv, hp⟩ := (holdsField_iff _ _).1 hf
    rw [rangeCheck, (bufRead_ok_iff s w v).2 ⟨hw, hv⟩]
    simp only [(isFieldWord_iff v).2 hp, if_true]
    exact ih fun x hx => h x (List.mem_cons_of_mem _ hx)

/-- Words that pass are scanned over. -/
theorem rangeCheck_append {pre post : List Nat} {s : State}
    (h : ∀ w ∈ pre, w < s.cfg.memWords ∧ holdsField s.mem w = true) :
    rangeCheck (pre ++ post) s = rangeCheck post s := by
  induction pre with
  | nil => rfl
  | cons w ws ih =>
    obtain ⟨hw, hf⟩ := h w (by simp)
    obtain ⟨v, hv, hp⟩ := (holdsField_iff _ _).1 hf
    rw [List.cons_append, rangeCheck, (bufRead_ok_iff s w v).2 ⟨hw, hv⟩]
    simp only [(isFieldWord_iff v).2 hp, if_true]
    exact ih fun x hx => h x (List.mem_cons_of_mem _ hx)

/-- A word ≥ P ends the command with OUT_OF_RANGE and its index. -/
theorem rangeCheck_outOfRange {w : Nat} {post : List Nat} {s : State} {v : Word}
    (hw : w < s.cfg.memWords) (hv : s.mem.readWord w = some v) (hp : P ≤ v.toNat) :
    rangeCheck (w :: post) s = .next (complete .error .outOfRange (BitVec.ofNat 32 w) s) := by
  have hf : ¬ isFieldWord v = true := by rw [isFieldWord_iff]; exact Nat.not_lt.2 hp
  rw [rangeCheck, (bufRead_ok_iff s w v).2 ⟨hw, hv⟩]
  simp only [hf]
  rfl

/-- An unwritten word is a fault of the engine step (20_memory.md R73). -/
theorem rangeCheck_unwritten {w : Nat} {post : List Nat} {s : State}
    (hw : w < s.cfg.memWords) (hv : s.mem.readWord w = none) :
    rangeCheck (w :: post) s = .fault (.engineReadUnwritten w) := by
  rw [rangeCheck, bufRead_unwritten hw hv]

/-- Everything a range check that goes on can do. -/
theorem rangeCheck_cases {ws : List Nat} {s t : State} (h : rangeCheck ws s = .next t) :
    (t = { s with phase := .run, k := 0#32 } ∧
      ∀ w ∈ ws, w < s.cfg.memWords ∧ holdsField s.mem w = true) ∨
    (∃ w ∈ ws, ∃ v, w < s.cfg.memWords ∧ s.mem.readWord w = some v ∧ P ≤ v.toNat ∧
      t = complete .error .outOfRange (BitVec.ofNat 32 w) s) := by
  induction ws with
  | nil => exact .inl ⟨(Host.Outcome.next.inj h).symm, by simp⟩
  | cons w ws ih =>
    rw [rangeCheck] at h
    rcases hr : bufRead s w with f | v
    · rw [hr] at h; cases h
    · rw [hr] at h
      obtain ⟨hw, hv⟩ := (bufRead_ok_iff s w v).1 hr
      by_cases hf : isFieldWord v = true
      · simp only [hf, if_true] at h
        rcases ih h with ⟨rfl, hall⟩ | ⟨x, hx, rest⟩
        · refine .inl ⟨rfl, ?_⟩
          intro x hx
          rcases List.mem_cons.1 hx with rfl | hx
          · exact ⟨hw, (holdsField_iff _ _).2 ⟨v, hv, (isFieldWord_iff v).1 hf⟩⟩
          · exact hall x hx
        · exact .inr ⟨x, List.mem_cons_of_mem _ hx, rest⟩
      · simp only [hf] at h
        refine .inr ⟨w, by simp, v, hw, hv, ?_, (Host.Outcome.next.inj h).symm⟩
        rw [isFieldWord_iff] at hf
        exact Nat.not_lt.1 hf

/-- A scan of words of the buffer goes on when every word it comes to, past field elements only, is
written. -/
theorem rangeCheck_goes {ws : List Nat} {s : State} (hlt : ∀ w ∈ ws, w < s.cfg.memWords)
    (h : ∀ pre w post, ws = pre ++ w :: post → (∀ u ∈ pre, holdsField s.mem u = true) →
      s.mem.readWord w ≠ none) :
    ∃ t, rangeCheck ws s = .next t := by
  induction ws with
  | nil => exact ⟨_, rfl⟩
  | cons w ws ih =>
    obtain ⟨v, hv⟩ := Option.ne_none_iff_exists'.1 (h [] w ws rfl (by simp))
    have hw := hlt w (List.mem_cons_self ..)
    rw [rangeCheck, (bufRead_ok_iff s w v).2 ⟨hw, hv⟩]
    by_cases hf : isFieldWord v = true
    · simp only [hf, if_true]
      have hgood : holdsField s.mem w = true := by simpa [holdsField, hv] using hf
      refine ih (fun x hx => hlt x (List.mem_cons_of_mem _ hx)) fun pre x post hws hpre => ?_
      refine h (w :: pre) x post (by rw [hws, List.cons_append]) fun u hu => ?_
      rcases List.mem_cons.1 hu with rfl | hu
      · exact hgood
      · exact hpre u hu
    · simp only [hf]; exact ⟨_, rfl⟩

/-- Everything a range check over words of the buffer can stop on. -/
theorem rangeCheck_fault {ws : List Nat} {s : State} {f : Fault}
    (hlt : ∀ w ∈ ws, w < s.cfg.memWords) (h : rangeCheck ws s = .fault f) :
    ∃ w ∈ ws, s.mem.readWord w = none ∧ f = .engineReadUnwritten w := by
  induction ws with
  | nil => cases h
  | cons w ws ih =>
    have hw := hlt w (by simp)
    cases hr : s.mem.readWord w with
    | none =>
      rw [rangeCheck_unwritten hw hr] at h
      cases h
      exact ⟨w, by simp, hr, rfl⟩
    | some v =>
      rw [rangeCheck, (bufRead_ok_iff s w v).2 ⟨hw, hr⟩] at h
      by_cases hf : isFieldWord v = true
      · simp only [hf, if_true] at h
        obtain ⟨x, hx, h'⟩ := ih (fun x hx => hlt x (List.mem_cons_of_mem _ hx)) h
        exact ⟨x, List.mem_cons_of_mem _ hx, h'⟩
      · simp [hf] at h

/-! ## The check step of COMPRESS (R186 to R188, R197) -/

/-- An input word of a batch within bounds is in the buffer. -/
theorem scanOrder_lt {memWords : Nat} {d : Descriptor} (hb : BoundsPass memWords d) {w : Nat}
    (hw : w ∈ scanOrder d) : w < memWords := by
  obtain ⟨k, hk, j, hj, rfl | rfl⟩ := (mem_scanOrder d w).1 hw
  · exact (effIndex_lt_rangeEnd _ _ _ hk hj).2.trans_le hb.1
  · exact (effIndex_lt_rangeEnd _ _ _ hk hj).2.trans_le hb.2.1

/-- A nonempty batch that passes bounds and overlap comes to the range check. -/
theorem compressCheck_range {s : State} (hn : s.desc.count ≠ 0#32)
    (hb : BoundsPass s.cfg.memWords s.desc) (ho : OverlapPass s.desc) :
    compressCheck s = rangeCheck (scanOrder s.desc) s := by
  unfold compressCheck
  rw [if_neg hn, (boundsError_none_iff _ _).2 hb, (overlapError_none_iff _).2 ho]

/-- A nonempty checked batch enters the run phase. -/
theorem compressCheck_pass {s : State} (hn : s.desc.count ≠ 0#32) (hc : Checked s) :
    compressCheck s = .next { s with phase := .run, k := 0#32 } := by
  rw [compressCheck_range hn hc.bounds hc.overlap]
  exact rangeCheck_pass fun w hw => ⟨scanOrder_lt hc.bounds hw, hc.inputs w hw⟩

/-- Everything a check step of COMPRESS that goes on can do. -/
theorem compressCheck_cases {s t : State} (h : compressCheck s = .next t) :
    (s.desc.count = 0#32 ∧ t = complete .success .none 0#32 s) ∨
    (s.desc.count ≠ 0#32 ∧ ∃ id : Word, id.toNat ∈ [1, 2, 3] ∧
      t = complete .error .bounds id s) ∨
    (s.desc.count ≠ 0#32 ∧ BoundsPass s.cfg.memWords s.desc ∧ ∃ id : Word, id.toNat ∈ [1, 2, 3] ∧
      t = complete .error .overlap id s) ∨
    (s.desc.count ≠ 0#32 ∧ BoundsPass s.cfg.memWords s.desc ∧ ∃ w ∈ scanOrder s.desc, ∃ v,
      w < s.cfg.memWords ∧ s.mem.readWord w = some v ∧ P ≤ v.toNat ∧
      t = complete .error .outOfRange (BitVec.ofNat 32 w) s) ∨
    (s.desc.count ≠ 0#32 ∧ Checked s ∧ t = { s with phase := .run, k := 0#32 }) := by
  unfold compressCheck at h
  split at h
  · next hn => exact .inl ⟨hn, (Host.Outcome.next.inj h).symm⟩
  · next hn =>
    split at h
    · next id hb =>
      exact .inr (.inl ⟨hn, id, boundsError_some hb, (Host.Outcome.next.inj h).symm⟩)
    · next hb =>
      have hb := (boundsError_none_iff _ _).1 hb
      split at h
      · next id ho =>
        exact .inr (.inr (.inl ⟨hn, hb, id, overlapError_some ho, (Host.Outcome.next.inj h).symm⟩))
      · next ho =>
        have ho := (overlapError_none_iff _).1 ho
        rcases rangeCheck_cases h with ⟨rfl, hall⟩ | hout
        · exact .inr (.inr (.inr (.inr ⟨hn, ⟨hb, ho, fun w hw => (hall w hw).2⟩, rfl⟩)))
        · exact .inr (.inr (.inr (.inl ⟨hn, hb, hout⟩)))

/-! ## The pair step (R189) -/

/-- The lane state after pair k: PERM of INIT of its two input digests. -/
@[irreducible] def pairLanes (s : State) : Lanes :=
  perm (initLanes (operandDigest s (in1Index s.desc s.k.toNat))
    (operandDigest s (in2Index s.desc s.k.toNat)))

/-- The state in which a pair step has read, computed and written. -/
@[irreducible] def pairWritten (s : State) : State :=
  { s with
    lanes := pairLanes s
    rc := lastRound
    mem := writeWords s.mem (digestWrites s.desc s.k.toNat (extractDigest (pairLanes s))) }

@[simp] theorem pairWritten_mem (s : State) : (pairWritten s).mem =
    writeWords s.mem (digestWrites s.desc s.k.toNat (extractDigest (pairLanes s))) := by
  rw [pairWritten]
@[simp] theorem pairWritten_lanes (s : State) : (pairWritten s).lanes = pairLanes s := by
  rw [pairWritten]
@[simp] theorem pairWritten_rc (s : State) : (pairWritten s).rc = lastRound := by rw [pairWritten]
@[simp] theorem pairWritten_cfg (s : State) : (pairWritten s).cfg = s.cfg := by
  rw [pairWritten]
@[simp] theorem pairWritten_rst (s : State) : (pairWritten s).rst = s.rst := by
  rw [pairWritten]
@[simp] theorem pairWritten_k (s : State) : (pairWritten s).k = s.k := by
  rw [pairWritten]
@[simp] theorem pairWritten_phase (s : State) : (pairWritten s).phase = s.phase := by
  rw [pairWritten]
@[simp] theorem pairWritten_cmdl (s : State) : (pairWritten s).cmdl = s.cmdl := by
  rw [pairWritten]
@[simp] theorem pairWritten_abortReq (s : State) : (pairWritten s).abortReq = s.abortReq := by
  rw [pairWritten]
@[simp] theorem pairWritten_done (s : State) : (pairWritten s).done = s.done := by
  rw [pairWritten]
@[simp] theorem pairWritten_err (s : State) : (pairWritten s).err = s.err := by
  rw [pairWritten]
@[simp] theorem pairWritten_aborted (s : State) : (pairWritten s).aborted = s.aborted := by
  rw [pairWritten]
@[simp] theorem pairWritten_bwerr (s : State) : (pairWritten s).bwerr = s.bwerr := by
  rw [pairWritten]
@[simp] theorem pairWritten_errcode (s : State) : (pairWritten s).errcode = s.errcode := by
  rw [pairWritten]
@[simp] theorem pairWritten_ie (s : State) : (pairWritten s).ie = s.ie := by
  rw [pairWritten]
@[simp] theorem pairWritten_desc (s : State) : (pairWritten s).desc = s.desc := by
  rw [pairWritten]
@[simp] theorem pairWritten_progress (s : State) : (pairWritten s).progress = s.progress := by
  rw [pairWritten]
@[simp] theorem pairWritten_errinfo (s : State) : (pairWritten s).errinfo = s.errinfo := by
  rw [pairWritten]
@[simp] theorem pairWritten_bus (s : State) : (pairWritten s).bus = s.bus := by
  rw [pairWritten]
@[simp] theorem pairWritten_answer (s : State) : (pairWritten s).answer = s.answer := by
  rw [pairWritten]

/-- Pair k can be computed: its input words are field elements of the buffer and its output words are
in the buffer. -/
structure PairReady (s : State) : Prop where
  reads : ∀ w ∈ pairReads s.desc s.k.toNat, w < s.cfg.memWords ∧ holdsField s.mem w = true
  writes : ∀ j < 8, outIndex s.desc s.k.toNat j < s.cfg.memWords

/-- An abort request ends the command at the next pair step. -/
theorem pairStep_abort {s : State} (hk : s.k.toNat < s.desc.count.toNat)
    (ha : s.abortReq = true) : pairStep s = .next (complete .aborted .none 0#32 s) := by
  unfold pairStep
  rw [if_neg (Nat.not_le.2 hk), if_pos ha]

/-- A ready pair is computed, written and counted. -/
theorem pairStep_ready {s : State} (hk : s.k.toNat < s.desc.count.toNat)
    (ha : s.abortReq = false) (hr : PairReady s) :
    pairStep s = .next (pairDone (pairWritten s)) := by
  have hreads : (pairReads s.desc s.k.toNat).findSome? (operandFault s) = none := by
    rw [List.findSome?_eq_none_iff]
    exact fun w hw => (operandFault_none_iff s w).2 (hr.reads w hw)
  have hwrites : ∀ p ∈ digestWrites s.desc s.k.toNat (extractDigest (pairLanes s)),
      p.1 < s.cfg.memWords := by
    intro p hp
    obtain ⟨j, hj, he⟩ := mem_digestWrites hp
    rw [he]; exact hr.writes j hj
  have hall := bufWriteAll_ok (s := { s with lanes := pairLanes s, rc := lastRound }) hwrites
  unfold pairStep
  rw [if_neg (Nat.not_le.2 hk), if_neg (by simp [ha]), hreads]
  have hlanes : perm (initLanes (operandDigest s (in1Index s.desc s.k.toNat))
      (operandDigest s (in2Index s.desc s.k.toNat))) = pairLanes s := by rw [pairLanes]
  dsimp only
  rw [hlanes, hall, pairWritten]

/-- Everything a pair step that goes on can do. -/
theorem pairStep_cases {s t : State} (h : pairStep s = .next t) :
    (s.desc.count.toNat ≤ s.k.toNat ∧ t = s) ∨
    (s.k.toNat < s.desc.count.toNat ∧ s.abortReq = true ∧
      t = complete .aborted .none 0#32 s) ∨
    (s.k.toNat < s.desc.count.toNat ∧ s.abortReq = false ∧ PairReady s ∧
      t = pairDone (pairWritten s)) := by
  by_cases hk : s.desc.count.toNat ≤ s.k.toNat
  · unfold pairStep at h
    rw [if_pos hk] at h
    exact .inl ⟨hk, (Host.Outcome.next.inj h).symm⟩
  have hk' := Nat.not_le.1 hk
  by_cases ha : s.abortReq = true
  · rw [pairStep_abort hk' ha] at h
    exact .inr (.inl ⟨hk', ha, (Host.Outcome.next.inj h).symm⟩)
  rw [Bool.not_eq_true] at ha
  have hr : PairReady s := by
    unfold pairStep at h
    rw [if_neg hk, ha] at h
    simp only [Bool.false_eq_true, if_false] at h
    split at h
    · cases h
    · next hreads =>
      rw [List.findSome?_eq_none_iff] at hreads
      refine ⟨fun w hw => (operandFault_none_iff s w).1 (hreads w hw), ?_⟩
      split at h
      · cases h
      · next hw =>
        intro j hj
        refine (bufWriteAll_cases hw).1 _ (List.mem_map.2 ⟨⟨j, hj⟩, List.mem_finRange _, rfl⟩)
  rw [pairStep_ready hk' ha hr] at h
  exact .inr (.inr ⟨hk', ha, hr, (Host.Outcome.next.inj h).symm⟩)

/-- What follows a pair: the fields it leaves alone. -/
theorem pairDone_frame (s : State) :
    (pairDone s).cfg = s.cfg ∧ (pairDone s).rst = s.rst ∧ (pairDone s).lanes = s.lanes ∧
    (pairDone s).rc = s.rc ∧ (pairDone s).cmdl = s.cmdl ∧ (pairDone s).bwerr = s.bwerr ∧
    (pairDone s).ie = s.ie ∧ (pairDone s).desc = s.desc ∧ (pairDone s).mem = s.mem ∧
    (pairDone s).bus = s.bus ∧ (pairDone s).answer = s.answer := by
  unfold pairDone
  dsimp only
  split <;> simp

/-- After the last pair the command completes SUCCESS. -/
theorem pairDone_last {s : State} (h : s.k.toNat + 1 = s.desc.count.toNat) :
    pairDone s = complete .success .none 0#32 { s with progress := s.k + 1#32 } := by
  unfold pairDone; rw [if_pos h]

/-- After any other pair the next one follows. -/
theorem pairDone_more {s : State} (h : s.k.toNat + 1 ≠ s.desc.count.toNat) :
    pairDone s = { s with progress := s.k + 1#32, k := s.k + 1#32 } := by
  unfold pairDone; rw [if_neg h]

/-- A byte outside pair k's output words is as before the pair step. -/
theorem pairWritten_read_other {s : State} {a : Nat}
    (h : ∀ j < 8, ∀ b < 4, a ≠ wordOffset (outIndex s.desc s.k.toNat j) + b) :
    (pairWritten s).mem.read a = s.mem.read a := by
  rw [pairWritten_mem]
  refine writeWords_read_other fun p hp => ?_
  obtain ⟨j, hj, he⟩ := mem_digestWrites hp
  rw [he]
  by_contra hc
  exact h j hj (a - wordOffset (outIndex s.desc s.k.toNat j)) (by omega) (by omega)

/-- Output word j of pair k holds lane j of the digest. -/
theorem pairWritten_readWord (s : State) (j : Fin 8) :
    (pairWritten s).mem.readWord (outIndex s.desc s.k.toNat j) =
      some (feWord (extractDigest (pairLanes s))[j]) := by
  rw [pairWritten_mem]
  exact writeWords_readWord_same (digestWrites_nodup _ _ _)
    (digestWrites_mem _ _ (extractDigest (pairLanes s)) j)

/-- In a checked batch every pair left is ready. -/
theorem pairReady_of_checked {s : State} (hc : Checked s)
    (hk : s.k.toNat < s.desc.count.toNat) : PairReady s where
  reads := by
    intro w hw
    obtain ⟨j, hj, hw⟩ := (mem_pairReads _ _ _).1 hw
    have hmem : w ∈ scanOrder s.desc := (mem_scanOrder _ _).2 ⟨s.k.toNat, hk, j, hj, hw⟩
    exact ⟨scanOrder_lt hc.bounds hmem, hc.inputs w hmem⟩
  writes := fun j hj => (effIndex_lt_rangeEnd _ _ _ hk hj).2.trans_le hc.bounds.2.2

/-- A checked batch's output words are no input words (R187). -/
theorem outIndex_not_scanned {d : Descriptor} (ho : OverlapPass d) {k j w : Nat}
    (hk : k < d.count.toNat) (hj : j < 8) (hw : w ∈ scanOrder d) : outIndex d k j ≠ w := by
  have hD := effIndex_lt_rangeEnd d.dst d.strided d.count hk hj
  obtain ⟨k', hk', j', hj', rfl | rfl⟩ := (mem_scanOrder d w).1 hw
  · have h1 := effIndex_lt_rangeEnd d.src1 d.stride1 d.count hk' hj'
    have := ho.2.1
    simp only [outIndex, in1Index, Descriptor.end1, Descriptor.endD] at *
    omega
  · have h2 := effIndex_lt_rangeEnd d.src2 d.stride2 d.count hk' hj'
    have := ho.2.2
    simp only [outIndex, in2Index, Descriptor.end2, Descriptor.endD] at *
    omega

/-- A pair step leaves every input word of a checked batch as it was. -/
theorem pairWritten_readWord_input {s : State} (ho : OverlapPass s.desc)
    (hk : s.k.toNat < s.desc.count.toNat) {w : Nat} (hw : w ∈ scanOrder s.desc) :
    (pairWritten s).mem.readWord w = s.mem.readWord w := by
  rw [pairWritten_mem]
  refine writeWords_readWord_other fun p hp => ?_
  obtain ⟨j, hj, he⟩ := mem_digestWrites hp
  rw [he]
  exact outIndex_not_scanned ho hk hj hw

/-! ## The meanings -/

/-- Everything a NOP can do. -/
theorem execNop_cases {s t : State} (h : execNop s = .next t) :
    (s.phase = .check ∧ t = complete .success .none 0#32 s) ∨ (s.phase ≠ .check ∧ t = s) := by
  unfold execNop at h
  split at h
  · next hp => exact .inl ⟨hp, (Host.Outcome.next.inj h).symm⟩
  · next hp => exact .inr ⟨by simp [hp], (Host.Outcome.next.inj h).symm⟩
  · next hp => exact .inr ⟨by simp [hp], (Host.Outcome.next.inj h).symm⟩

/-- Everything an ABORT can do. -/
theorem execAbort_cases {s t : State} (h : execAbort s = .next t) :
    (s.busy = true ∧ t = { s with abortReq := true }) ∨ (s.busy = false ∧ t = s) := by
  unfold execAbort at h
  cases hb : s.busy <;> simp [hb] at h <;> subst h <;> simp

theorem execCompress_check {s : State} (h : s.phase = .check) :
    execCompress s = compressCheck s := by simp [execCompress, h]

theorem execCompress_run {s : State} (h : s.phase = .run) : execCompress s = pairStep s := by
  simp [execCompress, h]

theorem execCompress_idle {s : State} (h : s.phase = .idle) : execCompress s = .next s := by
  simp [execCompress, h]

@[simp] theorem exec_nop (s : State) : exec .nop s = execNop s := rfl

@[simp] theorem exec_compress (s : State) : exec .compress s = execCompress s := rfl

@[simp] theorem exec_abort (s : State) : exec .abort s = execAbort s := rfl

end Sys2Proof.Machine
end

