-- ==== Sys2Proof/Laws/Step.lean ====
section
/-! SUPPORT. Everything one transition of the block can do, said once: the engine's turn, a host
access, and the step that takes the next entry of the history to come. -/

namespace Sys2Proof.Machine

/-! ## The engine's turn (44_commands.md R180, R183) -/

/-- The check step of the command word 0. -/
theorem engineTurn_nop {s : State} (hr : s.rst = false) (hp : s.phase = .check)
    (hc : s.cmdl = 0x00000000#32) :
    engineTurn s = .next (complete .success .none 0#32 s) := by
  have hd : decode s.cmdl = .ok .nop := by rw [hc]; decide
  simp [engineTurn, engineStep, hr, hp, hd, execNop]

/-- The check step of the command word 1. -/
theorem engineTurn_compress {s : State} (hr : s.rst = false) (hp : s.phase = .check)
    (hc : s.cmdl = 0x00000001#32) : engineTurn s = compressCheck s := by
  have hd : decode s.cmdl = .ok .compress := by rw [hc]; decide
  simp [engineTurn, engineStep, hr, hp, hd, execCompress]

/-- The check step of every other word (44_commands.md R192). -/
theorem engineTurn_illegal {s : State} (hr : s.rst = false) (hp : s.phase = .check)
    (h0 : s.cmdl ≠ 0x00000000#32) (h1 : s.cmdl ≠ 0x00000001#32) :
    engineTurn s = .next (complete .error .illegalCmd s.cmdl s) := by
  rcases decode_cases s.cmdl with ⟨h, -⟩ | ⟨h, -⟩ | ⟨-, h⟩ | ⟨-, -, -, h⟩
  · exact absurd h h0
  · exact absurd h h1
  · simp [engineTurn, engineStep, hr, hp, h]
  · by_cases hf : rsvField s.cmdl = 0
    · rw [if_pos hf] at h; simp [engineTurn, engineStep, hr, hp, h]
    · rw [if_neg hf] at h; simp [engineTurn, engineStep, hr, hp, h]

/-- The run phase takes pair steps. -/
theorem engineTurn_run {s : State} (hr : s.rst = false) (hp : s.phase = .run) :
    engineTurn s = pairStep s := by
  simp [engineTurn, engineStep, hr, hp, execCompress]

/-- An idle engine, and one in reset, has no step. -/
theorem engineTurn_stutter {s : State} (h : s.rst = true ∨ s.phase = .idle) :
    engineTurn s = .next s := by
  rcases h with h | h
  · simp [engineTurn, h]
  · unfold engineTurn; split <;> simp [engineStep, h]

/-- Everything an engine's turn that goes on can do. -/
theorem engineTurn_cases {s t : State} (h : engineTurn s = .next t) :
    ((s.rst = true ∨ s.phase = .idle) ∧ t = s) ∨
    (s.rst = false ∧ s.phase = .check ∧ s.cmdl = 0x00000000#32 ∧
      t = complete .success .none 0#32 s) ∨
    (s.rst = false ∧ s.phase = .check ∧ s.cmdl ≠ 0x00000000#32 ∧ s.cmdl ≠ 0x00000001#32 ∧
      t = complete .error .illegalCmd s.cmdl s) ∨
    (s.rst = false ∧ s.phase = .check ∧ s.cmdl = 0x00000001#32 ∧ compressCheck s = .next t) ∨
    (s.rst = false ∧ s.phase = .run ∧ pairStep s = .next t) := by
  by_cases hr : s.rst = true
  · rw [engineTurn_stutter (.inl hr)] at h
    exact .inl ⟨.inl hr, (Host.Outcome.next.inj h).symm⟩
  rw [Bool.not_eq_true] at hr
  cases hp : s.phase with
  | idle =>
    rw [engineTurn_stutter (.inr hp)] at h
    exact .inl ⟨.inr rfl, (Host.Outcome.next.inj h).symm⟩
  | run =>
    rw [engineTurn_run hr hp] at h
    exact .inr (.inr (.inr (.inr ⟨hr, rfl, h⟩)))
  | check =>
    by_cases h0 : s.cmdl = 0x00000000#32
    · rw [engineTurn_nop hr hp h0] at h
      exact .inr (.inl ⟨hr, rfl, h0, (Host.Outcome.next.inj h).symm⟩)
    by_cases h1 : s.cmdl = 0x00000001#32
    · rw [engineTurn_compress hr hp h1] at h
      exact .inr (.inr (.inr (.inl ⟨hr, rfl, h1, h⟩)))
    rw [engineTurn_illegal hr hp h0 h1] at h
    exact .inr (.inr (.inl ⟨hr, rfl, h0, h1, (Host.Outcome.next.inj h).symm⟩))

/-! ## The aperture (20_memory.md R61) -/

theorem decodeOffset_rcRom {memWords a : Nat} (h : 0x01000 ≤ a ∧ a < 0x02800) :
    decodeOffset memWords a = .rcRom ((a - 0x01000) / 4) := by
  rw [decodeOffset, if_pos h]

theorem decodeOffset_mixRom {memWords a : Nat} (h : 0x03000 ≤ a ∧ a < 0x03900) :
    decodeOffset memWords a = .mixRom ((a - 0x03000) / 4) := by
  rw [decodeOffset, if_neg (by omega), if_pos h]

theorem decodeOffset_data {memWords a : Nat} (h : 0x10000 ≤ a ∧ a < 0x10000 + 4 * memWords) :
    decodeOffset memWords a = .data ((a - 0x10000) / 4) := by
  rw [decodeOffset, if_neg (by omega), if_neg (by omega), if_pos h]

theorem decodeOffset_reg {memWords a : Nat} {r : Reg} (ha : a < 0x00038)
    (h : regMap[a / 4]? = some r) : decodeOffset memWords a = .reg r := by
  rw [decodeOffset, if_neg (by omega), if_neg (by omega), if_neg (by omega), h]

theorem decodeOffset_unmapped {memWords a : Nat} (h0 : 0x00038 ≤ a)
    (h1 : ¬(0x01000 ≤ a ∧ a < 0x02800)) (h2 : ¬(0x03000 ≤ a ∧ a < 0x03900))
    (h3 : ¬(0x10000 ≤ a ∧ a < 0x10000 + 4 * memWords)) :
    decodeOffset memWords a = .unmapped := by
  have hn : regMap[a / 4]? = none := List.getElem?_eq_none (by simp [regMap]; omega)
  rw [decodeOffset, if_neg h1, if_neg h2, if_neg h3, hn]

/-- Everything an aligned offset can address. -/
theorem decodeOffset_cases (memWords : Nat) {a : Nat} (h4 : a % 4 = 0) :
    (∃ r, a < 0x00038 ∧ regMap[a / 4]? = some r ∧ decodeOffset memWords a = .reg r) ∨
    (0x01000 ≤ a ∧ a < 0x02800 ∧ decodeOffset memWords a = .rcRom ((a - 0x01000) / 4)) ∨
    (0x03000 ≤ a ∧ a < 0x03900 ∧ decodeOffset memWords a = .mixRom ((a - 0x03000) / 4)) ∨
    (∃ w < memWords, a = 0x10000 + 4 * w ∧ decodeOffset memWords a = .data w) ∨
    (0x00038 ≤ a ∧ decodeOffset memWords a = .unmapped) := by
  by_cases h1 : 0x01000 ≤ a ∧ a < 0x02800
  · exact .inr (.inl ⟨h1.1, h1.2, decodeOffset_rcRom h1⟩)
  by_cases h2 : 0x03000 ≤ a ∧ a < 0x03900
  · exact .inr (.inr (.inl ⟨h2.1, h2.2, decodeOffset_mixRom h2⟩))
  by_cases h3 : 0x10000 ≤ a ∧ a < 0x10000 + 4 * memWords
  · exact .inr (.inr (.inr (.inl ⟨(a - 0x10000) / 4, by omega, by omega, decodeOffset_data h3⟩)))
  by_cases h0 : a < 0x00038
  · have hl : a / 4 < regMap.length := by simp [regMap]; omega
    exact .inl ⟨regMap[a / 4], h0, List.getElem?_eq_getElem hl,
      decodeOffset_reg h0 (List.getElem?_eq_getElem hl)⟩
  · exact .inr (.inr (.inr (.inr ⟨by omega, decodeOffset_unmapped (by omega) h1 h2 h3⟩)))

/-! ## Host accesses (20_memory.md R62 to R72) -/

/-- An access that is decoded: RST is not asserted, the size is 4 and the offset is aligned. -/
theorem earlyBusError_none_iff (s : State) (addr : Offset) (size : Nat) :
    earlyBusError s addr size = none ↔ s.rst = false ∧ size = 4 ∧ addr.toNat % 4 = 0 := by
  unfold earlyBusError
  cases s.rst <;> simp; split <;> simp_all

/-- An accepted read goes to the region its offset addresses. -/
theorem hostAccess_read {s : State} (addr : Offset) (hr : s.rst = false)
    (ha : addr.toNat % 4 = 0) :
    hostAccess (.read addr 4) s = hostRead (decodeOffset s.cfg.memWords addr.toNat) s := by
  simp [hostAccess, (earlyBusError_none_iff s addr 4).2 ⟨hr, rfl, ha⟩]

/-- An accepted write goes to the region its offset addresses. -/
theorem hostAccess_write {s : State} (addr : Offset) (v : Word) (hr : s.rst = false)
    (ha : addr.toNat % 4 = 0) :
    hostAccess (.write addr 4 v) s = hostWrite (decodeOffset s.cfg.memWords addr.toNat) v s := by
  simp [hostAccess, (earlyBusError_none_iff s addr 4).2 ⟨hr, rfl, ha⟩]

/-- A read that is answered changes nothing but the answer (20_memory.md R68, R76). -/
theorem hostRead_cases {g : Region} {s t : State} (h : hostRead g s = .next t) :
    ∃ v, t = answered (.data v) s := by
  cases g with
  | reg r => exact ⟨_, (Host.Outcome.next.inj h).symm⟩
  | rcRom q => exact ⟨_, (Host.Outcome.next.inj h).symm⟩
  | mixRom q => exact ⟨_, (Host.Outcome.next.inj h).symm⟩
  | unmapped => cases h
  | data w =>
    unfold hostRead at h
    dsimp only at h
    split at h
    · cases h
    · split at h
      · exact ⟨_, (Host.Outcome.next.inj h).symm⟩
      · cases h

/-- A CMD write of the ABORT word (44_commands.md R181, R191). -/
theorem cmdWrite_abort (s : State) :
    cmdWrite 0x00000002#32 s = .next (if s.busy then { s with abortReq := true } else s) := by
  have hd : decode 0x00000002#32 = .ok .abort := by decide
  simp only [cmdWrite, hd, exec_abort, execAbort]

/-- A CMD write of any other word (44_commands.md R181). -/
theorem cmdWrite_other {v : Word} (s : State) (hv : v ≠ 0x00000002#32) :
    cmdWrite v s = .next (if s.busy then setBwerr s else issue v s) := by
  unfold cmdWrite
  split
  · next hd => exact absurd ((decode_abort_iff v).1 hd) hv
  · rfl
  · rfl
  · rfl

/-- Everything a write that is answered can do; `s'` is the block that has answered OK. -/
theorem hostAccess_write_cases {addr : Offset} {size : Nat} {v : Word} {s t : State}
    (h : hostAccess (.write addr size v) s = .next t) :
    s.rst = false ∧ size = 4 ∧ addr.toNat % 4 = 0 ∧
    ((addr.toNat = 0x004 ∧ v = 0x00000002#32 ∧
        t = if s.busy then { answered .ok s with abortReq := true } else answered .ok s) ∨
      (addr.toNat = 0x004 ∧ v ≠ 0x00000002#32 ∧
        t = if s.busy then setBwerr (answered .ok s) else issue v (answered .ok s)) ∨
      (addr.toNat = 0x008 ∧ t = statusWrite v (answered .ok s)) ∨
      (addr.toNat = 0x00C ∧ t = ctrlWrite v (answered .ok s)) ∨
      (0x010 ≤ addr.toNat ∧ addr.toNat ≤ 0x028 ∧ ∃ d, t = lockedWrite d (answered .ok s)) ∨
      (∃ w < s.cfg.memWords, addr.toNat = 0x10000 + 4 * w ∧ s.busy = false ∧
        t = { answered .ok s with mem := s.mem.writeWord w v }) ∨
      ((addr.toNat = 0x000 ∨ 0x02C ≤ addr.toNat) ∧ t = answered .ok s)) := by
  have he : earlyBusError s addr size = none := by
    cases he : earlyBusError s addr size with
    | none => rfl
    | some c => simp [hostAccess, he] at h
  obtain ⟨hr, rfl, ha⟩ := (earlyBusError_none_iff _ _ _).1 he
  refine ⟨hr, rfl, ha, ?_⟩
  rw [hostAccess_write addr v hr ha] at h
  rcases decodeOffset_cases s.cfg.memWords ha with ⟨r, hlt, hreg, hd⟩ | ⟨hl, hu, hd⟩ | ⟨hl, hu, hd⟩ |
    ⟨w, hw, hwa, hd⟩ | ⟨hl, hd⟩
  · rw [hd] at h
    obtain ⟨i, hi⟩ : ∃ i, addr.toNat = 4 * i := ⟨addr.toNat / 4, by omega⟩
    have hi14 : i < 14 := by omega
    rw [hi, Nat.mul_div_cancel_left i (by decide)] at hreg
    have hnext : ∀ {x : State}, (.next x : Host.Outcome State Fault Refusal) = .next t → t = x :=
      fun hx => (Host.Outcome.next.inj hx).symm
    interval_cases i <;> cases (Option.some.inj hreg) <;> simp only [hostWrite, regWrite] at h
    · exact .inr (.inr (.inr (.inr (.inr (.inr ⟨.inl hi, hnext h⟩)))))
    · by_cases hv : v = 0x00000002#32
      · subst hv
        rw [cmdWrite_abort] at h
        exact .inl ⟨hi, rfl, hnext h⟩
      · rw [cmdWrite_other _ hv] at h
        exact .inr (.inl ⟨hi, hv, hnext h⟩)
    · exact .inr (.inr (.inl ⟨hi, hnext h⟩))
    · exact .inr (.inr (.inr (.inl ⟨hi, hnext h⟩)))
    · exact .inr (.inr (.inr (.inr (.inl ⟨by omega, by omega, _, hnext h⟩))))
    · exact .inr (.inr (.inr (.inr (.inl ⟨by omega, by omega, _, hnext h⟩))))
    · exact .inr (.inr (.inr (.inr (.inl ⟨by omega, by omega, _, hnext h⟩))))
    · exact .inr (.inr (.inr (.inr (.inl ⟨by omega, by omega, _, hnext h⟩))))
    · exact .inr (.inr (.inr (.inr (.inl ⟨by omega, by omega, _, hnext h⟩))))
    · exact .inr (.inr (.inr (.inr (.inl ⟨by omega, by omega, _, hnext h⟩))))
    · exact .inr (.inr (.inr (.inr (.inl ⟨by omega, by omega, _, hnext h⟩))))
    · exact .inr (.inr (.inr (.inr (.inr (.inr ⟨.inr (by omega), hnext h⟩)))))
    · exact .inr (.inr (.inr (.inr (.inr (.inr ⟨.inr (by omega), hnext h⟩)))))
    · exact .inr (.inr (.inr (.inr (.inr (.inr ⟨.inr (by omega), hnext h⟩)))))
  · rw [hd] at h
    exact .inr (.inr (.inr (.inr (.inr (.inr ⟨.inr (by omega), (Host.Outcome.next.inj h).symm⟩)))))
  · rw [hd] at h
    exact .inr (.inr (.inr (.inr (.inr (.inr ⟨.inr (by omega), (Host.Outcome.next.inj h).symm⟩)))))
  · rw [hd, hostWrite] at h
    split at h
    · cases h
    · next hb =>
      exact .inr (.inr (.inr (.inr (.inr (.inl ⟨w, hw, hwa, Bool.eq_false_iff.2 hb,
        (Host.Outcome.next.inj h).symm⟩)))))
  · rw [hd] at h; cases h

/-- Everything a read that is answered can do. -/
theorem hostAccess_read_cases {addr : Offset} {size : Nat} {s t : State}
    (h : hostAccess (.read addr size) s = .next t) :
    s.rst = false ∧ size = 4 ∧ addr.toNat % 4 = 0 ∧ ∃ v, t = answered (.data v) s := by
  have he : earlyBusError s addr size = none := by
    cases he : earlyBusError s addr size with
    | none => rfl
    | some c => simp [hostAccess, he] at h
  obtain ⟨hr, rfl, ha⟩ := (earlyBusError_none_iff _ _ _).1 he
  rw [hostAccess_read addr hr ha] at h
  exact ⟨hr, rfl, ha, hostRead_cases h⟩

/-- Everything a host access to a busy block that is answered can do: DONE may fall, BWERR, IE and the
abort request are free, and nothing else changes but the answer. An abort request that was not there
comes from a CMD write of the ABORT word (44_commands.md R181, R193 to R195; 20_memory.md R71). -/
theorem hostAccess_busy {a : Access} {s t : State} (hb : s.busy = true)
    (h : hostAccess a s = .next t) :
    ∃ (d bw ie ab : Bool) (ans : Answer),
      t = { s with done := d, bwerr := bw, ie := ie, abortReq := ab, answer := ans } ∧
      (d = true → s.done = true) ∧
      (ab = true → s.abortReq = true ∨ a = .write 0x00004#20 4 0x00000002#32) := by
  rcases a with ⟨addr, size⟩ | ⟨addr, size, v⟩
  · obtain ⟨-, -, -, v, rfl⟩ := hostAccess_read_cases h
    exact ⟨s.done, s.bwerr, s.ie, s.abortReq, .data v, rfl, id, .inl⟩
  · obtain ⟨-, rfl, -, hcase⟩ := hostAccess_write_cases h
    have hba : (answered .ok s).busy = true := by simpa using hb
    rcases hcase with ⟨ha, rfl, rfl⟩ | ⟨-, -, rfl⟩ | ⟨-, rfl⟩ | ⟨-, rfl⟩ | ⟨-, -, d, rfl⟩ |
      ⟨w, -, -, hidle, -⟩ | ⟨-, rfl⟩
    · rw [if_pos hb]
      have haddr : addr = 0x00004#20 := BitVec.eq_of_toNat_eq ha
      exact ⟨s.done, s.bwerr, s.ie, true, .ok, rfl, id, fun _ => .inr (by rw [haddr])⟩
    · rw [if_pos hb]
      exact ⟨s.done, true, s.ie, s.abortReq, .ok, rfl, id, .inl⟩
    · exact ⟨s.done && !v.getLsbD 1, s.bwerr && !v.getLsbD 4, s.ie, s.abortReq, .ok, rfl,
        fun hd => (Bool.and_eq_true_iff.1 hd).1, .inl⟩
    · exact ⟨s.done, s.bwerr, v.getLsbD 0, s.abortReq, .ok, rfl, id, .inl⟩
    · rw [lockedWrite, if_pos hba]
      exact ⟨s.done, true, s.ie, s.abortReq, .ok, rfl, id, .inl⟩
    · rw [hb] at hidle; cases hidle
    · exact ⟨s.done, s.bwerr, s.ie, s.abortReq, .ok, rfl, id, .inl⟩

/-! ## The step (20_memory.md R79) -/

theorem step_engine {s : State} (h : EngineNext s) : step s = engineTurn (popEvent s) := by
  rcases hb : s.bus with - | ⟨e, rest⟩
  · have : popEvent s = s := by unfold popEvent; rw [hb, List.tail_nil, ← hb]
    simp [step, hb, this]
  · rcases h with h | h
    · simp [hb] at h
    · simp [hb] at h; subst h; simp [step, hb]

theorem step_host {s : State} {a : Access} {rest : List Event} (h : s.bus = .host a :: rest) :
    step s = hostAccess a (popEvent s) := by simp [step, h]

theorem step_reset {s : State} {level : Bool} {rest : List Event}
    (h : s.bus = .reset level :: rest) : step s = .next (setReset level (popEvent s)) := by
  simp [step, h]

/-- A step on an accepted write to a register (20_memory.md R69). -/
theorem step_write_reg {s : State} {addr : Offset} {v : Word} {rest : List Event} {r : Reg}
    (hr : s.rst = false) (hb : s.bus = .host (.write addr 4 v) :: rest)
    (hlt : addr.toNat < 0x38) (h4 : addr.toNat % 4 = 0) (hreg : regMap[addr.toNat / 4]? = some r) :
    step s = regWrite r v { s with bus := rest, answer := .ok } := by
  rw [step_host hb, hostAccess_write _ _ (by simpa using hr) h4, decodeOffset_reg hlt hreg]
  simp [hostWrite, answered, popEvent, hb]

/-- A step on an accepted read of a register (20_memory.md R68). -/
theorem step_read_reg {s : State} {addr : Offset} {rest : List Event} {r : Reg}
    (hr : s.rst = false) (hb : s.bus = .host (.read addr 4) :: rest)
    (hlt : addr.toNat < 0x38) (h4 : addr.toNat % 4 = 0) (hreg : regMap[addr.toNat / 4]? = some r) :
    step s = .next { s with bus := rest, answer := .data (regRead r (popEvent s)) } := by
  rw [step_host hb, hostAccess_read _ (by simpa using hr) h4, decodeOffset_reg hlt hreg]
  simp [hostRead, answered, popEvent, hb]

/-- Everything a step that goes on can do: the engine's turn, a host access, or reset. -/
theorem step_cases {s t : State} (h : step s = .next t) :
    (EngineNext s ∧ engineTurn (popEvent s) = .next t) ∨
    (∃ a rest, s.bus = .host a :: rest ∧ hostAccess a (popEvent s) = .next t) ∨
    (∃ level rest, s.bus = .reset level :: rest ∧ t = setReset level (popEvent s)) := by
  rcases hb : s.bus with - | ⟨_ | _ | level, rest⟩
  · have he : EngineNext s := .inl hb
    rw [step_engine he] at h; exact .inl ⟨.inl hb, h⟩
  · rw [step_host hb] at h; exact .inr (.inl ⟨_, _, rfl, h⟩)
  · have he : EngineNext s := .inr (by simp [hb])
    rw [step_engine he] at h; exact .inl ⟨.inr (by simp [hb]), h⟩
  · rw [step_reset hb] at h
    exact .inr (.inr ⟨_, _, rfl, (Host.Outcome.next.inj h).symm⟩)

end Sys2Proof.Machine
end

