-- ==== Sys2Proof/Laws/Run.lean ====
section
/-! SUPPORT. Runs of several steps, and the run of a checked batch pair by pair (44_commands.md R198,
R199). -/

namespace Sys2Proof.Machine

@[simp] theorem runFor_zero (s : State) : runFor 0 s = .next s := rfl

theorem runFor_succ (n : Nat) (s : State) :
    runFor (n + 1) s = match step s with
      | .next t => runFor n t
      | .fault f => .fault f
      | .refused r => .refused r := by
  refine (Host.Core.run.eq_2 core s n).trans ?_
  cases h : step s with
  | next t => rw [show core.step s = .next t from h]; rfl
  | fault f => rw [show core.step s = .fault f from h]; rfl
  | refused r => rw [show core.step s = .refused r from h]; rfl

/-- A step that goes on begins a run. -/
theorem runFor_step {s t : State} (n : Nat) (h : step s = .next t) :
    runFor (n + 1) s = runFor n t := by rw [runFor_succ, h]

/-- A run that goes on is carried on from where it ends. -/
theorem runFor_add {n : Nat} {s t : State} (m : Nat) (h : runFor n s = .next t) :
    runFor (n + m) s = runFor m t := by
  induction n generalizing s with
  | zero => cases h; rw [Nat.zero_add]
  | succ n ih =>
    rw [runFor_succ] at h
    cases hs : step s with
    | next u => rw [hs] at h; rw [Nat.succ_add, runFor_step _ hs]; exact ih h
    | fault f => rw [hs] at h; cases h
    | refused r => rw [hs] at h; cases h

/-- The last step of a run that goes on. -/
theorem runFor_last {n : Nat} {s t : State} (h : runFor (n + 1) s = .next t) :
    ∃ u, runFor n s = .next u ∧ step u = .next t := by
  induction n generalizing s with
  | zero =>
    rw [runFor_succ] at h
    cases hs : step s with
    | next u => rw [hs] at h; cases h; exact ⟨s, rfl, hs⟩
    | fault f => rw [hs] at h; cases h
    | refused r => rw [hs] at h; cases h
  | succ n ih =>
    rw [runFor_succ] at h
    cases hs : step s with
    | next u =>
      rw [hs] at h
      obtain ⟨v, hv, hst⟩ := ih h
      exact ⟨v, by rw [runFor_step n hs, hv], hst⟩
    | fault f => rw [hs] at h; cases h
    | refused r => rw [hs] at h; cases h

/-- A block left alone in the run phase takes a pair step. -/
theorem step_run {s : State} (hr : s.rst = false) (hb : s.bus = []) (hp : s.phase = .run) :
    step s = pairStep s := by
  rw [step_engine (.inl hb), popEvent_of_bus_nil hb, engineTurn_run hr hp]

/-- The inputs of a checked batch are checked still when its input words are as they were. -/
theorem checked_of_same_inputs {s t : State} (hc : Checked s) (hcfg : t.cfg = s.cfg)
    (hd : t.desc = s.desc)
    (hm : ∀ w ∈ scanOrder s.desc, t.mem.readWord w = s.mem.readWord w) : Checked t where
  bounds := by rw [hcfg, hd]; exact hc.bounds
  overlap := by rw [hd]; exact hc.overlap
  inputs := by
    rw [hd]
    intro w hw
    have := hc.inputs w hw
    unfold holdsField at *
    rw [hm w hw]; exact this

/-- A pair step of a checked batch leaves it checked. -/
theorem checked_pairWritten {s : State} (hc : Checked s) (hk : s.k.toNat < s.desc.count.toNat) :
    Checked (pairWritten s) :=
  checked_of_same_inputs hc (pairWritten_cfg s) (pairWritten_desc s)
    fun _ hw => pairWritten_readWord_input hc.overlap hk hw

/-! ## The first pairs of a batch (44_commands.md R199) -/

/-- Only the buffer counts. -/
theorem FirstPairs.of_mem_eq {s t u : State} {m : Nat} (h : FirstPairs s t m)
    (hm : u.mem = t.mem) : FirstPairs s u m where
  written := by rw [hm]; exact h.written
  others := by rw [hm]; exact h.others

/-- Before the first pair nothing is written. -/
theorem firstPairs_zero {s t : State} (h : t.mem = s.mem) : FirstPairs s t 0 where
  written := by simp
  others := by simp [h]

/-- The input words of a checked batch are as they were when only its pairs have been written. -/
theorem FirstPairs.readWord_input {s t : State} {m w : Nat} (h : FirstPairs s t m)
    (ho : OverlapPass s.desc) (hm : m ≤ s.desc.count.toNat) (hw : w ∈ scanOrder s.desc) :
    t.mem.readWord w = s.mem.readWord w := by
  refine memory_readWord_congr fun b hb => h.others _ fun k hk j hj b' hb' => ?_
  have := outIndex_not_scanned ho (k := k) (by omega) hj hw
  simp only [wordOffset]
  omega

/-- The inputs of a checked batch are checked still when only its pairs have been written. -/
theorem FirstPairs.checked {s t : State} {m : Nat} (h : FirstPairs s t m) (hc : Checked s)
    (hcfg : t.cfg = s.cfg) (hd : t.desc = s.desc) (hm : m ≤ s.desc.count.toNat) : Checked t :=
  checked_of_same_inputs hc hcfg hd fun _ hw => h.readWord_input hc.overlap hm hw

/-- A pair step adds pair k to the pairs before it. -/
theorem FirstPairs.pairWritten {s t : State} (h : FirstPairs s t t.k.toNat) (hc : Checked s)
    (hcfg : t.cfg = s.cfg) (hd : t.desc = s.desc) (hk : t.k.toNat < s.desc.count.toNat) :
    FirstPairs s (pairWritten t) (t.k.toNat + 1) where
  written := by
    intro k hkm j
    by_cases hkk : k = t.k.toNat
    · have hin : ∀ w ∈ scanOrder s.desc, operandValue t w = operandValue s w := fun w hw =>
        operandValue_congr hcfg (h.readWord_input hc.overlap hk.le hw)
      have hlanes : pairLanes t = perm (initLanes (operandDigest s (in1Index s.desc k))
          (operandDigest s (in2Index s.desc k))) := by
        rw [pairLanes, hd, ← hkk]
        congr 2
        · exact operandDigest_congr fun j hj =>
            hin _ ((mem_scanOrder _ _).2 ⟨k, by omega, j, hj, .inl rfl⟩)
        · exact operandDigest_congr fun j hj =>
            hin _ ((mem_scanOrder _ _).2 ⟨k, by omega, j, hj, .inr rfl⟩)
      have := pairWritten_readWord t j
      rw [hd, ← hkk, hlanes] at this
      exact this
    · rw [pairWritten_mem, writeWords_readWord_other, h.written k (by omega) j]
      intro p hp
      obtain ⟨j', hj', he⟩ := mem_digestWrites hp
      rw [he, hd]
      intro heq
      exact hkk (outIndex_injective hc.overlap hk (by omega) hj' j.isLt heq).1.symm
  others := by
    intro a ha
    rw [pairWritten_read_other, h.others]
    · exact fun k hk' => ha k (by omega)
    · rw [hd]; exact ha t.k.toNat (by omega)

end Sys2Proof.Machine
end

