-- ==== Sys2Proof/Laws/Invariant.lean ====
section
/-! SUPPORT. The invariant under each shared operation: the host's side, the end of a command, an issue,
a flag, a write while idle, and a pair step (10_state.md sections 1 and 3). -/

namespace Sys2Proof.Machine

/-- The inputs to come and the answer are no part of the invariant. -/
theorem inv_withIo {s : State} (b : List Event) (a : Answer) (h : Inv s) :
    Inv { s with bus := b, answer := a } where
  config := h.config
  memory := h.memory
  busyClear := h.busyClear
  errCode := h.errCode
  errAborted := h.errAborted
  errInfo := h.errInfo
  errProgress := h.errProgress
  abortBusy := h.abortBusy
  cmdlNotAbort := h.cmdlNotAbort
  checkFresh := h.checkFresh
  runPairs := h.runPairs
  runChecked := fun hp => checked_of_same_inputs (h.runChecked hp) rfl rfl fun _ _ => rfl
  inReset := fun hr => by
    have := h.inReset hr
    conv_lhs => rw [this]

theorem inv_popEvent {s : State} (h : Inv s) : Inv (popEvent s) := inv_withIo _ s.answer h

theorem inv_answered {s : State} (a : Answer) (h : Inv s) : Inv (answered a s) :=
  inv_withIo s.bus a h

/-- The end of a command keeps the invariant (44_commands.md R190). -/
theorem inv_complete {s : State} (kind : Kind) (code : ErrCode) (info : Word) (h : Inv s)
    (hr : s.rst = false) (hcode : code ≠ .none ↔ kind = .error)
    (hinfo : kind ≠ .error → info = 0#32) (hprog : kind = .error → s.progress = 0#32) :
    Inv (complete kind code info s) where
  config := h.config
  memory := h.memory
  busyClear := by simp
  errCode := by simp [hcode]
  errAborted := by cases kind <;> simp
  errInfo := by simpa using hinfo
  errProgress := by simpa using hprog
  abortBusy := by simp
  cmdlNotAbort := h.cmdlNotAbort
  checkFresh := by simp
  runPairs := by simp
  runChecked := by simp
  inReset := by simp [hr]

/-- An issue of any word but ABORT keeps the invariant (44_commands.md R182). -/
theorem inv_issue {s : State} (v : Word) (h : Inv s) (hr : s.rst = false)
    (hv : v ≠ 0x00000002#32) : Inv (issue v s) where
  config := h.config
  memory := h.memory
  busyClear := by simp
  errCode := by simp
  errAborted := by simp
  errInfo := by simp
  errProgress := by simp
  abortBusy := by simp
  cmdlNotAbort := hv
  checkFresh := by simp
  runPairs := by simp
  runChecked := by simp
  inReset := by simp [hr]

/-- DONE may fall, an abort request may come while busy, and BWERR and IE are free. -/
theorem inv_withFlags {s : State} (h : Inv s) (hr : s.rst = false) (d b i a : Bool)
    (hd : d = true → s.done = true) (ha : a = true → s.busy = true) :
    Inv { s with done := d, bwerr := b, ie := i, abortReq := a } where
  config := h.config
  memory := h.memory
  busyClear := fun hb => ⟨by
    cases d
    · rfl
    · exact absurd (hd rfl) (by rw [(h.busyClear hb).1]; decide), (h.busyClear hb).2⟩
  errCode := h.errCode
  errAborted := h.errAborted
  errInfo := h.errInfo
  errProgress := h.errProgress
  abortBusy := ha
  cmdlNotAbort := h.cmdlNotAbort
  checkFresh := h.checkFresh
  runPairs := h.runPairs
  runChecked := fun hp => checked_of_same_inputs (h.runChecked hp) rfl rfl fun _ _ => rfl
  inReset := by simp [hr]

/-- While idle the descriptor and the buffer may change. -/
theorem inv_withDesc {s : State} (h : Inv s) (hr : s.rst = false) (hb : s.phase = .idle)
    (d : Descriptor) (m : Memory) (hm : MemoryInv s.cfg.memWords m) :
    Inv { s with desc := d, mem := m } where
  config := h.config
  memory := hm
  busyClear := h.busyClear
  errCode := h.errCode
  errAborted := h.errAborted
  errInfo := h.errInfo
  errProgress := h.errProgress
  abortBusy := h.abortBusy
  cmdlNotAbort := h.cmdlNotAbort
  checkFresh := by simp [hb]
  runPairs := by simp [hb]
  runChecked := by simp [hb]
  inReset := by simp [hr]

/-- A pair step keeps the invariant (44_commands.md R189). -/
theorem inv_pairDone {s : State} (h : Inv s) (hr : s.rst = false) (hp : s.phase = .run) :
    Inv (pairDone (pairWritten s)) := by
  obtain ⟨hc, hk, -⟩ := h.runPairs hp
  have hchecked := h.runChecked hp
  have hmem : MemoryInv s.cfg.memWords (pairWritten s).mem := by
    rw [pairWritten_mem]
    refine memoryInv_writeWords h.memory fun p hp => ?_
    obtain ⟨j, hj, he⟩ := mem_digestWrites hp
    rw [he]; exact (pairReady_of_checked hchecked hk).writes j hj
  have hclear := h.busyClear (by rw [busy_iff, hp]; decide)
  by_cases hl : (pairWritten s).k.toNat + 1 = (pairWritten s).desc.count.toNat
  · rw [pairDone_last hl]
    exact {
      config := by simpa using h.config
      memory := by simpa using hmem
      busyClear := by simp
      errCode := by simp
      errAborted := by simp
      errInfo := by simp
      errProgress := by simp
      abortBusy := by simp
      cmdlNotAbort := by simpa using h.cmdlNotAbort
      checkFresh := by simp
      runPairs := by simp
      runChecked := by simp
      inReset := by simp [hr] }
  · rw [pairDone_more hl]
    exact {
      config := by simpa using h.config
      memory := by simpa using hmem
      busyClear := fun _ => by simpa using hclear
      errCode := by simpa using h.errCode
      errAborted := by simpa using h.errAborted
      errInfo := by simpa using h.errInfo
      errProgress := by simp [hclear]
      abortBusy := fun _ => by simp [busy_iff, hp]
      cmdlNotAbort := by simpa using h.cmdlNotAbort
      checkFresh := by simp [hp]
      runPairs := fun _ => by
        refine ⟨by simpa using hc, ?_, rfl⟩
        simp only [pairWritten_k, pairWritten_desc] at hl ⊢
        have := s.desc.count.isLt
        rw [BitVec.toNat_add]; simp; omega
      runChecked := fun _ =>
        checked_of_same_inputs (checked_pairWritten hchecked hk) rfl rfl fun _ _ => rfl
      inReset := by simp [hr] }

end Sys2Proof.Machine
end

