-- ==== Sys2Proof/Laws/Roms.lean ====
section
/-! SUPPORT. The two ROMs in full, written out from the tables of 42_parameter_roms.md R134 and R138,
and the proof that the contents rules give every entry of them. -/

namespace Sys2Proof.Machine

/-- RC, rounds 0 to 7 (42_parameter_roms.md R134). -/
def rcRows0 : List (List Nat) := [
  [1626172032, 1832692381, 542152312, 878279736, 1414419773, 522272826, 647789533, 1165635142,
   1891546678, 636874566, 1989618990, 1746124125, 1827939203, 718912480, 1881774756, 1269709878,
   2044923841, 1504114935, 1981620991, 2069050589, 107904683, 715159583, 2134612722, 1893618399],
  [301035311, 123395328, 1897967541, 1590925459, 302834779, 719965618, 1973033056, 1317697244,
   1682576615, 482987980, 1460600232, 1491051146, 1012262936, 1372685462, 796912808, 1714408466,
   2052812612, 1683272715, 931311070, 457807983, 1950327977, 755881986, 1232677011, 862878838],
  [1630056510, 1408634115, 816508449, 184343032, 2095383053, 1385306557, 92720095, 833384382,
   1480510666, 414778245, 1110633320, 1129091633, 2071198060, 415304590, 764931895, 733008530,
   474558199, 749031531, 427870006, 788086110, 981825100, 213376722, 1020798938, 2014429501],
  [1176970659, 1526699847, 419495221, 859919146, 1722362147, 357316260, 480719351, 2135739830,
   11663484, 775797953, 55163596, 299117581, 1253165810, 1625165513, 2047440581, 628289001,
   920957465, 995032109, 49461909, 605223255, 1187120109, 620886141, 1381293517, 872174246],
  [438899719, 1355244716, 31759757, 745390777, 1471817764, 593488757, 142152373, 1263842148,
   1154042440, 1451322205, 592976959, 663111617, 197998559, 794686566, 746476287, 111248617,
   2059070631, 32048880, 790216641, 2043442150, 50568357, 1826364407, 692760238, 1136226750],
  [537246305, 1271713254, 1002903408, 1616939063, 1896347394, 1677573557, 1555319945, 908205554,
   700397858, 1301801369, 809722981, 2108808359, 1994113426, 1768532664, 670561833, 859189050,
   1689582458, 821501520, 2547114, 1295613264, 1158585962, 310408030, 1661966906, 1959808578],
  [1696305817, 1928514525, 988453743, 793591094, 1659804332, 1257335483, 454541729, 1201605894,
   2099818059, 1161560811, 586310194, 616638377, 836042585, 1795321480, 378527913, 360563239,
   1020579324, 1409232628, 968100823, 381460422, 853465574, 1634380793, 1305003774, 2100786068],
  [737516727, 1387822925, 886558472, 1475430545, 686991568, 1050218543, 1890154454, 2097035571,
   797170769, 1841771197, 678654608, 2105541778, 1656895512, 980031348, 1498112215, 1557320282,
   1543569588, 1753213541, 1114531617, 2125203870, 1562306436, 1986351643, 1936827279, 1793964305]]

/-- RC, rounds 8 to 15 (42_parameter_roms.md R134). -/
def rcRows1 : List (List Nat) := [
  [305903670, 1380727884, 1431686982, 1728989510, 649211366, 994002608, 224619129, 2119801345,
   80824188, 66235160, 107475665, 804673399, 1745034271, 559331236, 1451658078, 1611128058,
   2030855749, 1674384966, 951133704, 672097270, 1053576175, 241536194, 526383213, 2146282521],
  [62717858, 689687948, 797936821, 93149137, 2054405497, 1382271016, 1510511329, 1559288461,
   724824169, 759313752, 1739050584, 432867915, 745821599, 156684809, 1511167709, 1879628109,
   1272413377, 1942532085, 1275748203, 1015344782, 1071444031, 178234639, 2099558677, 1701383419],
  [28241981, 958252334, 482794147, 934887598, 2122350783, 681161971, 635623952, 1389869742,
   1066212181, 220607938, 1185154718, 1109122063, 1082969388, 266378454, 1279276968, 365235928,
   789295564, 427216375, 2116654289, 171961757, 957641747, 317985419, 1320759050, 218425361],
  [613643335, 1899745430, 1765401231, 822083890, 32791537, 738174143, 251408940, 1655481583,
   1035114149, 995828032, 1266462330, 113735260, 1670233472, 1935614899, 1931839512, 1215888985,
   572206034, 339442519, 1232302050, 2005187930, 1684744529, 1573533702, 1613035973, 1789813443],
  [1871161044, 633679484, 481248817, 1393623188, 1990985326, 2035257741, 2063121971, 906401241,
   1461653133, 2073650904, 1454320686, 1894718813, 1461937229, 1072957969, 585317942, 1771912265,
   942219974, 356984593, 1079849635, 1317397668, 1631413847, 698288448, 331308704, 1538974610],
  [1190042278, 1745236726, 1418371125, 137314130, 1969566219, 783141590, 2046544024, 1613275465,
   1172302677, 542950514, 970989440, 686346391, 1783724055, 2108064355, 1660589882, 1212155455,
   477650123, 880102102, 1027505214, 948032831, 81969030, 615508883, 1710897693, 215127534],
  [621718403, 445138610, 1392233999, 608431972, 2000462346, 1644282514, 294841379, 1380825727,
   1125237671, 2020686801, 1303468388, 1752144124, 385886929, 267700441, 1226331589, 1524915612,
   2035091248, 264384931, 1566911593, 497709553, 2021752044, 1451617817, 1739454340, 2102647143],
  [961759983, 1398281805, 1302586222, 959912760, 907829607, 1182478992, 832076251, 2039502208,
   1226220537, 1671566586, 1976356658, 671763305, 1614235415, 2118852665, 266458580, 228486488,
   929412372, 2062871877, 2043918248, 323245030, 323866300, 1103363319, 1224290709, 700227991]]

/-- RC, rounds 16 to 23 (42_parameter_roms.md R134). -/
def rcRows2 : List (List Nat) := [
  [742409529, 780800921, 180432056, 1986146069, 1021557123, 736198069, 1894656703, 1886368773,
   1869493517, 859082507, 539982347, 1303276378, 633301185, 352137188, 977343643, 1928826205,
   1853162777, 569353413, 11438874, 1359049670, 2070939704, 398937114, 1714534364, 245711963],
  [1521065960, 868609058, 1084914270, 1485500258, 1114967221, 724449600, 900565896, 1440820156,
   196136197, 1747403803, 309831637, 914750143, 1733688603, 884248228, 752614402, 1190867414,
   1089439488, 431763601, 1555915049, 1478990341, 301958172, 568559216, 1205774331, 1654946027],
  [540110192, 669490902, 309516988, 42089038, 137558672, 1140906979, 1003554723, 731705160,
   948915245, 1365596400, 284514427, 1789807102, 1401705112, 1424796878, 1011966935, 1355284412,
   31627269, 1704119210, 207196613, 713859335, 17005385, 83953573, 722623671, 1904683161],
  [1674792378, 151781667, 390118076, 1697771366, 1115493983, 1995720008, 2082598142, 999319420,
   1053624264, 308732395, 174351881, 2031938840, 1731425190, 1393115961, 327750516, 1483721698,
   1003895529, 2062454105, 1735918892, 992505380, 1757299553, 144512130, 317177746, 1457679464],
  [1007060894, 628218945, 1418024948, 767602721, 1229667238, 790793109, 1845206524, 1263206864,
   569278953, 325285348, 752999718, 1496857724, 862288581, 547807660, 249850981, 1248440389,
   1506355656, 1044839994, 1799288127, 1310550730, 791034682, 1306238718, 1880336697, 1923323759],
  [1435650091, 389800299, 120429360, 456345799, 1351564554, 1435732464, 1956079981, 1906568762,
   1361919863, 1386198139, 613430548, 1642472864, 94628600, 1727661358, 1413948131, 187845945,
   1230036140, 954399296, 1096180018, 228816537, 63522090, 233992568, 1333421943, 456404560],
  [144474471, 1834821805, 1011791217, 981484898, 1653714133, 68141187, 977304351, 1699374718,
   739274658, 967662094, 750737892, 358640667, 1795301531, 1630585685, 476967939, 1235378079,
   1113361634, 1270435581, 287192065, 2028923426, 1819161364, 1841986828, 969307295, 1960952107],
  [95177871, 181432416, 1984769328, 844529045, 1459793581, 879025948, 140313626, 355981698,
   1856409627, 833409091, 730841176, 1450521715, 1302962926, 1625797371, 1576160071, 127393962,
   1863020186, 2123687070, 1944937293, 420798353, 1823042164, 1961703460, 256305883, 906303278]]

/-- RC, rounds 24 to 31 (42_parameter_roms.md R134). -/
def rcRows3 : List (List Nat) := [
  [1447249263, 815452249, 1824838483, 1264483127, 392277133, 730075095, 1825970131, 379433602,
   1455040759, 1133969659, 804390672, 102881184, 606595396, 1836158063, 595420020, 1857379909,
   1826915935, 1882284758, 1120710250, 1268906055, 1872594280, 1091932763, 141868447, 278640888],
  [873916933, 1905234249, 1081811900, 38221592, 228352288, 523443533, 1417848584, 1254574665,
   1334169467, 1941812864, 1062250699, 642724369, 984528, 1875712715, 1037349220, 167833026,
   1539605088, 1026157102, 647668556, 22532900, 2104324430, 160062885, 655831143, 2068960572],
  [745086663, 1704792818, 107430090, 601895933, 1068070823, 218995609, 821603302, 1885959964,
   438958501, 1371826988, 211446172, 1642913548, 348323697, 1754886939, 567173524, 1712761230,
   1627483869, 332251279, 1744878514, 1870164864, 1645842097, 284501773, 132478103, 1478547720],
  [72707393, 1398975251, 1567002668, 711122354, 1391263781, 673725300, 1538337637, 1434819978,
   1888153950, 905022925, 1517558251, 1984640447, 1336197148, 785568135, 537461263, 858321825,
   2055236901, 282086679, 1338501112, 1922098028, 140456159, 496892053, 783111345, 1396701369],
  [415717714, 490597396, 125943240, 1571255178, 657816792, 1137047411, 591195998, 1892977173,
   355674605, 678495676, 1696053267, 2103197079, 1634608042, 1458705438, 1264136336, 2007323319,
   615712020, 1192679233, 1689476337, 1853804337, 111282437, 1557603302, 872330096, 232566941],
  [1689578059, 78405913, 860658935, 723804393, 1803930377, 33137085, 2145540183, 785961597,
   1307807477, 1891506227, 1265326213, 863620366, 1312647028, 135591824, 1119352964, 726813117,
   365902721, 132548923, 537224238, 815913565, 2028036685, 2051671708, 597301755, 1911248731],
  [546407837, 1750099807, 1274731141, 1175047414, 996574268, 1390077129, 2046773915, 1480195741,
   2015356004, 1617834173, 1824717236, 1799152225, 675478279, 294284987, 1770223198, 894134611,
   1522285303, 811271034, 956344511, 1789825899, 1193720421, 208256663, 1140939649, 1586075405],
  [1697632699, 1719665854, 442341908, 1252185001, 880733532, 655647009, 1508885441, 1031286877,
   334384862, 990288700, 1015316691, 1163986188, 110906697, 850483943, 1493684798, 1832862614,
   1732819905, 989557171, 1399393746, 666150353, 1796749255, 1630227670, 222589723, 1215858000]]

/-- RC, rounds 32 to 39 (42_parameter_roms.md R134). -/
def rcRows4 : List (List Nat) := [
  [430014578, 827152581, 523415321, 1735722125, 2062269477, 1026984328, 725410340, 1656429247,
   1085178821, 272571818, 1924473534, 540779116, 720319325, 1628724136, 691597442, 1218792691,
   1521161021, 911440392, 289408278, 1060543329, 1455416699, 552241880, 1817182309, 1451790787],
  [1551152005, 1853701533, 924252578, 75353768, 1733413684, 758630579, 675681021, 1367604136,
   1171415725, 1985549878, 1774532062, 113053545, 1717214900, 418239048, 1770931078, 883316708,
   353730526, 300284993, 222067031, 919695500, 1137490367, 1546339687, 753904904, 1961835691],
  [904577216, 329755356, 826362104, 335350571, 1003034798, 192323681, 1991835615, 541786922,
   1322111933, 360554632, 307297045, 408991378, 839740421, 1570589342, 708308311, 13112137,
   1425882275, 2043472276, 1067251680, 208281884, 1988059003, 2013573264, 1935741629, 2061088289],
  [162062330, 742904053, 823681990, 1385068383, 1651418381, 1486646515, 600371477, 817812529,
   1587333159, 615404711, 443707180, 1054651889, 1429067584, 2033708516, 1769378781, 285077759,
   596002887, 1085195378, 1128632479, 1780718442, 93698739, 606569129, 668526117, 1036257300],
  [823818193, 1659261968, 1397723224, 1861688393, 1916569706, 1750115691, 1333861893, 1966523504,
   79165199, 1089740626, 1584341130, 1471242032, 98938728, 1760954220, 848496035, 1386305525,
   1806714519, 583056701, 900923075, 209827505, 1566662607, 1519280266, 1270934696, 2144221765],
  [564348581, 95341910, 486669389, 1178391470, 1034392196, 1355901063, 411627912, 501222731,
   323145406, 807313644, 1338643161, 690993463, 1003914276, 2053871194, 1982451656, 1522044483,
   1212039735, 1294339101, 1310623493, 1383697645, 483155666, 869161564, 401189818, 1957675789],
  [1641431429, 644666282, 179684980, 1925568515, 1458355932, 1704583520, 406020199, 154194138,
   1031418274, 857554820, 793450212, 759951355, 1081854230, 2017482975, 440842107, 1159465102,
   396358504, 1636148068, 1688174126, 1570924090, 1903408015, 2146016498, 1379052293, 313917730],
  [2102751685, 217128344, 1890112717, 631032893, 1369042937, 274366061, 1960845698, 828699480,
   779982878, 1167020771, 1304937660, 1680954133, 1427043539, 325045028, 1854746892, 245885965,
   307061729, 309147613, 1281029237, 1215787026, 2095236439, 1265197513, 177914174, 1232375419]]

/-- RC, rounds 40 to 47 (42_parameter_roms.md R134). -/
def rcRows5 : List (List Nat) := [
  [375545293, 1077193921, 886117374, 1361782949, 1681783798, 352100082, 210102175, 100542494,
   1305715042, 1358741046, 37033257, 906014146, 678077871, 960140703, 270655203, 1873970091,
   170704592, 425518190, 1831249631, 1594050910, 960289775, 1461495813, 483566732, 1785102061],
  [1652586122, 1987546339, 1077030010, 525689463, 201714352, 573110947, 503110435, 735937829,
   764118399, 149843739, 1902197729, 757142425, 1809224320, 1782756051, 1469157632, 1315473858,
   1648690037, 1946560247, 1341659058, 614972018, 1708853359, 1846387677, 362004416, 1457887069],
  [1057916552, 468389085, 573610773, 1468152696, 756686009, 2086878384, 1756723857, 468885793,
   789737444, 1082266941, 1608747301, 1464843834, 29234793, 2102117656, 964244665, 937146343,
   729928899, 1770974027, 1274433170, 1300778789, 1025047154, 1759550252, 558122636, 830123524],
  [1892211769, 392010227, 1039213857, 780586425, 1999355697, 286173866, 1016455523, 755006059,
   1237610112, 386533290, 1140305002, 986742193, 748661158, 1176450902, 513279150, 223964710,
   950062678, 716015278, 1262069556, 112959660, 2114170941, 1363062286, 713491886, 1874289385],
  [1693998391, 1738694484, 1117590046, 1868474714, 1441401477, 16070799, 352708512, 1795605910,
   734193017, 1425523034, 478940916, 1256331100, 991258316, 828771088, 1646120929, 383985089,
   442344328, 1622900278, 1453587826, 1962030248, 1898759827, 1972192701, 1916014388, 1784980649],
  [1393834245, 886720819, 1325337124, 385317730, 1858903260, 1140440468, 92207292, 826285322,
   1329776144, 1852083111, 1179186559, 1283919596, 747990220, 768466648, 1631272926, 1527492936,
   1474448670, 1697673267, 1597714833, 2071804836, 1281695859, 623336103, 2029891112, 853522057],
  [571130736, 683357794, 33094654, 739849629, 1021767630, 496578309, 1679102514, 1262674440,
   1885868883, 2043042365, 1664886554, 827279832, 176492719, 846384858, 429821533, 2057068160,
   2079008569, 448823513, 85384798, 381797419, 860667334, 2123213620, 1262016789, 1772754932],
  [2029501749, 1552717603, 1369594103, 227785123, 722146634, 643738909, 646237253, 15910528,
   360020149, 600478361, 1823211147, 895226634, 1090432594, 1460944187, 2051837975, 97842148,
   1036927905, 1167367877, 1682891354, 1896972441, 1982930162, 1491989946, 2084742697, 326727707]]

/-- RC, rounds 48 to 55 (42_parameter_roms.md R134). -/
def rcRows6 : List (List Nat) := [
  [2066888067, 939837892, 1840785345, 1867293674, 461676745, 1073021413, 228854537, 1974878295,
   689472368, 364579314, 814515305, 755663873, 28616126, 662445298, 932611076, 318625139,
   168898947, 628924798, 1689419993, 363570237, 1083398669, 1524771207, 1861042664, 544003203],
  [1338708277, 52625718, 817944367, 2012796280, 716569101, 333854445, 666109565, 1507530914,
   2016095144, 645390028, 81348249, 1954644458, 589145760, 896554483, 165350724, 797396933,
   161102970, 917611145, 2039961103, 1110750472, 1559991542, 46386095, 372826992, 952291544],
  [646378717, 2133325166, 744706737, 1329241230, 806955750, 1341393054, 1102284586, 1050886891,
   1394322849, 971417337, 1724320658, 769964237, 1037651876, 594956875, 1995187149, 190103671,
   758773624, 1400302931, 921807342, 418495838, 567968751, 1256654811, 1335695574, 800051284],
  [848652879, 1314491382, 425549736, 1893960007, 1988117582, 1979882632, 1870593109, 252345063,
   374752300, 36422140, 871545315, 2120042764, 1824345484, 946210717, 1568373376, 1180832339,
   1810401869, 917685657, 502800652, 1620974364, 566747817, 408004696, 121235134, 605428175],
  [939882584, 869356330, 1451671933, 1681077886, 207875034, 972223971, 2054947464, 1310598156,
   631832433, 248956510, 977313082, 1604586335, 1088397848, 1920685097, 1116930937, 819945064,
   1788422907, 250443071, 1940652511, 1553727043, 1250742697, 342108234, 1894611096, 1958120632],
  [2096916299, 1782257989, 165680921, 1925373007, 1015786981, 1642471200, 1746224008, 1654507864,
   244357761, 257028437, 1884331872, 1872457954, 255781342, 2085168, 396222349, 1602638568,
   1361617076, 124675359, 805728162, 2130620304, 1307113418, 2020350322, 1006116330, 364476809],
  [2083464859, 1915603352, 855160062, 1773354556, 686524405, 1974292405, 380974782, 825719087,
   1994251251, 507032439, 60562419, 186821677, 1456107138, 88158063, 1734931540, 960735422,
   279044148, 1681165678, 1335841945, 123350431, 637265046, 111909792, 795841668, 985367786],
  [858955105, 149559911, 59128543, 954439152, 1711086037, 982191334, 403200259, 1764627244,
   1913876625, 1447355990, 588946114, 902396942, 1286881221, 141548595, 906645141, 1481210852,
   1682868196, 1509170559, 421375664, 1181067291, 824417809, 863682025, 1042751052, 32798916]]

/-- RC, rounds 56 to 63 (42_parameter_roms.md R134). -/
def rcRows7 : List (List Nat) := [
  [126536286, 445367993, 565525947, 874332800, 668622289, 1273167694, 1359441309, 1363791383,
   1928858402, 819398261, 898329502, 1254094724, 215640384, 825067974, 1473955760, 1532345821,
   33587195, 768434568, 2118709730, 778667622, 1388051380, 2048511173, 1158496155, 1440688128],
  [1252366963, 1488691034, 305646471, 60180386, 1639559636, 370686351, 1285985050, 16313838,
   1567663961, 1345902308, 1544565913, 2126326489, 1086188823, 74180162, 1737973988, 1962466643,
   349244230, 606084347, 1052957974, 1504238310, 720559364, 1341834645, 1523945201, 1471352569],
  [1483904768, 690147596, 1678540322, 1029448029, 1944047863, 1300234198, 1370333777, 294624490,
   1600241782, 1483277854, 1408053660, 1418279256, 2127319952, 151060571, 1309678280, 2045131155,
   477986644, 491748656, 265725363, 2053128526, 1339553074, 181881276, 632556069, 2081169660],
  [616676903, 36119126, 699335440, 536686729, 259279660, 2094817420, 1354920385, 102229261,
   1484072544, 1590149611, 1328618084, 1723053517, 843048771, 642548764, 2055648320, 143763443,
   855142126, 1588337494, 830591285, 692333579, 677347804, 1586036865, 1917383098, 1723200218],
  [1254130561, 213263810, 1333181595, 486177733, 1256194646, 1850049296, 305610359, 383206442,
   757049031, 1628242597, 59060703, 1074303351, 2017170684, 18691681, 1564577278, 1803957404,
   1610893695, 262773592, 476290931, 1771865322, 2096114191, 885796704, 887914862, 133761074],
  [2125373198, 1914549131, 1874955586, 296277386, 977858194, 1466167884, 775366655, 1040824762,
   694970049, 263229679, 844087160, 1690627570, 275575095, 200624800, 887258379, 998923436,
   1434010372, 1577391390, 1723209966, 703421800, 621516471, 1570708572, 1897049172, 2074923175],
  [1925422498, 596071772, 1392726745, 1010137442, 1727144271, 1542510678, 233155499, 905157067,
   881947266, 194937824, 383052698, 118423040, 64732865, 784475685, 361923923, 250304360,
   1217004792, 632756826, 1519280711, 1120768801, 1881724449, 1528779434, 1204497612, 950790098],
  [1603938557, 1086010466, 86351886, 1455447952, 849035855, 1646896117, 1001030205, 2126254911,
   427173503, 1024071591, 248398809, 26209791, 1338084767, 1069844112, 629006604, 1126463634,
   1678519780, 861131413, 1486942197, 1905836674, 2076266993, 275635490, 43493512, 627640695]]

/-- The round-constant ROM of R134: one list a round, one entry a lane. -/
def rcTable : List (List Nat) :=
  rcRows0 ++ rcRows1 ++ rcRows2 ++ rcRows3 ++ rcRows4 ++ rcRows5 ++ rcRows6 ++ rcRows7

/-- The mixing-matrix ROM of R138: one list a row, one entry a column. -/
def mixTable : List (List Nat) := [
  [10, 14, 2, 6, 5, 7, 1, 3, 5, 7, 1, 3, 5, 7, 1, 3, 5, 7, 1, 3, 5, 7, 1, 3],
  [8, 12, 2, 2, 4, 6, 1, 1, 4, 6, 1, 1, 4, 6, 1, 1, 4, 6, 1, 1, 4, 6, 1, 1],
  [2, 6, 10, 14, 1, 3, 5, 7, 1, 3, 5, 7, 1, 3, 5, 7, 1, 3, 5, 7, 1, 3, 5, 7],
  [2, 2, 8, 12, 1, 1, 4, 6, 1, 1, 4, 6, 1, 1, 4, 6, 1, 1, 4, 6, 1, 1, 4, 6],
  [5, 7, 1, 3, 10, 14, 2, 6, 5, 7, 1, 3, 5, 7, 1, 3, 5, 7, 1, 3, 5, 7, 1, 3],
  [4, 6, 1, 1, 8, 12, 2, 2, 4, 6, 1, 1, 4, 6, 1, 1, 4, 6, 1, 1, 4, 6, 1, 1],
  [1, 3, 5, 7, 2, 6, 10, 14, 1, 3, 5, 7, 1, 3, 5, 7, 1, 3, 5, 7, 1, 3, 5, 7],
  [1, 1, 4, 6, 2, 2, 8, 12, 1, 1, 4, 6, 1, 1, 4, 6, 1, 1, 4, 6, 1, 1, 4, 6],
  [5, 7, 1, 3, 5, 7, 1, 3, 10, 14, 2, 6, 5, 7, 1, 3, 5, 7, 1, 3, 5, 7, 1, 3],
  [4, 6, 1, 1, 4, 6, 1, 1, 8, 12, 2, 2, 4, 6, 1, 1, 4, 6, 1, 1, 4, 6, 1, 1],
  [1, 3, 5, 7, 1, 3, 5, 7, 2, 6, 10, 14, 1, 3, 5, 7, 1, 3, 5, 7, 1, 3, 5, 7],
  [1, 1, 4, 6, 1, 1, 4, 6, 2, 2, 8, 12, 1, 1, 4, 6, 1, 1, 4, 6, 1, 1, 4, 6],
  [5, 7, 1, 3, 5, 7, 1, 3, 5, 7, 1, 3, 10, 14, 2, 6, 5, 7, 1, 3, 5, 7, 1, 3],
  [4, 6, 1, 1, 4, 6, 1, 1, 4, 6, 1, 1, 8, 12, 2, 2, 4, 6, 1, 1, 4, 6, 1, 1],
  [1, 3, 5, 7, 1, 3, 5, 7, 1, 3, 5, 7, 2, 6, 10, 14, 1, 3, 5, 7, 1, 3, 5, 7],
  [1, 1, 4, 6, 1, 1, 4, 6, 1, 1, 4, 6, 2, 2, 8, 12, 1, 1, 4, 6, 1, 1, 4, 6],
  [5, 7, 1, 3, 5, 7, 1, 3, 5, 7, 1, 3, 5, 7, 1, 3, 10, 14, 2, 6, 5, 7, 1, 3],
  [4, 6, 1, 1, 4, 6, 1, 1, 4, 6, 1, 1, 4, 6, 1, 1, 8, 12, 2, 2, 4, 6, 1, 1],
  [1, 3, 5, 7, 1, 3, 5, 7, 1, 3, 5, 7, 1, 3, 5, 7, 2, 6, 10, 14, 1, 3, 5, 7],
  [1, 1, 4, 6, 1, 1, 4, 6, 1, 1, 4, 6, 1, 1, 4, 6, 2, 2, 8, 12, 1, 1, 4, 6],
  [5, 7, 1, 3, 5, 7, 1, 3, 5, 7, 1, 3, 5, 7, 1, 3, 5, 7, 1, 3, 10, 14, 2, 6],
  [4, 6, 1, 1, 4, 6, 1, 1, 4, 6, 1, 1, 4, 6, 1, 1, 4, 6, 1, 1, 8, 12, 2, 2],
  [1, 3, 5, 7, 1, 3, 5, 7, 1, 3, 5, 7, 1, 3, 5, 7, 1, 3, 5, 7, 2, 6, 10, 14],
  [1, 1, 4, 6, 1, 1, 4, 6, 1, 1, 4, 6, 1, 1, 4, 6, 1, 1, 4, 6, 2, 2, 8, 12]]

/-- Every entry of RC is the one R134 writes out. -/
theorem rcEntry_table :
    rcTable = (List.range 64).map fun i => (List.range 24).map fun l => (rcEntry i l).val := by
  decide +kernel

/-- Every entry of M is the one R138 writes out. -/
theorem mixEntry_table :
    mixTable = (List.range 24).map fun r => (List.range 24).map fun c => (mixEntry r c).val := by
  decide +kernel

/-- The checksums of R134: the sum mod P, the XOR, the least and the greatest entry. -/
theorem rcTable_checksums :
    (rcTable.map List.length).sum = 1536 ∧ (rcTable.map List.sum).sum % P = 271890120 ∧
    (rcTable.map fun r => r.foldl (· ^^^ ·) 0).foldl (· ^^^ ·) 0 = 1409656706 ∧
    (rcTable.map fun r => r.foldl min P).foldl min P = 984528 ∧
    (rcTable.map fun r => r.foldl max 0).foldl max 0 = 2146282521 := by
  decide +kernel

/-- Every entry of M is at most 2·7 = 14 (R137). -/
theorem mixEntry_le (r c : Nat) : (mixEntry r c).val ≤ 14 := by
  have hb : ∀ r < 4, ∀ c < 4, baseEntry r c ≤ 7 := by decide
  have h := hb (r % 4) (Nat.mod_lt _ (by decide)) (c % 4) (Nat.mod_lt _ (by decide))
  have hle : baseEntry (r % 4) (c % 4) * (if r / 4 = c / 4 then 2 else 1) ≤ 14 := by
    split <;> omega
  exact (Nat.mod_le _ _).trans hle

/-- The reduction of an entry of M changes nothing (R137). -/
theorem mixEntry_val (r c : Nat) :
    (mixEntry r c).val = baseEntry (r % 4) (c % 4) * (if r / 4 = c / 4 then 2 else 1) := by
  have hb : ∀ r < 4, ∀ c < 4, baseEntry r c ≤ 7 := by decide
  have h := hb (r % 4) (Nat.mod_lt _ (by decide)) (c % 4) (Nat.mod_lt _ (by decide))
  refine Nat.mod_eq_of_lt (Nat.lt_of_le_of_lt (m := 14) ?_ (by decide))
  split <;> omega

end Sys2Proof.Machine
end

