-- ==== Sys2Proof/Laws/Permutation.lean ====
section
/-! SUPPORT. Each step of the permutation lane by lane, the modulus as a prime, and sums mod P
(43_permutation.md R150 to R160). -/

namespace Sys2Proof.Machine

/-! ## Lane by lane -/

theorem arc_lane (S : Lanes) (i : Nat) (l : Fin 24) : (arc S i)[l] = fadd S[l] (rcEntry i l) := by
  simp only [arc, Fin.getElem_fin, Vector.getElem_ofFn]

theorem sboxFull_lane (S : Lanes) (l : Fin 24) : (sboxFull S)[l] = sbox S[l] := by
  simp only [sboxFull, Fin.getElem_fin, Vector.getElem_ofFn]

theorem sboxPartial_lane (S : Lanes) (l : Fin 24) :
    (sboxPartial S)[l] = if l.val = 0 then sbox S[l] else S[l] := by
  simp only [sboxPartial, Fin.getElem_fin, Vector.getElem_ofFn]

theorem mix_lane (S : Lanes) (c : Fin 24) : (mix S)[c] = fred (columnSum S c) := by
  simp only [mix, Fin.getElem_fin, Vector.getElem_ofFn]

/-- The column sum as a finite sum (R154). -/
theorem columnSum_eq (S : Lanes) (c : Nat) :
    columnSum S c = ∑ r : Fin 24, S[r].val * (mixEntry r c).val := by
  rw [columnSum, Fin.sum_univ_def]

/-- Two lane states with the same lanes are the same. -/
theorem lanes_ext {S T : Lanes} (h : ∀ l : Fin 24, S[l] = T[l]) : S = T :=
  Vector.ext fun i hi => h ⟨i, hi⟩

theorem lanes_ofFn (f : Fin 24 → Fe) (l : Fin 24) : (Vector.ofFn f)[l] = f l := by
  simp only [Fin.getElem_fin, Vector.getElem_ofFn]

theorem initLanes_lane (in1 in2 : Digest) (l : Fin 24) :
    (initLanes in1 in2)[l] = if h1 : l.val < 8 then in1[l.val]
      else if h2 : l.val < 16 then in2[l.val - 8] else 0 := by
  simp only [initLanes, Fin.getElem_fin, Vector.getElem_ofFn]

theorem extractDigest_lane (S : Lanes) (j : Fin 8) : (extractDigest S)[j] = S[8 + j.val] := by
  simp only [extractDigest, Fin.getElem_fin, Vector.getElem_ofFn]

theorem isFullRound_iff (i : Nat) : isFullRound i = true ↔ i < 4 ∨ 60 ≤ i := by
  simp [isFullRound]

theorem rcEntry_val (i l : Nat) :
    (rcEntry i l).val = ((3 ^ (1536 + 24 * i + l)) ^^^ (7 ^ (1536 + 24 * i + l))) % P := rfl

/-- A sum over the lanes, by lane classes: lane 4·I + r for r = 0 to 3, I = 0 to 5 (R163). -/
theorem sum_lanes (f : Nat → Nat) :
    ∑ r : Fin 24, f r = ∑ r : Fin 4, ∑ I : Fin 6, f (4 * I + r) := by
  have h6 : ∀ r, ∑ I : Fin 6, f (4 * I + r) = ∑ I ∈ Finset.range 6, f (4 * I + r) :=
    fun r => Fin.sum_univ_eq_sum_range (fun I => f (4 * I + r)) 6
  rw [Fin.sum_univ_eq_sum_range f 24,
    Fin.sum_univ_eq_sum_range (fun r => ∑ I : Fin 6, f (4 * I + r)) 4]
  simp only [h6, Finset.sum_range_succ, Finset.sum_range_zero]
  ring

/-! ## Arithmetic mod P -/

/-- Sums of congruent terms are congruent. -/
theorem sum_modEq {ι : Type} (s : Finset ι) (f g : ι → Nat) (h : ∀ i ∈ s, f i ≡ g i [MOD P]) :
    (∑ i ∈ s, f i) ≡ (∑ i ∈ s, g i) [MOD P] := by
  classical
  induction s using Finset.induction_on with
  | empty => rfl
  | insert a s ha ih =>
    rw [Finset.sum_insert ha, Finset.sum_insert ha]
    exact (h a (Finset.mem_insert_self a s)).add (ih fun i hi => h i (Finset.mem_insert_of_mem hi))

/-- No odd number from 3 to 46817 divides P. -/
theorem no_odd_divisor :
    ((List.range 153).all fun a => (List.range 153).all fun b =>
      Nat.ble (2 * (153 * a + b) + 1) 1 || Nat.ble 1 (Nat.mod P (2 * (153 * a + b) + 1))) = true := by
  decide +kernel

/-- P = 2^31 - 1 is prime (00_scope.md R9). -/
theorem prime_P : Nat.Prime P := by
  rw [Nat.prime_def_le_sqrt]
  refine ⟨by decide, fun m h2 hm hd => ?_⟩
  have hs : Nat.sqrt P < 46818 := Nat.sqrt_lt.2 (by decide)
  have hodd : m % 2 = 1 := by
    rcases Nat.mod_two_eq_zero_or_one m with h | h
    · exact absurd ((Nat.dvd_of_mod_eq_zero h).trans hd) (by decide)
    · exact h
  have h := List.all_eq_true.1 (List.all_eq_true.1 no_odd_divisor (m / 2 / 153)
    (List.mem_range.2 (by omega))) (m / 2 % 153) (List.mem_range.2 (by omega))
  rw [Nat.div_add_mod, show 2 * (m / 2) + 1 = m by omega,
    show Nat.mod P m = 0 from Nat.mod_eq_zero_of_dvd hd] at h
  simp at h
  omega

/-- The states between the rounds, one round a step, end in the state after all of them. -/
theorem rounds_of_trace {T : Nat → Lanes} {n : Nat} (h : ∀ i < n, T (i + 1) = roundFn (T i) i) :
    (List.range n).foldl roundFn (T 0) = T n := by
  induction n with
  | zero => rfl
  | succ n ih =>
    rw [List.range_succ, List.foldl_append, ih fun i hi => h i (by omega)]
    exact (h n (by omega)).symm

/-- PERM is the state after round 63 (43_permutation.md R157). -/
theorem perm_of_trace {T : Nat → Lanes} (h : ∀ i < 64, T (i + 1) = roundFn (T i) i) :
    perm (T 0) = T 64 := rounds_of_trace h

end Sys2Proof.Machine
end

