-- ==== Sys2Proof/Tests/Slice0.lean ====
section
/-! SUPPORT. Tests with expected results from the spec, and for every statement that has hypotheses a
witness: a concrete state and operands that meet them. -/

namespace Sys2Proof.Tests

open Sys2Proof Sys2Proof.Machine

/-! ## Decoding: each word written out bit by bit from 30_encoding.md R90 and R92 -/

theorem test_decode_nop :
    decode 0b00000000000000000000000000000000#32 = .ok .nop := by decide

theorem test_decode_compress :
    decode 0b00000000000000000000000000000001#32 = .ok .compress := by decide

theorem test_decode_abort :
    decode 0b00000000000000000000000000000010#32 = .ok .abort := by decide

/-- OPC 0x02 with an RSV bit set is no ABORT (44_commands.md R191). -/
theorem test_decode_abort_with_reserved_bit :
    decode 0b00000000000000000000000100000010#32 = .error .reservedBits := by decide

/-- The first OPC that is not assigned (R93). -/
theorem test_decode_first_unassigned :
    decode 0b00000000000000000000000000000011#32 = .error .opcodeNotAssigned := by decide

/-- Little-endian bytes, the lowest address first (20_memory.md R65). -/
theorem test_decode_bytes :
    decodeBytes [0x02#8, 0x00#8, 0x00#8, 0x00#8, 0xAA#8] = .ok (.abort, [0xAA#8]) := by decide

theorem test_decode_truncated : decodeBytes [0x00#8, 0x00#8, 0x00#8] = .error .truncated := by decide

theorem test_decodeTableWord :
    decodeTableWord 32 0 = some .nop ∧ decodeTableWord 32 1 = some .compress ∧
    decodeTableWord 32 2 = some .abort ∧ decodeTableWord 32 3 = none ∧
    decodeTableWord 32 0x102 = none := by decide

/-! ## Well-formedness: an ill-formed term for each check -/

theorem test_config_too_small : Config.wellFormed ⟨23, 0⟩ = false := by decide

theorem test_config_too_large : Config.wellFormed ⟨245761, 0⟩ = false := by decide

theorem test_config_bounds :
    Config.wellFormed ⟨24, 0⟩ = true ∧ Config.wellFormed ⟨245760, 0⟩ = true := by decide

/-- No command has an operand (R94): none is ill formed. -/
theorem test_commands_well_formed :
    Instr.wellFormed .nop = true ∧ Instr.wellFormed .compress = true ∧
    Instr.wellFormed .abort = true := by decide

/-- BUF[245760] is past the aperture (20_memory.md R61). -/
theorem test_target_outside_aperture :
    Target.wellFormed (.buf 245760) = false ∧ Target.wellFormed (.buf 245759) = true := by decide

/-- The two spellings of the register map agree (10_state.md R32). -/
theorem test_register_offsets :
    regMap.map Reg.offset = (List.range 14).map (4 * ·) ∧ regMap.length = 14 := by decide

/-! ## Small states -/

/-- The smallest buffer of 00_scope.md R10. -/
def small : Config := ⟨24, 0⟩

/-- An idle block of 24 words. -/
def idle : State := State.resetOf small

/-- The buffer whose listed words hold the listed values. -/
def buffer (ws : List (Nat × Word)) : Memory := writeWords [] ws

/-- `n` words from `w`, all 0. -/
def zeros (w n : Nat) : List (Nat × Word) := (List.range n).map fun j => (w + j, 0#32)

/-- The batch of the example of 44_commands.md R185: pair (0^8, 0^8), output at word 16. -/
def onePair : Descriptor := ⟨1#32, 0#32, 8#32, 8#32, 8#32, 16#32, 8#32⟩

/-- An idle block with that batch set and its inputs written. -/
def loaded : State := { idle with desc := onePair, mem := buffer (zeros 0 16) }

/-- The same block after `ISSUE COMPRESS`. -/
def checking : State := issue 0x00000001#32 loaded

/-- The same block after its check step. -/
def running : State := { checking with phase := .run }

/-- The same with `ISSUE NOP`. -/
def checkingNop : State := issue 0x00000000#32 loaded

/-- A block that has one access to answer. -/
def withAccess (s : State) (a : Access) : State := { s with bus := [.host a] }

/-- The outcome is a next state with the property. -/
def nextHolds (o : Host.Outcome State Fault Refusal) (q : State → Bool) : Bool :=
  match o with
  | .next t => q t
  | .fault _ => false
  | .refused _ => false

theorem nextHolds_spec {o : Host.Outcome State Fault Refusal} {q : State → Bool}
    (h : nextHolds o q = true) : ∃ t, o = .next t ∧ q t = true := by
  cases o with
  | next t => exact ⟨t, rfl, h⟩
  | fault f => cases h
  | refused r => cases h

/-- The outcome is this fault. -/
def faultIs (o : Host.Outcome State Fault Refusal) (f : Fault) : Bool :=
  match o with
  | .next _ => false
  | .fault g => g == f
  | .refused _ => false

theorem faultIs_spec {o : Host.Outcome State Fault Refusal} {f : Fault}
    (h : faultIs o f = true) : o = .fault f := by
  cases o with
  | next t => cases h
  | fault g => simp [faultIs] at h; rw [h]
  | refused r => cases h

/-! ## One step, with the spec's results -/

/-- 44_commands.md R184, the example: STATUS = 0x2 after NOP's check step. -/
theorem test_nop_status : nextHolds (step checkingNop) (fun t => t.statusWord == 0x2#32) = true := by
  decide +kernel

/-- 44_commands.md R181: a NOP word while busy sets BWERR (STATUS 0x11: BUSY and BWERR). -/
theorem test_nop_while_busy :
    nextHolds (step (withAccess checkingNop (.write 0x00004#20 4 0#32)))
      (fun t => t.statusWord == 0x11#32) = true := by decide +kernel

/-- 44_commands.md R191, the corner case: an ABORT while idle changes nothing. -/
theorem test_abort_while_idle :
    nextHolds (step (withAccess loaded (.write 0x00004#20 4 2#32)))
      (fun t => t == { loaded with answer := .ok }) = true := by decide +kernel

/-- 44_commands.md R191, the example's last step: ABORT before pair 2 of 4, STATUS = 0xA, PROGRESS = 2. -/
theorem test_abort_before_pair :
    nextHolds (step { running with
        desc := { onePair with count := 4#32 }, k := 2#32, progress := 2#32, abortReq := true })
      (fun t => t.statusWord == 0xA#32 && t.progress == 2#32) = true := by decide +kernel

/-- 44_commands.md R186, R231: an in1 range that ends one word past the buffer: STATUS 0x206, ERRINFO 1. -/
theorem test_compress_bounds :
    nextHolds (step { checking with desc := { onePair with src1 := 17#32 } })
      (fun t => t.statusWord == 0x206#32 && t.errinfo == 1#32) = true := by decide +kernel

/-- 44_commands.md R188, R231: the word P itself at in1[7]: STATUS 0x406, ERRINFO its index. -/
theorem test_compress_outOfRange :
    nextHolds (step { checking with mem := checking.mem.writeWord 7 0x7FFFFFFF#32 })
      (fun t => t.statusWord == 0x406#32 && t.errinfo == 7#32) = true := by decide +kernel

/-- 44_commands.md R192, the example. -/
theorem test_illegal_command :
    nextHolds (step (issue 0x103#32 loaded))
      (fun t => t.statusWord == 0x106#32 && t.errinfo == 0x103#32) = true := by decide +kernel

/-! ## The datapath, with the worked examples of 41_field_arithmetic.md and 43_permutation.md -/

theorem test_fmul : (fmul 123456789 987654321).val = 2137109934 := by decide

theorem test_sbox : (sbox 1626172032).val = 828275683 := by decide

/-- 43_permutation.md R156: ROUND(0^24, 0). -/
theorem test_round :
    (roundFn (Vector.replicate 24 0) 0).toList.map Fin.val =
      [1514232535, 1943684500, 1583930339, 1235058850, 145039407, 1557259241, 792013670, 644520421,
       531869098, 1157320303, 1037776245, 1185244821, 985739404, 179570122, 226728655, 495504570,
       1102088921, 1076874367, 772994447, 989222366, 1123639547, 1592573882, 391565877, 481488389] := by
  decide +kernel

/-- 43_permutation.md R160: COMPRESS_PAIR(0^8, 0^8). -/
theorem test_compressPair :
    (compressPair (Vector.replicate 8 0) (Vector.replicate 8 0)).toList.map Fin.val =
      [438780777, 1116610944, 1112003163, 1435750789, 1435526935, 2012658529, 1688724504,
       2031735044] := by
  decide +kernel

/-- 20_memory.md R84: the bytes 1, 2, 0, 0 are the element 513. -/
theorem test_leafDigest :
    (leafDigest (Vector.ofFn fun i : Fin 32 => if i.val = 0 then 1#8 else if i.val = 1 then 2#8
      else 0#8))[0].val = 513 := by decide

/-! ## Witnesses: the small states meet the invariant -/

theorem loaded_checked : Checked loaded where
  bounds := by decide
  overlap := by decide
  inputs := by decide +kernel

theorem running_checked : Checked running :=
  checked_of_same_inputs loaded_checked rfl rfl fun _ _ => rfl

theorem loaded_memoryInv : MemoryInv 24 (buffer (zeros 0 16)) where
  sorted := by decide +kernel
  window := by decide +kernel
  whole := by decide +kernel

theorem loaded_inv : Inv loaded where
  config := by decide
  memory := loaded_memoryInv
  busyClear := by decide
  errCode := by decide
  errAborted := by decide
  errInfo := by decide
  errProgress := by decide
  abortBusy := by decide
  cmdlNotAbort := by decide
  checkFresh := by decide
  runPairs := by decide
  runChecked := fun h => absurd h (by decide)
  inReset := fun h => absurd h (by decide)

theorem checking_inv : Inv checking := inv_issue _ loaded_inv rfl (by decide)

theorem checkingNop_inv : Inv checkingNop := inv_issue _ loaded_inv rfl (by decide)

theorem running_inv : Inv running where
  config := by decide
  memory := loaded_memoryInv
  busyClear := by decide
  errCode := by decide
  errAborted := by decide
  errInfo := by decide
  errProgress := by decide
  abortBusy := by decide
  cmdlNotAbort := by decide
  checkFresh := by decide
  runPairs := by decide
  runChecked := fun _ => running_checked
  inReset := fun h => absurd h (by decide)

/-- A COMPRESS whose inputs nothing has written. -/
def unwritten : State := { checking with mem := [] }

theorem unwritten_inv : Inv unwritten where
  config := by decide
  memory := memoryInv_nil _
  busyClear := by decide
  errCode := by decide
  errAborted := by decide
  errInfo := by decide
  errProgress := by decide
  abortBusy := by decide
  cmdlNotAbort := by decide
  checkFresh := by decide
  runPairs := by decide
  runChecked := fun h => absurd h (by decide)
  inReset := fun h => absurd h (by decide)

/-- A NOP issued before anything has been written. -/
def unwrittenNop : State := issue 0x00000000#32 idle

/-- A COMPRESS issued before anything has been written, whose output ends past the buffer. -/
def unwrittenBounds : State :=
  issue 0x00000001#32 { idle with desc := { onePair with dst := 17#32 }, mem := [] }

theorem idle_inv : Inv idle where
  config := by decide
  memory := memoryInv_nil _
  busyClear := by decide
  errCode := by decide
  errAborted := by decide
  errInfo := by decide
  errProgress := by decide
  abortBusy := by decide
  cmdlNotAbort := by decide
  checkFresh := by decide
  runPairs := by decide
  runChecked := fun h => absurd h (by decide)
  inReset := fun h => absurd h (by decide)

/-- The loaded block to which an ABORT comes between its check step and its pair step. -/
def interrupted : State :=
  { loaded with bus := [.engine, .host (.write 0x00004#20 4 0x00000002#32), .engine] }

theorem interrupted_checked : Checked interrupted :=
  checked_of_same_inputs loaded_checked rfl rfl fun _ _ => rfl

/-- The interrupted block after its check step. -/
theorem interrupted_check : step (issue 0x00000001#32 interrupted) =
    .next { popEvent (issue 0x00000001#32 interrupted) with phase := .run } := by
  have hc : Checked (popEvent (issue 0x00000001#32 interrupted)) :=
    checked_of_same_inputs interrupted_checked rfl rfl fun _ _ => rfl
  rw [step_engine (.inr rfl), engineTurn_compress rfl rfl rfl, compressCheck_pass (by decide) hc]
  rfl

/-! ## Witnesses: for each statement with hypotheses, a state and operands that meet them -/

theorem witness_StepRunsTheDecodedCommand :
    (checkingNop.rst = false ∧ EngineNext checkingNop ∧ checkingNop.phase = .check ∧
      decode checkingNop.cmdl = .ok .nop) ∧
    (checking.rst = false ∧ EngineNext checking ∧ checking.phase = .check ∧
      decode checking.cmdl = .ok .compress) ∧
    (running.rst = false ∧ EngineNext running ∧ running.phase = .run) ∧
    ((withAccess running (.write 0x00004#20 4 2#32)).rst = false ∧
      (withAccess running (.write 0x00004#20 4 2#32)).bus = [.host (.write 0x00004#20 4 2#32)] ∧
      decode 2#32 = .ok .abort) := by decide

theorem witness_NopCompletesWithSuccess :
    checkingNop.phase = .check ∧
    ((withAccess running (.write 0x00004#20 4 0#32)).rst = false ∧
      (withAccess running (.write 0x00004#20 4 0#32)).busy = true ∧
      (withAccess running (.write 0x00004#20 4 0#32)).bus = [.host (.write 0x00004#20 4 0#32)]) ∧
    ((withAccess loaded (.write 0x00004#20 4 0#32)).rst = false ∧
      (withAccess loaded (.write 0x00004#20 4 0#32)).phase = .idle ∧
      (withAccess loaded (.write 0x00004#20 4 0#32)).bwerr = false ∧
      (withAccess loaded (.write 0x00004#20 4 0#32)).bus = [.host (.write 0x00004#20 4 0#32)]) := by
  decide

theorem witness_AbortSetsOnlyTheAbortRequest :
    checking.phase ≠ .idle ∧ running.phase ≠ .idle ∧ loaded.phase = .idle := by decide

/-- A NOP, an empty batch, and a batch that passes. -/
theorem witness_AbortDuringTheCheckStepWaitsForAPair :
    checking.phase = .check ∧
    nextHolds (exec .compress { checking with desc := Descriptor.zero })
      (fun t => t.phase == .idle) = true ∧
    nextHolds (exec .compress checking) (fun t => t.phase == .run) = true := by decide +kernel

theorem witness_EmptyBatchSucceeds :
    ({ checking with desc := Descriptor.zero }.phase = .check ∧
      { checking with desc := Descriptor.zero }.desc.count = 0#32) ∧
    idle.desc.count = 0#32 ∧
    ∃ t, exec .compress (issue 0x00000001#32 idle) = .next t :=
  ⟨by decide, by decide, _, rfl⟩

/-- Each range in turn ends one word past the buffer. -/
theorem witness_BoundsErrorNamesTheFirstRange :
    checking.phase = .check ∧ onePair.count ≠ 0#32 ∧
    Descriptor.end1 { onePair with src1 := 17#32 } = 25 ∧
    (Descriptor.end1 { onePair with src2 := 17#32 } ≤ 24 ∧
      Descriptor.end2 { onePair with src2 := 17#32 } = 25) ∧
    (Descriptor.end1 { onePair with dst := 17#32 } ≤ 24 ∧
      Descriptor.end2 { onePair with dst := 17#32 } ≤ 24 ∧
      Descriptor.endD { onePair with dst := 17#32 } = 25) := by decide

/-- Two outputs 7 words apart; an output that shares one word with in1; one with in2. -/
theorem witness_OverlapErrorNamesTheFirstRange :
    checking.phase = .check ∧
    (BoundsPass 32 ⟨2#32, 0#32, 0#32, 8#32, 0#32, 16#32, 7#32⟩ ∧ 1 < 2 ∧ 7 < 8) ∧
    (BoundsPass 24 { onePair with dst := 7#32, src2 := 16#32 } ∧
      7 < Descriptor.end1 { onePair with dst := 7#32 } ∧
      0 < Descriptor.endD { onePair with dst := 7#32 }) ∧
    (BoundsPass 24 { onePair with dst := 15#32 } ∧
      ¬(15 < Descriptor.end1 { onePair with dst := 15#32 }) ∧
      15 < Descriptor.end2 { onePair with dst := 15#32 } ∧
      8 < Descriptor.endD { onePair with dst := 15#32 }) := by decide

/-- All inputs good; P at in1[0], at in1[7] and at in2[7]; in1[7] and in2[7] unwritten. -/
theorem witness_RangeCheckScansInOrder :
    checking.phase = .check ∧ checking.desc.count ≠ 0#32 ∧
    BoundsPass checking.cfg.memWords checking.desc ∧ OverlapPass checking.desc ∧
    (∀ w < 16, checking.mem.readWord w = some 0#32) ∧
    (checking.mem.writeWord 0 0x7FFFFFFF#32).readWord 0 = some 0x7FFFFFFF#32 ∧
    (∀ w < 7, (checking.mem.writeWord 7 0x7FFFFFFF#32).readWord w = some 0#32) ∧
    (checking.mem.writeWord 7 0x7FFFFFFF#32).readWord 7 = some 0x7FFFFFFF#32 ∧
    (∀ w < 15, (checking.mem.writeWord 15 0x7FFFFFFF#32).readWord w = some 0#32) ∧
    (checking.mem.writeWord 15 0x7FFFFFFF#32).readWord 15 = some 0x7FFFFFFF#32 ∧
    (∀ w < 7, (buffer (zeros 0 7)).readWord w = some 0#32) ∧
    (buffer (zeros 0 7)).readWord 7 = none ∧
    (∀ w < 15, (buffer (zeros 0 15)).readWord w = some 0#32) ∧
    (buffer (zeros 0 15)).readWord 15 = none ∧ (0x7FFFFFFF#32 : Word).toNat = P := by decide +kernel

/-- An abort request before a pair; the last pair (COUNT = 1, output at the end of the buffer); a pair
that is not the last (COUNT = 2). -/
theorem witness_PairStepWritesTheCompression :
    ((running.phase = .run ∧ running.k.toNat < running.desc.count.toNat ∧
      { running with abortReq := true }.abortReq = true) ∧
    (running.abortReq = false ∧ 0 + 8 ≤ running.cfg.memWords ∧ 8 + 8 ≤ running.cfg.memWords ∧
      16 + 8 = running.cfg.memWords ∧
      (∀ j : Fin 8, running.mem.readWord (0 + j) =
        some (BitVec.ofNat 32 (Vector.replicate 8 (0 : Fe))[j].val)) ∧
      (∀ j : Fin 8, running.mem.readWord (8 + j) =
        some (BitVec.ofNat 32 (Vector.replicate 8 (0 : Fe))[j].val)) ∧
      running.k.toNat + 1 = running.desc.count.toNat) ∧
    (let two : State := { running with desc := { running.desc with count := 2#32 } };
      two.k.toNat < two.desc.count.toNat ∧ two.k.toNat + 1 ≠ two.desc.count.toNat ∧
      two.desc.src1.toNat + two.k.toNat * two.desc.stride1.toNat = 0 ∧
      two.desc.src2.toNat + two.k.toNat * two.desc.stride2.toNat = 8 ∧
      two.desc.dst.toNat + two.k.toNat * two.desc.strided.toNat = 16)) ∧
    Inv running := ⟨by decide +kernel, running_inv⟩

/-- Idle, at the check step, and at a pair step. -/
theorem witness_CompressFrame :
    (∃ t, exec .compress loaded = .next t) ∧ (∃ t, exec .compress checking = .next t) ∧
    (∃ t, exec .compress running = .next t ∧ t.phase = .idle) := by
  refine ⟨⟨_, rfl⟩, ?_, ?_⟩
  · have hc : Checked checking := checked_of_same_inputs loaded_checked rfl rfl fun _ _ => rfl
    exact ⟨_, compressCheck_pass (by decide) hc⟩
  · refine ⟨_, pairStep_ready (by decide) rfl (pairReady_of_checked running_checked (by decide)), ?_⟩
    rw [pairDone_last (by simp only [pairWritten_k, pairWritten_desc]; decide)]
    rfl

theorem witness_NopAndAbortFrame :
    (∃ t, exec .nop checkingNop = .next t) ∧ (∃ t, exec .nop loaded = .next t ∧
      loaded.phase ≠ .check) ∧ (∃ t, exec .abort running = .next t) ∧
    (∃ t, exec .abort loaded = .next t) :=
  ⟨⟨_, rfl⟩, ⟨_, rfl, by decide⟩, ⟨_, rfl⟩, ⟨_, rfl⟩⟩

/-- The least word that is neither NOP nor COMPRESS nor ABORT, and the example. -/
theorem witness_IllegalCommandCompletesWithError :
    ((issue 3#32 loaded).rst = false ∧ EngineNext (issue 3#32 loaded) ∧
      (issue 3#32 loaded).phase = .check ∧ (issue 3#32 loaded).cmdl ≠ 0#32 ∧
      (issue 3#32 loaded).cmdl ≠ 1#32) ∧
    ((withAccess loaded (.write 0x00004#20 4 0x103#32)).rst = false ∧
      (withAccess loaded (.write 0x00004#20 4 0x103#32)).phase = .idle ∧
      (withAccess loaded (.write 0x00004#20 4 0x103#32)).bwerr = false ∧
      (withAccess loaded (.write 0x00004#20 4 0x103#32)).bus =
        [.host (.write 0x00004#20 4 0x103#32)]) := by decide

/-- No pair yet, and all of them. -/
theorem witness_BatchComputesEveryPair :
    loaded.rst = false ∧ loaded.bus = [] ∧ loaded.phase = .idle ∧ loaded.desc.count ≠ 0#32 ∧
    Checked loaded ∧ 0 < loaded.desc.count.toNat ∧ 1 = loaded.desc.count.toNat :=
  ⟨rfl, rfl, rfl, by decide, loaded_checked, by decide, by decide⟩

/-- A checked batch; over a buffer that nothing has written, a NOP and a COMPRESS that fails the bounds
check; and a pair step. -/
theorem witness_CommandCompletesWithinCountPlusOneSteps :
    (Inv checking ∧ checking.rst = false ∧ checking.bus = [] ∧ checking.busy = true ∧
      ∀ w ∈ scanOrder checking.desc, checking.mem.readWord w ≠ none) ∧
    (Inv unwrittenNop ∧ unwrittenNop.rst = false ∧ unwrittenNop.bus = [] ∧
      unwrittenNop.phase = .check ∧ unwrittenNop.cmdl ≠ 0x00000001#32 ∧ unwrittenNop.mem = []) ∧
    (Inv unwrittenBounds ∧ unwrittenBounds.rst = false ∧ unwrittenBounds.bus = [] ∧
      unwrittenBounds.phase = .check ∧ unwrittenBounds.cmdl = 0x00000001#32 ∧
      ¬BoundsPass unwrittenBounds.cfg.memWords unwrittenBounds.desc ∧ unwrittenBounds.mem = []) ∧
    (Inv running ∧ running.rst = false ∧ running.bus = [] ∧ running.busy = true ∧
      running.phase = .run) :=
  ⟨⟨checking_inv, rfl, rfl, rfl, by decide +kernel⟩,
    ⟨inv_issue _ idle_inv rfl (by decide), rfl, rfl, rfl, by decide, rfl⟩,
    ⟨inv_issue _ (inv_withDesc idle_inv rfl rfl _ _ (memoryInv_nil _)) rfl (by decide), rfl, rfl, rfl,
      rfl, by decide, rfl⟩,
    running_inv, rfl, rfl, rfl, rfl⟩

theorem witness_RunPhaseNeverFaults : Inv running ∧ running.phase = .run := ⟨running_inv, rfl⟩

theorem witness_BlockPastItsCheckIsSafeForever :
    (Inv running ∧ running.bus = [] ∧ running.phase ≠ .check) ∧
    (Inv loaded ∧ loaded.bus = [] ∧ loaded.phase ≠ .check) :=
  ⟨⟨running_inv, rfl, by decide⟩, loaded_inv, rfl, by decide⟩

theorem witness_EngineFaultsOnlyOnUnwrittenInputs :
    Inv unwritten ∧ EngineNext unwritten ∧ step unwritten = .fault (.engineReadUnwritten 0) :=
  ⟨unwritten_inv, .inl rfl, faultIs_spec (by decide +kernel)⟩

/-- An illegal command, and a COMPRESS that fails its bounds check. -/
theorem witness_ErrorCompletionIsPrecise :
    (Inv (issue 3#32 loaded) ∧ (issue 3#32 loaded).rst = false ∧ EngineNext (issue 3#32 loaded) ∧
      (issue 3#32 loaded).busy = true ∧
      ∃ t, step (issue 3#32 loaded) = .next t ∧ t.err = true) ∧
    (Inv (issue 1#32 { loaded with desc := { onePair with src1 := 17#32 } }) ∧
      ∃ t, step (issue 1#32 { loaded with desc := { onePair with src1 := 17#32 } }) = .next t ∧
        t.err = true) :=
  ⟨⟨inv_issue _ loaded_inv rfl (by decide), rfl, .inl rfl, rfl, nextHolds_spec (by decide +kernel)⟩,
    inv_issue _ (inv_withDesc loaded_inv rfl rfl { onePair with src1 := 17#32 } _ loaded_memoryInv)
      rfl (by decide), nextHolds_spec (by decide +kernel)⟩

/-- The last word of the last pair, at the end of the buffer. -/
theorem witness_CheckedBatchStaysInsideTheBuffer :
    BoundsPass 24 onePair ∧ 0 < onePair.count.toNat ∧ 7 < 8 ∧ outIndex onePair 0 7 = 23 := by decide

theorem witness_CheckedBatchNeverReadsAnOutputWord :
    OverlapPass ⟨2#32, 0#32, 0#32, 8#32, 0#32, 16#32, 8#32⟩ ∧
    (0 < BitVec.toNat 2#32 ∧ 1 < BitVec.toNat 2#32) ∧
    outIndex ⟨2#32, 0#32, 0#32, 8#32, 0#32, 16#32, 8#32⟩ 0 7 + 1 =
      outIndex ⟨2#32, 0#32, 0#32, 8#32, 0#32, 16#32, 8#32⟩ 1 0 := by decide

theorem witness_ResetMeetsTheInvariant :
    Config.wellFormed ⟨24, 0⟩ = true ∧ Config.wellFormed ⟨245760, 0⟩ = true := by decide

/-- A check step, an access to a running block, and a reset. -/
theorem witness_EveryStepKeepsTheInvariant :
    (Inv checking ∧ ∃ t, step checking = .next t ∧ (t.phase == .run) = true) ∧
    (Inv (withAccess running (.write 0x00010#20 4 5#32)) ∧
      ∃ t, step (withAccess running (.write 0x00010#20 4 5#32)) = .next t ∧ t.bwerr = true) ∧
    (Inv { running with bus := [.reset true] } ∧
      ∃ t, step { running with bus := [.reset true] } = .next t ∧ t.rst = true) :=
  ⟨⟨checking_inv, nextHolds_spec (by decide +kernel)⟩,
    ⟨inv_withIo _ _ running_inv, nextHolds_spec (by decide +kernel)⟩,
    ⟨inv_withIo _ _ running_inv, _, rfl, rfl⟩⟩

theorem witness_DescriptorIsFixedWhileBusy :
    ∃ t, step (withAccess running (.write 0x00010#20 4 5#32)) = .next t ∧
      (running.busy && t.bwerr) = true := nextHolds_spec (by decide +kernel)

theorem witness_HostCannotDisturbARunningCommand :
    Inv (withAccess running (.write 0x00010#20 4 5#32)) ∧
    (withAccess running (.write 0x00010#20 4 5#32)).busy = true ∧
    ∃ t, step (withAccess running (.write 0x00010#20 4 5#32)) = .next t ∧ t.bwerr = true :=
  ⟨inv_withIo _ _ running_inv, rfl, nextHolds_spec (by decide +kernel)⟩

/-- Reads of STATUS while busy and of the last buffer word written while idle. -/
theorem witness_ReadsHaveNoSideEffect :
    (∃ t, step (withAccess running (.read 0x00008#20 4)) = .next t ∧
      (t.answer == .data 1#32) = true) ∧
    (∃ t, step (withAccess loaded (.read 0x1003C#20 4)) = .next t ∧
      (t.answer == .data 0#32) = true) :=
  ⟨nextHolds_spec (by decide +kernel), nextHolds_spec (by decide +kernel)⟩

/-- BWERR set by writes to the first and the last locked register, kept, and cleared. -/
theorem witness_BwerrIsSticky :
    (∃ t, step (withAccess running (.write 0x00010#20 4 5#32)) = .next t ∧ t.bwerr = true) ∧
    (∃ t, step (withAccess running (.write 0x00028#20 4 5#32)) = .next t ∧ t.bwerr = true) ∧
    (∃ t, step { checkingNop with bwerr := true } = .next t ∧ t.bwerr = true) ∧
    (∃ t, step { withAccess loaded (.write 0x00008#20 4 0x10#32) with bwerr := true } = .next t ∧
      (!t.bwerr) = true) :=
  ⟨nextHolds_spec (by decide +kernel), nextHolds_spec (by decide +kernel),
    nextHolds_spec (by decide +kernel), nextHolds_spec (by decide +kernel)⟩

theorem witness_DoneMarksExactlyTheEndOfACommand :
    ∃ t, step checkingNop = .next t ∧
      (!checkingNop.done && t.done && checkingNop.busy && !t.busy) = true :=
  nextHolds_spec (by decide +kernel)

theorem witness_LaneStateChangesOnlyInAPairStep :
    (∃ t, step checking = .next t ∧ t.busy = true) ∧ ¬(checking.phase = .run ∧ EngineNext checking) :=
  ⟨nextHolds_spec (by decide +kernel), by decide⟩

/-- A pair step, a host write while idle, and a reset each change a byte. -/
theorem witness_BufferChangesOnlyByItsOwners :
    (∃ t, step running = .next t ∧ t.mem.read 0x10040 ≠ running.mem.read 0x10040) ∧
    (∃ t, step (withAccess loaded (.write 0x10040#20 4 5#32)) = .next t ∧
      (t.mem.read 0x10040 != loaded.mem.read 0x10040) = true) ∧
    (∃ t, step { loaded with bus := [.reset true] } = .next t ∧
      (t.mem.read 0x10000 != loaded.mem.read 0x10000) = true) := by
  refine ⟨⟨_, (step_run rfl rfl rfl).trans (pairStep_ready (by decide) rfl
    (pairReady_of_checked running_checked (by decide))), ?_⟩,
    nextHolds_spec (by decide +kernel), nextHolds_spec (by decide +kernel)⟩
  have hw := pairWritten_readWord running 0
  rw [pairDone_last (by simp only [pairWritten_k, pairWritten_desc]; decide)]
  intro heq
  change (pairWritten running).mem.read 0x10040 = running.mem.read 0x10040 at heq
  rw [show running.mem.read 0x10040 = none by decide +kernel] at heq
  rw [show outIndex running.desc running.k.toNat (0 : Fin 8).val = 16 by decide] at hw
  unfold Memory.readWord at hw
  rw [show wordOffset 16 = 0x10040 by decide, heq] at hw
  cases hw

/-- The ABORT word and another word, on a busy and on an idle block. -/
theorem witness_CmdWriteDispatches :
    (withAccess running (.write 0x00004#20 4 2#32)).rst = false ∧
    (withAccess running (.write 0x00004#20 4 2#32)).bus = [.host (.write 0x00004#20 4 2#32)] ∧
    (withAccess running (.write 0x00004#20 4 2#32)).busy = true ∧
    (withAccess loaded (.write 0x00004#20 4 2#32)).busy = false ∧
    (withAccess running (.write 0x00004#20 4 3#32)).busy = true ∧
    (withAccess loaded (.write 0x00004#20 4 1#32)).busy = false ∧ (3#32 : Word) ≠ 2#32 := by decide

/-- The first and the last locked register, idle and busy. -/
theorem witness_LockedRegisterWrites :
    ((withAccess loaded (.write 0x00010#20 4 5#32)).rst = false ∧
      (withAccess loaded (.write 0x00010#20 4 5#32)).bus = [.host (.write 0x00010#20 4 5#32)] ∧
      (withAccess loaded (.write 0x00010#20 4 5#32)).busy = false) ∧
    ((withAccess running (.write 0x00028#20 4 5#32)).rst = false ∧
      (withAccess running (.write 0x00028#20 4 5#32)).bus = [.host (.write 0x00028#20 4 5#32)] ∧
      (withAccess running (.write 0x00028#20 4 5#32)).busy = true) := by decide

theorem witness_StatusWriteIsWriteOneToClear :
    ((withAccess loaded (.write 0x00008#20 4 2#32)).rst = false ∧
      (withAccess loaded (.write 0x00008#20 4 2#32)).bus = [.host (.write 0x00008#20 4 2#32)] ∧
      (2#32 : Word).getLsbD 1 = true) ∧
    Inv (withAccess running (.write 0x00008#20 4 0#32)) ∧
    (withAccess running (.write 0x00008#20 4 0#32)).busy = true :=
  ⟨by decide, inv_withIo _ _ running_inv, rfl⟩

theorem witness_CtrlWriteSetsIe :
    (withAccess running (.write 0x0000C#20 4 3#32)).rst = false ∧
    (withAccess running (.write 0x0000C#20 4 3#32)).bus = [.host (.write 0x0000C#20 4 3#32)] := by
  decide

/-- A read-only register, and the first and last words of the two ROM windows. -/
theorem witness_ReadOnlyWritesAreIgnored :
    (withAccess loaded (.write 0x00034#20 4 5#32)).rst = false ∧
    (withAccess loaded (.write 0x00034#20 4 5#32)).bus = [.host (.write 0x00034#20 4 5#32)] ∧
    BitVec.toNat 0x00034#20 % 4 = 0 ∧
    (0x01000 ≤ BitVec.toNat 0x01000#20 ∧ BitVec.toNat 0x027FC#20 < 0x02800 ∧
      BitVec.toNat 0x027FC#20 % 4 = 0) ∧
    (0x03000 ≤ BitVec.toNat 0x03000#20 ∧ BitVec.toNat 0x038FC#20 < 0x03900 ∧
      BitVec.toNat 0x038FC#20 % 4 = 0) := by decide

theorem witness_RegisterReadsReturnTheirValues :
    (withAccess running (.read 0x00034#20 4)).rst = false ∧
    (withAccess running (.read 0x00034#20 4)).bus = [.host (.read 0x00034#20 4)] := by decide

/-- The first and the last word of each ROM window, and of the data window. -/
theorem witness_RomWindowsReadTheRoms :
    (withAccess running (.read 0x027FC#20 4)).rst = false ∧
    (withAccess running (.read 0x027FC#20 4)).bus = [.host (.read 0x027FC#20 4)] ∧
    (0 < 1536 ∧ BitVec.toNat 0x01000#20 = 0x01000 + 4 * 0) ∧
    (1535 < 1536 ∧ BitVec.toNat 0x027FC#20 = 0x01000 + 4 * 1535) ∧
    (0 < 576 ∧ BitVec.toNat 0x03000#20 = 0x03000 + 4 * 0) ∧
    (575 < 576 ∧ BitVec.toNat 0x038FC#20 = 0x03000 + 4 * 575) := by decide

theorem witness_DataWindowAccesses :
    (loaded.rst = false ∧ 0 < loaded.cfg.memWords ∧ BitVec.toNat 0x10000#20 = 0x10000 + 4 * 0 ∧
      loaded.busy = false ∧ loaded.mem.readWord 0 = some 0#32) ∧
    (23 < loaded.cfg.memWords ∧ BitVec.toNat 0x1005C#20 = 0x10000 + 4 * 23 ∧
      loaded.mem.readWord 23 = none) ∧ running.busy = true := by decide +kernel

/-- The four bytes of the last word. -/
theorem witness_BufferWordsAreLittleEndian : 0 < 4 ∧ 3 < 4 := by decide

/-- A size of 1, an offset of 2 mod 4, and the first and the last unmapped offset of each hole. -/
theorem witness_RefusedAccessesGetABusError :
    (withAccess loaded (.read 0x00000#20 1)).rst = false ∧
    (withAccess loaded (.read 0x00000#20 1)).bus = [.host (.read 0x00000#20 1)] ∧ 1 ≠ 4 ∧
    BitVec.toNat 0x00002#20 % 4 ≠ 0 ∧
    (0x00038 ≤ BitVec.toNat 0x00038#20 ∧ BitVec.toNat 0x00FFC#20 < 0x01000) ∧
    (0x02800 ≤ BitVec.toNat 0x02800#20 ∧ BitVec.toNat 0x02FFC#20 < 0x03000) ∧
    (0x03900 ≤ BitVec.toNat 0x03900#20 ∧ BitVec.toNat 0x0FFFC#20 < 0x10000) ∧
    (0x10000 + 4 * loaded.cfg.memWords ≤ BitVec.toNat 0x10060#20 ∧
      0x10000 + 4 * loaded.cfg.memWords ≤ BitVec.toNat 0xFFFFC#20) := by decide

theorem witness_ResetReturnsEveryPieceOfState :
    { running with bus := [.reset true] }.bus = [.reset true] ∧
    ({ withAccess idle (.read 0x00000#20 4) with rst := true }.rst = true ∧
      { withAccess idle (.read 0x00000#20 4) with rst := true }.bus =
        [.host (.read 0x00000#20 4)]) ∧
    ({ idle with rst := true }.rst = true ∧ EngineNext { idle with rst := true }) := by decide

/-- The least, the largest and the worked product. -/
theorem witness_MersenneFoldReduces :
    0 < 2 ^ 62 ∧ 2 ^ 62 - 1 < 2 ^ 62 ∧ 121932631112635269 < 2 ^ 62 := by decide

theorem witness_FetchedWordRunsNext : (Instr.nop ≠ .abort) ∧ (Instr.compress ≠ .abort) := by decide

theorem witness_HostSequenceIssuesABatch :
    idle.rst = false ∧ idle.phase = .idle ∧ idle.bus = [] := by decide

/-- One engine step of the interrupted block, after which the command is still in progress; and its
whole history, the ABORT among it. -/
theorem witness_InterruptedBatchKeepsExactlyItsFirstPairs :
    (interrupted.rst = false ∧ interrupted.phase = .idle ∧ interrupted.desc.count ≠ 0#32 ∧
      Checked interrupted) ∧
    ((∀ level, .reset level ∉ interrupted.bus.take 1) ∧
      (∀ n' < 1, ∀ u, runFor n' (issue 0x00000001#32 interrupted) = .next u → u.busy = true) ∧
      ∃ t, runFor 1 (issue 0x00000001#32 interrupted) = .next t ∧ t.busy = true) ∧
    ((∀ level, .reset level ∉ interrupted.bus.take 3) ∧
      (∀ n' < 3, ∀ u, runFor n' (issue 0x00000001#32 interrupted) = .next u → u.busy = true) ∧
      ∃ t, runFor 3 (issue 0x00000001#32 interrupted) = .next t ∧ t.busy = false ∧
        t.aborted = true) ∧
    (0 < interrupted.desc.count.toNat ∧ interrupted.bus = List.replicate (0 + 1) .engine ++
      .host (.write 0x00004#20 4 0x00000002#32) :: .engine :: []) := by
  have h1 := interrupted_check
  have h2 : step { popEvent (issue 0x00000001#32 interrupted) with phase := .run } =
      .next { issue 0x00000001#32 interrupted with
        bus := [.engine], phase := .run, abortReq := true, answer := .ok } := rfl
  have h3 : ∃ t, step { issue 0x00000001#32 interrupted with
      bus := [.engine], phase := .run, abortReq := true, answer := .ok } = .next t ∧
      t.busy = false ∧ t.aborted = true := ⟨_, rfl, rfl, rfl⟩
  have hbusy : ∀ n' < 3, ∀ u, runFor n' (issue 0x00000001#32 interrupted) = .next u →
      u.busy = true := by
    intro n' hn u hu
    interval_cases n'
    · cases hu; rfl
    · rw [runFor_step 0 h1] at hu; cases hu; rfl
    · rw [runFor_step 1 h1, runFor_step 0 h2] at hu; cases hu; rfl
  obtain ⟨t, ht, hidle, hab⟩ := h3
  exact ⟨⟨rfl, rfl, by decide, interrupted_checked⟩,
    ⟨by simp [interrupted], fun n' hn => hbusy n' (by omega), _,
      (runFor_step 0 h1).trans (runFor_zero _), rfl⟩,
    ⟨by simp [interrupted], hbusy, t,
      (runFor_step 2 h1).trans ((runFor_step 1 h2).trans ((runFor_step 0 ht).trans (runFor_zero _))),
      hidle, hab⟩, by decide, rfl⟩

/-- A batch that nothing interrupts ends, and so falls under the same statement. -/
theorem witness_UninterruptedBatchEnds :
    (∀ n' < 2, ∀ u, runFor n' checking = .next u → u.busy = true) ∧
    ∃ t, runFor 2 checking = .next t ∧ t.busy = false ∧ t.aborted = false := by
  have hc : Checked checking := checked_of_same_inputs loaded_checked rfl rfl fun _ _ => rfl
  have h1 : step checking = .next running := by
    rw [step_engine (.inl rfl), popEvent_of_bus_nil rfl, engineTurn_compress rfl rfl rfl,
      compressCheck_pass (by decide) hc]
    rfl
  have h2 : step running = .next (pairDone (pairWritten running)) := by
    rw [step_run rfl rfl rfl, pairStep_ready (by decide) rfl
      (pairReady_of_checked running_checked (by decide))]
  have hlast : (pairWritten running).k.toNat + 1 = (pairWritten running).desc.count.toNat := by
    simp only [pairWritten_k, pairWritten_desc]; decide
  refine ⟨fun n' hn u hu => ?_, _,
    (runFor_step 1 h1).trans ((runFor_step 0 h2).trans (runFor_zero _)), ?_, ?_⟩
  · interval_cases n'
    · cases hu; rfl
    · rw [runFor_step 0 h1] at hu; cases hu; rfl
  · rw [pairDone_last hlast]; rfl
  · rw [pairDone_last hlast]; rfl

/-- An ABORT before the check step. -/
theorem witness_InterruptedBeforeItsCheck :
    let s : State := { loaded with
      bus := [.host (.write 0x00004#20 4 0x00000002#32), .engine, .engine] }
    s.rst = false ∧ s.phase = .idle ∧ s.desc.count ≠ 0#32 ∧ Checked s ∧
    s.bus = .host (.write 0x00004#20 4 0x00000002#32) :: .engine :: .engine :: [] :=
  ⟨rfl, rfl, by decide, checked_of_same_inputs loaded_checked rfl rfl fun _ _ => rfl, rfl⟩

/-- The states between the rounds of the pair (0^8, 0^8). -/
theorem witness_InitAndExtractSegments :
    let T : Nat → Lanes := fun n =>
      (List.range n).foldl roundFn (initLanes (Vector.replicate 8 0) (Vector.replicate 8 0))
    T 0 = initLanes (Vector.replicate 8 0) (Vector.replicate 8 0) ∧
    ∀ i < 64, T (i + 1) = roundFn (T i) i := by
  refine ⟨rfl, fun i _ => ?_⟩
  dsimp only
  rw [List.range_succ, List.foldl_append]
  rfl

end Sys2Proof.Tests
end

section
/-! The BWERR flag, the interrupt line and the values after reset (10_state.md R40, R51, R52). -/

namespace Sys2Proof.Machine

/-! ## BWERR after each kind of step (10_state.md R40) -/

theorem pairDone_bwerr (s : State) : (pairDone s).bwerr = s.bwerr := by
  obtain ⟨-, -, -, -, -, hbwerr, -⟩ := pairDone_frame s
  exact hbwerr

theorem compressCheck_bwerr {s t : State} (h : compressCheck s = .next t) :
    t.bwerr = s.bwerr := by
  rcases compressCheck_cases h with ⟨-, rfl⟩ | ⟨-, _, -, rfl⟩ | ⟨-, -, _, -, rfl⟩ |
    ⟨-, -, _, -, _, -, -, -, rfl⟩ | ⟨-, -, rfl⟩ <;> rfl

theorem pairStep_bwerr {s t : State} (h : pairStep s = .next t) : t.bwerr = s.bwerr := by
  rcases pairStep_cases h with ⟨-, rfl⟩ | ⟨-, -, rfl⟩ | ⟨-, -, -, rfl⟩
  · rfl
  · exact complete_bwerr ..
  · rw [pairDone_bwerr, pairWritten_bwerr]

/-- The engine never touches BWERR: completion leaves it unchanged. -/
theorem engineTurn_bwerr {s t : State} (h : engineTurn s = .next t) : t.bwerr = s.bwerr := by
  rcases engineTurn_cases h with ⟨-, rfl⟩ | ⟨-, -, -, rfl⟩ | ⟨-, -, -, -, rfl⟩ |
    ⟨-, -, -, hcheck⟩ | ⟨-, -, hpair⟩
  · rfl
  · exact complete_bwerr ..
  · exact complete_bwerr ..
  · exact compressCheck_bwerr hcheck
  · exact pairStep_bwerr hpair

theorem lockedWrite_bwerr (d : Descriptor) (s : State) :
    (lockedWrite d s).bwerr = (s.busy || s.bwerr) := by
  unfold lockedWrite
  cases s.busy <;> rfl

/-- A write that is dropped while busy: to a locked register, or to CMD of any word but the ABORT word
(60_exceptions.md R237). -/
abbrev DroppedWhileBusy (addr : Offset) (v : Word) : Prop :=
  (addr = 0x00004#20 ∧ v ≠ 0x00000002#32) ∨ (0x00010 ≤ addr.toNat ∧ addr.toNat ≤ 0x00028)

/-- An offset is the one it equals as a number. -/
theorem offset_eq_iff (addr : Offset) {n : Nat} (hn : n < 2 ^ 20) :
    addr = BitVec.ofNat 20 n ↔ addr.toNat = n := by
  rw [BitVec.toNat_eq, BitVec.toNat_ofNat, Nat.mod_eq_of_lt hn]

/-- BWERR after a write that is answered: set by a write dropped while busy, cleared by a STATUS write
with bit 4 = 1, and otherwise as before. -/
theorem hostAccess_write_bwerr {addr : Offset} {size : Nat} {v : Word} {s t : State}
    (h : hostAccess (.write addr size v) s = .next t) :
    t.bwerr = true ↔ (s.busy = true ∧ DroppedWhileBusy addr v) ∨
      (s.bwerr = true ∧ (addr = 0x00008#20 → v.getLsbD 4 = false)) := by
  obtain ⟨-, -, -, hcase⟩ := hostAccess_write_cases h
  rw [DroppedWhileBusy, offset_eq_iff addr (by decide), offset_eq_iff addr (by decide)]
  rcases hcase with ⟨ha, hv, rfl⟩ | ⟨ha, hv, rfl⟩ | ⟨ha, rfl⟩ | ⟨ha, rfl⟩ | ⟨hlo, hhi, d, rfl⟩ |
    ⟨w, -, ha, -, rfl⟩ | ⟨ha, rfl⟩
  · cases s.busy <;> simp [ha, hv]
  · cases s.busy <;> simp [ha, hv]
  · simp [ha]
  · simp [ha]
  · have h8 : addr.toNat ≠ 8 := by omega
    simp [lockedWrite_bwerr, hlo, hhi, h8]
  · have h4 : addr.toNat ≠ 4 := by omega
    have h8 : addr.toNat ≠ 8 := by omega
    have hhi : ¬addr.toNat ≤ 0x28 := by omega
    simp [h4, h8, hhi]
  · have h4 : addr.toNat ≠ 4 := by omega
    have h8 : addr.toNat ≠ 8 := by omega
    have hlocked : ¬(0x10 ≤ addr.toNat ∧ addr.toNat ≤ 0x28) := by omega
    simp [h4, h8, hlocked]

/-- Settles O30: BWERR is left alone by the engine and by reads, cleared by reset, and set or cleared
by exactly the writes that R40 names. -/
theorem bwerrIsSticky : Obligations.BwerrIsSticky := by
  unfold Obligations.BwerrIsSticky
  intro s t h
  rcases step_cases h with ⟨hnext, hturn⟩ | ⟨a, rest, hbus, hacc⟩ | ⟨level, rest, hbus, rfl⟩
  · have hkept : t.bwerr = s.bwerr := (engineTurn_bwerr hturn).trans (popEvent_bwerr s)
    rcases hnext with hbus | hbus <;> simp [hbus, hkept]
  · rcases a with ⟨addr, size⟩ | ⟨addr, size, v⟩
    · obtain ⟨-, -, -, v, rfl⟩ := hostAccess_read_cases hacc
      simp [hbus]
    · obtain ⟨-, rfl, -, -⟩ := hostAccess_write_cases hacc
      simp [hbus, hostAccess_write_bwerr hacc]
  · simp [hbus]

/-! ## The interrupt line (10_state.md R51) -/

theorem ctrlWrite_irq (v : Word) (s : State) :
    (ctrlWrite v s).irq = (v.getLsbD 0 && s.done) := rfl

/-- Settles O38: IRQ is IE AND DONE by definition, and each operation says what it leaves of the two. -/
theorem irqFollowsIeAndDone : Obligations.IrqFollowsIeAndDone := by
  unfold Obligations.IrqFollowsIeAndDone
  intro s v
  exact ⟨rfl, ctrlWrite_irq v s, issue_irq v s, fun kind code info => complete_irq kind code info s⟩

/-! ## Reset (10_state.md R52) -/

/-- After reset every flag of STATUS is 0. -/
theorem resetOf_statusWord (c : Config) : (State.resetOf c).statusWord = 0#32 := by
  simp [State.statusWord, State.resetOf, State.busy, errCodeBits]

theorem resetOf_ctrlWord (c : Config) : (State.resetOf c).ctrlWord = 0#32 := by
  simp [State.ctrlWord, State.resetOf]

theorem resetOf_irq (c : Config) : (State.resetOf c).irq = false := rfl

/-- After reset every buffer word is unwritten. -/
theorem resetOf_readWord (c : Config) (w : Nat) : (State.resetOf c).mem.readWord w = none :=
  memory_readWord_nil w

/-- M's contents rule (42_parameter_roms.md R136). -/
theorem mixEntry_val_mod (r c : Nat) : (mixEntry r c).val =
    baseEntry (r % 4) (c % 4) * (if r / 4 = c / 4 then 2 else 1) % P := rfl

/-- Settles O47: the table of R52 row by row; the two ROMs hold what their contents rules give. -/
theorem resetValues : Obligations.ResetValues := by
  unfold Obligations.ResetValues
  intro c
  exact ⟨rfl, rfl, rfl, rfl, rfl, resetOf_statusWord c, resetOf_ctrlWord c,
    rfl, rfl, rfl, rfl, rfl, rfl, rfl, rfl, rfl, rfl, resetOf_irq c,
    resetOf_readWord c, rcEntry_val, mixEntry_val_mod⟩

end Sys2Proof.Machine
end

section
/-! The host's accesses to the ROM windows and the data window, and the accesses that are refused
(20_memory.md R63, R64, R67, R70 to R72). -/

namespace Sys2Proof.Machine

/-! ## A step on an aligned 32-bit access (20_memory.md R61, R62) -/

/-- The block after the host's access has been taken from the history to come. -/
theorem popEvent_eq {s : State} {e : Event} {rest : List Event} (hb : s.bus = e :: rest) :
    popEvent s = { s with bus := rest } := by
  rw [popEvent, hb, List.tail_cons]

theorem step_read_aligned {s : State} {addr : Offset} {rest : List Event} (hr : s.rst = false)
    (hb : s.bus = .host (.read addr 4) :: rest) (h4 : addr.toNat % 4 = 0) :
    step s = hostRead (decodeOffset s.cfg.memWords addr.toNat) { s with bus := rest } := by
  rw [step_host hb, popEvent_eq hb]
  exact hostAccess_read addr hr h4

theorem step_write_aligned {s : State} {addr : Offset} {v : Word} {rest : List Event}
    (hr : s.rst = false) (hb : s.bus = .host (.write addr 4 v) :: rest)
    (h4 : addr.toNat % 4 = 0) :
    step s = hostWrite (decodeOffset s.cfg.memWords addr.toNat) v { s with bus := rest } := by
  rw [step_host hb, popEvent_eq hb]
  exact hostAccess_write addr v hr h4

/-! ## The words of the three windows (20_memory.md R61) -/

theorem decodeOffset_rcRom_word (memWords : Nat) {q : Nat} (hq : q < 1536) :
    decodeOffset memWords (0x01000 + 4 * q) = .rcRom q := by
  rw [decodeOffset_rcRom (by omega), Nat.add_sub_cancel_left, Nat.mul_div_cancel_left q (by decide)]

theorem decodeOffset_mixRom_word (memWords : Nat) {q : Nat} (hq : q < 576) :
    decodeOffset memWords (0x03000 + 4 * q) = .mixRom q := by
  rw [decodeOffset_mixRom (by omega), Nat.add_sub_cancel_left,
    Nat.mul_div_cancel_left q (by decide)]

theorem decodeOffset_data_word {memWords w : Nat} (hw : w < memWords) :
    decodeOffset memWords (0x10000 + 4 * w) = .data w := by
  rw [decodeOffset_data (by omega), Nat.add_sub_cancel_left, Nat.mul_div_cancel_left w (by decide)]

/-! ## The ROM windows (20_memory.md R70) -/

/-- RC's contents rule, as the RC window shows it (42_parameter_roms.md R131, R132). -/
theorem rcRomWord_eq (q : Nat) :
    rcRomWord q = BitVec.ofNat 32 (((3 ^ (1536 + 24 * (q / 24) + q % 24)) ^^^
      (7 ^ (1536 + 24 * (q / 24) + q % 24))) % P) := by
  rw [rcRomWord, feWord, rcEntry_val]

/-- M's contents rule, as the M window shows it (42_parameter_roms.md R135, R136). -/
theorem mixRomWord_eq (q : Nat) :
    mixRomWord q = BitVec.ofNat 32 (if q / 24 / 4 = q % 24 / 4
      then 2 * baseEntry (q / 24 % 4) (q % 24 % 4) else baseEntry (q / 24 % 4) (q % 24 % 4)) := by
  rw [mixRomWord, feWord, mixEntry_val]
  split
  · rw [Nat.mul_comm]
  · rw [Nat.mul_one]

/-- Settles O42: the offset of word q decodes to word q of its ROM, whose contents rule gives the
value read; a write there is answered and changes nothing. -/
theorem romWindowsReadTheRoms : Obligations.RomWindowsReadTheRoms := by
  unfold Obligations.RomWindowsReadTheRoms
  intro s addr rest hr
  refine ⟨fun q hq ha hb => ?_, fun q hq ha hb => ?_, fun q v hwin hb => ?_⟩
  · rw [step_read_aligned hr hb (by omega), ha, decodeOffset_rcRom_word _ hq, hostRead,
      rcRomWord_eq, answered]
  · rw [step_read_aligned hr hb (by omega), ha, decodeOffset_mixRom_word _ hq, hostRead,
      mixRomWord_eq, answered]
    rfl
  · rw [step_write_aligned hr hb (by omega)]
    rcases hwin with ⟨hq, ha⟩ | ⟨hq, ha⟩
    · rw [ha, decodeOffset_rcRom_word _ hq, hostWrite, answered]
    · rw [ha, decodeOffset_mixRom_word _ hq, hostWrite, answered]

/-! ## The data window (20_memory.md R71, R72) -/

theorem hostRead_data_busy {s : State} (w : Nat) (h : s.busy = true) :
    hostRead (.data w) s = .fault (.busError .bufferBusy) := by
  simp [hostRead, h]

theorem hostRead_data_written {s : State} {w : Nat} {v : Word} (h : s.busy = false)
    (hv : s.mem.readWord w = some v) : hostRead (.data w) s = .next (answered (.data v) s) := by
  simp [hostRead, h, hv]

theorem hostRead_data_unwritten {s : State} {w : Nat} (h : s.busy = false)
    (hv : s.mem.readWord w = none) : hostRead (.data w) s = .fault (.hostReadUnwritten w) := by
  simp [hostRead, h, hv]

theorem hostWrite_data_busy {s : State} (w : Nat) (v : Word) (h : s.busy = true) :
    hostWrite (.data w) v s = .fault (.busError .bufferBusy) := by
  simp [hostWrite, h]

theorem hostWrite_data_idle {s : State} (w : Nat) (v : Word) (h : s.busy = false) :
    hostWrite (.data w) v s = .next { answered .ok s with mem := s.mem.writeWord w v } := by
  simp [hostWrite, h]

/-- Settles O43: the access decodes to word w, and `writeWord` is the memory a write leaves: it
holds the value in word w and agrees with the old one at every other byte. -/
theorem dataWindowAccesses : Obligations.DataWindowAccesses := by
  unfold Obligations.DataWindowAccesses
  intro s addr w rest hr hw ha
  have h4 : addr.toNat % 4 = 0 := by omega
  have hd : decodeOffset s.cfg.memWords addr.toNat = .data w := ha ▸ decodeOffset_data_word hw
  refine ⟨fun hb => ?_, fun v hb => ?_⟩
  · rw [step_read_aligned hr hb h4, hd]
    exact ⟨fun hbusy => hostRead_data_busy w hbusy,
      fun hidle _ hv => hostRead_data_written hidle hv,
      fun hidle hv => hostRead_data_unwritten hidle hv⟩
  · rw [step_write_aligned hr hb h4, hd]
    refine ⟨fun hbusy => hostWrite_data_busy w v hbusy, fun hidle => ⟨s.mem.writeWord w v,
      hostWrite_data_idle w v hidle, memory_readWord_writeWord_same .., fun a hout => ?_⟩⟩
    rw [ha] at hout
    exact memory_read_writeWord_other _ _ hout

/-! ## Refused accesses (20_memory.md R63, R64, R67) -/

section
variable {s : State} {a : Access} {addr : Offset} {size : Nat}

/-- An access refused before its offset is decoded, be it a read or a write. -/
theorem hostAccess_early {c : BusErrorCause}
    (ha : a = .read addr size ∨ ∃ v, a = .write addr size v)
    (he : earlyBusError s addr size = some c) : hostAccess a s = .fault (.busError c) := by
  rcases ha with rfl | ⟨v, rfl⟩ <;> simp [hostAccess, he]

/-- An aligned 32-bit access to an unmapped offset, be it a read or a write. -/
theorem hostAccess_unmapped (ha : a = .read addr 4 ∨ ∃ v, a = .write addr 4 v)
    (hr : s.rst = false) (h4 : addr.toNat % 4 = 0)
    (hd : decodeOffset s.cfg.memWords addr.toNat = .unmapped) :
    hostAccess a s = .fault (.busError .unmapped) := by
  rcases ha with rfl | ⟨v, rfl⟩
  · rw [hostAccess_read addr hr h4, hd, hostRead]
  · rw [hostAccess_write addr v hr h4, hd, hostWrite]

end

/-- Settles O45: a wrong size or a misaligned offset is refused before the offset is decoded, and
every offset in a hole of the aperture decodes to no region. -/
theorem refusedAccessesGetABusError : Obligations.RefusedAccessesGetABusError := by
  unfold Obligations.RefusedAccessesGetABusError
  intro s addr size a rest hr ha hb
  rw [step_host hb]
  refine ⟨fun hbad => ?_, fun hsize h4 hhole => ?_⟩
  · have hearly : earlyBusError (popEvent s) addr size ≠ none := by
      rw [Ne, earlyBusError_none_iff]
      omega
    obtain ⟨c, hc⟩ := Option.ne_none_iff_exists'.1 hearly
    exact ⟨c, hostAccess_early ha hc⟩
  · subst hsize
    exact hostAccess_unmapped ha ((popEvent_rst s).trans hr) h4
      (decodeOffset_unmapped (by omega) (by omega) (by omega) (by rw [popEvent_cfg]; omega))

end Sys2Proof.Machine
end

section
/-! Reduction, addition and multiplication as exact residues, and their corner cases
(41_field_arithmetic.md R112 to R114). -/

namespace Sys2Proof.Machine

/-! ## The laws of the three operations -/

theorem fred_val_of_lt {u : Nat} (h : u < P) : (fred u).val = u := Nat.mod_eq_of_lt h

theorem fadd_comm (a b : Fe) : fadd a b = fadd b a := by
  rw [fadd, fadd, Nat.add_comm]

theorem fmul_comm (a b : Fe) : fmul a b = fmul b a := by
  rw [fmul, fmul, Nat.mul_comm]

@[simp] theorem fadd_zero_left (b : Fe) : fadd 0 b = b := by
  rw [fadd, Fin.val_zero, Nat.zero_add, fred_of_fe]

@[simp] theorem fmul_zero_left (b : Fe) : fmul 0 b = 0 := by
  rw [fmul, Fin.val_zero, Nat.zero_mul]
  rfl

@[simp] theorem fmul_one_left (b : Fe) : fmul 1 b = b := by
  rw [fmul, show (1 : Fe).val = 1 from rfl, Nat.one_mul, fred_of_fe]

/-- The exact product fits 62 bits, because each factor fits 31. -/
theorem fe_mul_lt (a b : Fe) : a.val * b.val < 2 ^ 62 :=
  calc a.val * b.val < P * P := Nat.mul_lt_mul'' a.isLt b.isLt
    _ < 2 ^ 62 := by decide

/-! ## The corner cases and worked examples of R112 to R114 -/

theorem fred_examples : fred P = 0 ∧ fred (2 ^ 31) = 1 ∧ fred (2 ^ 62) = 1 ∧ fred 0 = 0 ∧
    (fred 121932631112635269).val = 2137109934 := by decide

theorem fadd_examples : fadd (fred (P - 1)) 1 = 0 ∧
    (fadd (fred (P - 1)) (fred (P - 1))).val = 2147483645 ∧
    (fadd 2000000000 2000000000).val = 1852516353 := by decide

theorem fmul_examples : fmul (fred (P - 1)) (fred (P - 1)) = 1 ∧ fmul (fred (2 ^ 30)) 2 = 1 ∧
    fmul 65536 65536 = 2 ∧ (fmul 123456789 987654321).val = 2137109934 := by decide

/-- Settles O55: the three values are residues by definition; the laws are those of the exact sum and
product before the reduction, and the worked examples are evaluated. -/
theorem fieldOperationsAreExactResidues : Obligations.FieldOperationsAreExactResidues := by
  unfold Obligations.FieldOperationsAreExactResidues
  obtain ⟨hP, h31, h62, hzero, hred⟩ := fred_examples
  obtain ⟨hwrap, hmax, hsum⟩ := fadd_examples
  exact ⟨fun u => ⟨fred_val u, fred_val_of_lt⟩, hP, h31, h62, hzero, hred,
    fun a b => ⟨fadd_val a b, fmul_val a b⟩, fe_mul_lt,
    fun a b => ⟨fadd_zero_left b, fadd_comm a b, fmul_zero_left b, fmul_one_left b, fmul_comm a b⟩,
    hwrap, hmax, hsum, fmul_examples⟩

end Sys2Proof.Machine
end

section
/-! MIX as a row-vector product: its lanes, its linearity and the worked examples
(43_permutation.md R154). -/

namespace Sys2Proof.Machine

/-- Output lane c takes column c of M. -/
theorem mix_val (S : Lanes) (c : Fin 24) :
    (mix S)[c].val = (∑ r : Fin 24, S[r].val * (mixEntry r.val c.val).val) % P := by
  rw [mix_lane, fred_val, columnSum_eq]

/-! ## Linearity -/

/-- The column sums of a lane-by-lane sum add up mod P: each lane is congruent to its exact sum. -/
theorem columnSum_fadd_modEq (a b : Lanes) (c : Nat) :
    columnSum (Vector.ofFn fun l : Fin 24 => fadd a[l] b[l]) c ≡
      columnSum a c + columnSum b c [MOD P] := by
  rw [columnSum_eq, columnSum_eq, columnSum_eq, ← Finset.sum_add_distrib]
  refine sum_modEq _ _ _ fun r _ => ?_
  rw [lanes_ofFn, ← Nat.add_mul]
  exact (Nat.mod_modEq _ _).mul_right _

theorem mix_fadd (a b : Lanes) :
    mix (Vector.ofFn fun l : Fin 24 => fadd a[l] b[l]) =
      Vector.ofFn fun c : Fin 24 => fadd (mix a)[c] (mix b)[c] := by
  refine lanes_ext fun c => Fin.ext ?_
  rw [lanes_ofFn, fadd_val, mix_lane, mix_lane, mix_lane, fred_val, fred_val, fred_val,
    ← Nat.add_mod]
  exact columnSum_fadd_modEq a b c

/-! ## Unit vectors -/

/-- MIX of the unit vector of lane r is row r of M. -/
theorem mix_unit (r : Fin 24) :
    mix (Vector.ofFn fun l : Fin 24 => if l = r then 1 else 0) =
      Vector.ofFn fun c : Fin 24 => mixEntry r.val c.val := by
  refine lanes_ext fun c => ?_
  have hsum : columnSum (Vector.ofFn fun l : Fin 24 => if l = r then 1 else 0) c =
      (mixEntry r.val c.val).val := by
    rw [columnSum_eq, Finset.sum_eq_single r]
    · rw [lanes_ofFn, if_pos rfl, show (1 : Fe).val = 1 from rfl, Nat.one_mul]
    · intro l _ hl
      rw [lanes_ofFn, if_neg hl, Fin.val_zero, Nat.zero_mul]
    · exact fun h => absurd (Finset.mem_univ r) h
  rw [mix_lane, hsum, fred_of_fe, lanes_ofFn]

/-- The same unit vector with its lane named by number, as a list of values. -/
theorem mix_unit_toList (r : Fin 24) :
    (mix (Vector.ofFn fun l : Fin 24 => if l.val = r.val then 1 else 0)).toList.map Fin.val =
      (List.finRange 24).map fun c => (mixEntry r.val c.val).val := by
  simp only [← Fin.ext_iff, mix_unit, Vector.toList_ofFn, List.ofFn_eq_map, List.map_map]
  rfl

/-! ## Uniform states -/

/-- The sum of a column of M: 7·11 in an even column and 7·17 in an odd one. -/
theorem mixEntry_column_sum (c : Fin 24) :
    ∑ r : Fin 24, (mixEntry r.val c.val).val = if c.val % 2 = 0 then 77 else 119 := by
  revert c
  decide

/-- On a state of 24 equal lanes MIX multiplies by the column's sum. -/
theorem mix_replicate_val (x : Fe) (c : Fin 24) :
    (mix (Vector.replicate 24 x))[c].val =
      x.val * (if c.val % 2 = 0 then 77 else 119) % P := by
  rw [mix_val]
  simp only [Fin.getElem_fin, Vector.getElem_replicate]
  rw [← Finset.mul_sum, mixEntry_column_sum]

theorem mix_zero : mix (Vector.replicate 24 0) = Vector.replicate 24 0 := by
  refine lanes_ext fun c => Fin.ext ?_
  rw [mix_replicate_val, Fin.val_zero, Nat.zero_mul]
  simp only [Fin.getElem_fin, Vector.getElem_replicate, Fin.val_zero, Nat.zero_mod]

theorem mix_ones_val (c : Fin 24) :
    (mix (Vector.replicate 24 1))[c].val = if c.val % 2 = 0 then 77 else 119 := by
  rw [mix_replicate_val]
  split <;> rfl

/-- The greatest element is -1 mod P, so the lanes are P - 77 and P - 119. -/
theorem mix_greatest_val (c : Fin 24) :
    (mix (Vector.replicate 24 (fred (P - 1))))[c].val =
      if c.val % 2 = 0 then 2147483570 else 2147483528 := by
  rw [mix_replicate_val]
  split <;> rfl

/-- Settles O50: linearity is that of the exact column sums before the reduction; the examples are the
rows of M at lanes 0 and 23 and the column sums of M. -/
theorem mixIsLinear : Obligations.MixIsLinear := by
  unfold Obligations.MixIsLinear
  exact ⟨mix_val, mix_fadd, mix_unit, by decide, mix_zero, (mix_unit_toList 0).trans (by decide),
    (mix_unit_toList 23).trans (by decide), mix_ones_val, mix_greatest_val⟩

end Sys2Proof.Machine
end

section
/-! The check step of each command: NOP, the empty batch, the range check of COMPRESS, an illegal word
(44_commands.md R184, R188, R190, R192, R197); and what a CMD write does (R181). -/

namespace Sys2Proof.Machine

/-! ## The range check of a batch (44_commands.md R188) -/

/-- The input words of the first k pairs are field elements when those of each pair are. -/
theorem pairScan_holdsField {m : Memory} {d : Descriptor} {k : Nat}
    (h : ∀ i < k, ∀ j < 8, holdsField m (in1Index d i j) = true ∧
      holdsField m (in2Index d i j) = true) :
    ∀ w ∈ (List.range k).flatMap (pairScan d), holdsField m w = true := by
  intro w hw
  simp only [pairScan, List.mem_flatMap, List.mem_range, List.mem_append, List.mem_map] at hw
  obtain ⟨i, hi, ⟨j, hj, rfl⟩ | ⟨j, hj, rfl⟩⟩ := hw
  · exact (h i hi j hj).1
  · exact (h i hi j hj).2

/-- The first j words of one digest are field elements when each of them is. -/
theorem digestScan_holdsField {m : Memory} {index : Nat → Nat} {n : Nat}
    (h : ∀ j < n, holdsField m (index j) = true) :
    ∀ w ∈ (List.range n).map index, holdsField m w = true :=
  List.forall_mem_map.2 fun j hj => h j (List.mem_range.1 hj)

section
variable {s : State} (hp : s.phase = .check) (hn : s.desc.count ≠ 0#32)
  (hb : BoundsPass s.cfg.memWords s.desc) (ho : OverlapPass s.desc)
include hp hn hb ho

theorem exec_compress_range : exec .compress s = rangeCheck (scanOrder s.desc) s := by
  rw [exec_compress, execCompress_check hp, compressCheck_range hn hb ho]

/-- With only field elements before it, the scan comes to a word of its order. -/
theorem exec_compress_scan {pre post : List Nat} {w : Nat}
    (hscan : scanOrder s.desc = pre ++ w :: post)
    (hpre : ∀ u ∈ pre, holdsField s.mem u = true) :
    w < s.cfg.memWords ∧ exec .compress s = rangeCheck (w :: post) s := by
  have hlt : ∀ u ∈ pre ++ w :: post, u < s.cfg.memWords := fun u hu =>
    scanOrder_lt hb (hscan ▸ hu)
  refine ⟨hlt w (by simp), ?_⟩
  rw [exec_compress_range hp hn hb ho, hscan]
  exact rangeCheck_append fun u hu => ⟨hlt u (List.mem_append_left _ hu), hpre u hu⟩

/-- The scan stops at a word that is no field element: OUT_OF_RANGE with its index if it is written, a
fault of the engine step if it is not. -/
theorem exec_compress_stops {pre post : List Nat} {w : Nat}
    (hscan : scanOrder s.desc = pre ++ w :: post)
    (hpre : ∀ u ∈ pre, holdsField s.mem u = true) :
    (∀ v, s.mem.readWord w = some v → P ≤ v.toNat →
      exec .compress s = .next (complete .error .outOfRange (BitVec.ofNat 32 w) s)) ∧
    (s.mem.readWord w = none → exec .compress s = .fault (.engineReadUnwritten w)) := by
  obtain ⟨hw, hexec⟩ := exec_compress_scan hp hn hb ho hscan hpre
  rw [hexec]
  exact ⟨fun v hv hP => rangeCheck_outOfRange hw hv hP, fun hv => rangeCheck_unwritten hw hv⟩

end

/-- Settles O11: the scan order splits at the word in question, and the words before it are scanned
over. -/
theorem rangeCheckScansInOrder : Obligations.RangeCheckScansInOrder := by
  unfold Obligations.RangeCheckScansInOrder
  intro s hp hn hb ho in1 in2 good pairsBefore stops
  have hgood : ∀ w, good w → holdsField s.mem w = true := fun w => (holdsField_iff s.mem w).2
  have hpairs : ∀ k, pairsBefore k →
      ∀ w ∈ (List.range k).flatMap (pairScan s.desc), holdsField s.mem w = true :=
    fun k h => pairScan_holdsField fun i hi j hj => (h i hi j hj).imp (hgood _) (hgood _)
  have hdigest : ∀ (index : Nat → Nat) (n : Nat), (∀ j < n, good (index j)) →
      ∀ w ∈ (List.range n).map index, holdsField s.mem w = true :=
    fun _ _ h => digestScan_holdsField fun j hj => hgood _ (h j hj)
  refine ⟨fun hall => ?_, fun k hk j hj hbefore h1 => ?_, fun k hk j hj hbefore h1 h2 => ?_⟩
  · have hc : Checked s := ⟨hb, ho, hpairs _ hall⟩
    rw [exec_compress, execCompress_check hp, compressCheck_pass hn hc]
  · obtain ⟨post, hscan⟩ := scanOrder_split_in1 hk hj
    exact exec_compress_stops hp hn hb ho hscan
      (List.forall_mem_append.2 ⟨hpairs k hbefore, hdigest _ _ h1⟩)
  · obtain ⟨post, hscan⟩ := scanOrder_split_in2 hk hj
    exact exec_compress_stops hp hn hb ho hscan (List.forall_mem_append.2
      ⟨List.forall_mem_append.2 ⟨hpairs k hbefore, hdigest _ _ h1⟩, hdigest _ _ h2⟩)

/-! ## The end of a command (44_commands.md R190) -/

/-- Settles O16: the writes are `complete` itself, BUSY and IRQ follow from them. -/
theorem completionWritesStatus : Obligations.CompletionWritesStatus := by
  unfold Obligations.CompletionWritesStatus
  intro kind code info s
  exact ⟨rfl, complete_busy kind code info s, complete_irq kind code info s⟩

/-- STATUS after a completion: BUSY = 0, DONE = 1, the flags of the kind and the code (R35, R190). -/
theorem complete_statusWord (kind : Kind) (code : ErrCode) (info : Word) (s : State) :
    (complete kind code info s).statusWord =
      0#20 ++ errCodeBits code ++ 0#3 ++ BitVec.ofBool s.bwerr
        ++ BitVec.ofBool (decide (kind = .aborted)) ++ BitVec.ofBool (decide (kind = .error))
        ++ 1#1 ++ 0#1 := rfl

/-! ## The empty batch (44_commands.md R197) -/

theorem exec_compress_empty {s : State} (hp : s.phase = .check) (hn : s.desc.count = 0#32) :
    exec .compress s = .next (complete .success .none 0#32 s) := by
  rw [exec_compress, execCompress_check hp, compressCheck, if_pos hn]

/-- Settles O8: COUNT = 0 is looked at first, and completion touches neither PROGRESS nor Buf. -/
theorem emptyBatchSucceeds : Obligations.EmptyBatchSucceeds := by
  unfold Obligations.EmptyBatchSucceeds
  refine ⟨fun s hp hn => exec_compress_empty hp hn, fun s t hn h => ?_⟩
  rw [exec_compress_empty (issue_phase _ s) hn] at h
  cases h
  exact ⟨rfl, rfl⟩

/-! ## CMD writes (44_commands.md R181, R182) -/

section
variable {s : State} {v : Word} {rest : List Event} (hr : s.rst = false)
  (hb : s.bus = .host (.write 0x00004#20 4 v) :: rest)
include hr hb

theorem step_cmd_write : step s = cmdWrite v { s with bus := rest, answer := .ok } :=
  step_write_reg hr hb (by decide) (by decide) rfl

/-- A CMD write of the ABORT word runs ABORT. -/
theorem step_cmd_abort (hv : v = 0x00000002#32) :
    step s = execAbort { s with bus := rest, answer := .ok } := by
  rw [step_cmd_write hr hb, hv, cmdWrite_abort, execAbort]

/-- While busy every other word is dropped. -/
theorem step_cmd_dropped (hv : v ≠ 0x00000002#32) (hbusy : s.busy = true) :
    step s = .next (setBwerr { s with bus := rest, answer := .ok }) := by
  rw [step_cmd_write hr hb, cmdWrite_other _ hv]
  exact congrArg _ (if_pos hbusy)

/-- While idle every other word is issued. -/
theorem step_cmd_issued (hv : v ≠ 0x00000002#32) (hidle : s.busy = false) :
    step s = .next (issue v { s with bus := rest, answer := .ok }) := by
  rw [step_cmd_write hr hb, cmdWrite_other _ hv]
  exact congrArg _ (if_neg (ne_true_of_eq_false hidle))

end

/-- Settles O34: the ABORT word against every other word, busy against idle. -/
theorem cmdWriteDispatches : Obligations.CmdWriteDispatches := by
  unfold Obligations.CmdWriteDispatches
  intro s v rest hr hb
  refine ⟨fun hv hbusy => ?_, fun hv hidle => ?_, fun hv hbusy => step_cmd_dropped hr hb hv hbusy,
    fun hv hidle => step_cmd_issued hr hb hv hidle⟩
  · exact (step_cmd_abort hr hb hv).trans (congrArg _ (if_pos hbusy))
  · exact (step_cmd_abort hr hb hv).trans (congrArg _ (if_neg (ne_true_of_eq_false hidle)))

/-- An idle block that is given a CMD write and then left alone: the word is issued, and its check step
follows. -/
theorem runFor_issue_check {s t : State} {v : Word} (hr : s.rst = false) (hp : s.phase = .idle)
    (hv : v ≠ 0x00000002#32) (hb : s.bus = [.host (.write 0x00004#20 4 v)])
    (h : engineTurn (issue v { s with bus := [], answer := .ok }) = .next t) :
    runFor 2 s = .next t := by
  have hissue := step_cmd_issued hr hb hv ((busy_eq_false_iff s).2 hp)
  have hcheck : step (issue v { s with bus := [], answer := .ok }) = .next t := by
    rw [step_engine (.inl rfl), popEvent_of_bus_nil rfl, h]
  rw [runFor_step 1 hissue, runFor_step 0 hcheck, runFor_zero]

/-! ## NOP (44_commands.md R184) -/

theorem exec_nop_check {s : State} (hp : s.phase = .check) :
    exec .nop s = .next (complete .success .none 0#32 s) := by
  simp only [exec_nop, execNop, hp]

/-- Settles O5: NOP at its check step, its word while busy, and the run of two steps from idle. -/
theorem nopCompletesWithSuccess : Obligations.NopCompletesWithSuccess := by
  unfold Obligations.NopCompletesWithSuccess
  refine ⟨fun s hp => exec_nop_check hp,
    fun s rest hr hbusy hb => step_cmd_dropped hr hb (by decide) hbusy, by decide,
    fun s hr hp hbwerr hb => ?_⟩
  refine ⟨_, runFor_issue_check hr hp (by decide) hb (engineTurn_nop hr rfl rfl),
    ?_, rfl, rfl, complete_irq ..⟩
  rw [complete_statusWord, issue_bwerr, hbwerr]
  rfl

/-! ## Illegal words (44_commands.md R192) -/

/-- Settles O15: the check step of a word that is neither NOP nor COMPRESS, and its run of two steps
from idle for the word 0x103. -/
theorem illegalCommandCompletesWithError : Obligations.IllegalCommandCompletesWithError := by
  unfold Obligations.IllegalCommandCompletesWithError
  refine ⟨fun s hr hnext hp h0 h1 => ?_, fun s hr hp hbwerr hb => ?_⟩
  · rw [step_engine hnext]
    exact engineTurn_illegal (s := popEvent s) hr hp h0 h1
  · refine ⟨_, runFor_issue_check hr hp (by decide) hb
      (engineTurn_illegal hr rfl (by simp) (by simp)), ?_, rfl⟩
    rw [complete_statusWord, issue_bwerr, hbwerr]
    rfl

end Sys2Proof.Machine
end

section
/-! The host's writes to the registers other than CMD and to the ROM windows
(44_commands.md R193 to R196). -/

namespace Sys2Proof.Machine

/-! ## Locked registers (44_commands.md R193) -/

/-- The offset of each locked register, and the descriptor `d` with that register set to `v`. -/
def lockedWrites (d : Descriptor) (v : Word) : List (Offset × Descriptor) :=
  [(0x00010#20, { d with count := v }), (0x00014#20, { d with src1 := v }),
    (0x00018#20, { d with stride1 := v }), (0x0001C#20, { d with src2 := v }),
    (0x00020#20, { d with stride2 := v }), (0x00024#20, { d with dst := v }),
    (0x00028#20, { d with strided := v })]

theorem lockedWrite_idle (d : Descriptor) {s : State} (h : s.busy = false) :
    lockedWrite d s = { s with desc := d } := if_neg (ne_true_of_eq_false h)

theorem lockedWrite_busy (d : Descriptor) {s : State} (h : s.busy = true) :
    lockedWrite d s = setBwerr s := if_pos h

/-- A write to the offset of a locked register is the locked write of that register. -/
theorem step_locked_write {s : State} {addr : Offset} {v : Word} {rest : List Event}
    {d : Descriptor} (hr : s.rst = false) (hb : s.bus = .host (.write addr 4 v) :: rest)
    (hd : (addr, d) ∈ lockedWrites s.desc v) :
    step s = .next (lockedWrite d { s with bus := rest, answer := .ok }) := by
  simp only [lockedWrites, List.mem_cons, List.not_mem_nil, or_false, Prod.mk.injEq] at hd
  obtain ⟨rfl, rfl⟩ | ⟨rfl, rfl⟩ | ⟨rfl, rfl⟩ | ⟨rfl, rfl⟩ | ⟨rfl, rfl⟩ | ⟨rfl, rfl⟩ |
    ⟨rfl, rfl⟩ := hd <;> exact step_write_reg hr hb (by decide) (by decide) rfl

/-- Settles O35: the write is `lockedWrite`, which sets the register while idle and BWERR while busy. -/
theorem lockedRegisterWrites : Obligations.LockedRegisterWrites := by
  unfold Obligations.LockedRegisterWrites
  intro s addr v rest hr hb
  refine ⟨?_, fun hbusy hlocked => ?_⟩
  · intro hidle sets
    have hsets : ∀ d, (addr, d) ∈ lockedWrites s.desc v → sets d := fun d hd =>
      (step_locked_write hr hb hd).trans (congrArg _ (lockedWrite_idle d hidle))
    refine ⟨?_, ?_, ?_, ?_, ?_, ?_, ?_⟩ <;>
      exact fun haddr => hsets _ (by simp [lockedWrites, haddr])
  · obtain ⟨⟨_, d⟩, hd, rfl⟩ :=
      List.mem_map.1 (show addr ∈ (lockedWrites s.desc v).map Prod.fst from hlocked)
    exact (step_locked_write hr hb hd).trans (congrArg _ (lockedWrite_busy d hbusy))

/-! ## STATUS (44_commands.md R194) -/

/-- A STATUS write as two conditional clears. -/
theorem statusWrite_eq_ite (v : Word) (s : State) :
    statusWrite v s = { s with
      done := if v.getLsbD 1 = true then false else s.done
      bwerr := if v.getLsbD 4 = true then false else s.bwerr } := by
  have hclear : ∀ b c : Bool, (b && !c) = if c = true then false else b := by decide
  simp only [statusWrite, hclear]

theorem statusWrite_irq_of_clear {v : Word} (s : State) (h : v.getLsbD 1 = true) :
    (statusWrite v s).irq = false := by
  simp [State.irq, h]

/-- Settles O36: the write is `statusWrite` in every phase; the invariant has DONE = 0 while busy. -/
theorem statusWriteIsWriteOneToClear : Obligations.StatusWriteIsWriteOneToClear := by
  unfold Obligations.StatusWriteIsWriteOneToClear
  intro s v rest hr hb
  have hstep : step s = .next (statusWrite v { s with bus := rest, answer := .ok }) :=
    step_write_reg hr hb (by decide) (by decide) rfl
  refine ⟨⟨_, hstep, statusWrite_eq_ite .., statusWrite_irq_of_clear _⟩, fun hinv hbusy => ?_⟩
  obtain ⟨hdone, -, -⟩ := hinv.busyClear hbusy
  exact hdone

/-! ## CTRL (44_commands.md R195) -/

/-- Settles O37: the write is `ctrlWrite` in every phase. -/
theorem ctrlWriteSetsIe : Obligations.CtrlWriteSetsIe := by
  unfold Obligations.CtrlWriteSetsIe
  intro s v rest hr hb
  exact step_write_reg hr hb (by decide) (by decide) rfl

/-! ## Read-only registers and ROM windows (44_commands.md R196) -/

/-- Settles O39: the offset decodes to a read-only register or to a ROM word, and a write there is
answered and does nothing else. -/
theorem readOnlyWritesAreIgnored : Obligations.ReadOnlyWritesAreIgnored := by
  unfold Obligations.ReadOnlyWritesAreIgnored
  intro s addr v rest hr hb h4 haddr
  rcases haddr with hreg | hrc | hmix
  · simp only [List.mem_cons, List.not_mem_nil, or_false] at hreg
    obtain rfl | rfl | rfl | rfl := hreg <;>
      exact step_write_reg hr hb (by decide) (by decide) rfl
  · rw [step_write_aligned hr hb h4, decodeOffset_rcRom hrc, hostWrite, answered]
  · rw [step_write_aligned hr hb h4, decodeOffset_mixRom hmix, hostWrite, answered]

end Sys2Proof.Machine
end

section
/-! The decoder and the encoder on words and on runs of bytes (30_encoding.md R90 to R93, R97). -/

namespace Sys2Proof

/-! ## Words -/

/-- A word is rejected exactly when it is none of the three words of the opcode map. -/
theorem decode_error_iff (w : Word) : (∃ e, decode w = .error e) ↔
    w ≠ 0x00000000#32 ∧ w ≠ 0x00000001#32 ∧ w ≠ 0x00000002#32 := by
  rcases decode_cases w with ⟨rfl, h⟩ | ⟨rfl, h⟩ | ⟨rfl, h⟩ | ⟨h0, h1, h2, h⟩
  · simp [h]
  · simp [h]
  · simp [h]
  · rw [h]
    split <;> simp [h0, h1, h2]

/-- A word is rejected for its RSV exactly when it is at least 2^8. -/
theorem decode_reservedBits_iff (w : Word) :
    decode w = .error .reservedBits ↔ 0x100 ≤ w.toNat := by
  rcases decode_cases w with ⟨rfl, h⟩ | ⟨rfl, h⟩ | ⟨rfl, h⟩ | ⟨-, -, -, h⟩
  · simp [h]
  · simp [h]
  · simp [h]
  · rw [h, ← Nat.not_lt, ← rsvField_zero_iff]
    split <;> simp_all

/-- A word is rejected for its OPC exactly when it is from 3 to 0xFF. -/
theorem decode_opcodeNotAssigned_iff (w : Word) :
    decode w = .error .opcodeNotAssigned ↔ 3 ≤ w.toNat ∧ w.toNat < 0x100 := by
  rcases decode_cases w with ⟨rfl, h⟩ | ⟨rfl, h⟩ | ⟨rfl, h⟩ | ⟨h0, h1, h2, h⟩
  · simp [h]
  · simp [h]
  · simp [h]
  · have h3 : 3 ≤ w.toNat := by bv_omega
    rw [h, ← rsvField_zero_iff]
    split <;> simp_all

/-- Settles O3: the words of the opcode map are the only legal ones, and RSV alone decides by which
name any other is rejected. -/
theorem everyOtherWordIsIllegal : Obligations.EveryOtherWordIsIllegal := by
  unfold Obligations.EveryOtherWordIsIllegal
  exact fun w => ⟨decode_error_iff w, decode_reservedBits_iff w, decode_opcodeNotAssigned_iff w⟩

/-! ## Runs of bytes -/

/-- Four bytes make a word exactly when they are its byte lanes in order. -/
theorem wordOfBytes_eq_iff (b0 b1 b2 b3 : Byte) (w : Word) :
    wordOfBytes b0 b1 b2 b3 = w ↔
      b0 = byteLane w 0 ∧ b1 = byteLane w 1 ∧ b2 = byteLane w 2 ∧ b3 = byteLane w 3 := by
  constructor
  · intro h
    exact wordOfBytes_injective (h.trans (Machine.wordOfBytes_byteLanes w).symm)
  · rintro ⟨rfl, rfl, rfl, rfl⟩
    exact Machine.wordOfBytes_byteLanes w

/-- A run of at least four bytes decodes as its first word does, and the rest is what follows it. -/
theorem decodeBytes_word_iff (b0 b1 b2 b3 : Byte) (tail rest : List Byte) (i : Instr) :
    decodeBytes (b0 :: b1 :: b2 :: b3 :: tail) = .ok (i, rest) ↔
      wordOfBytes b0 b1 b2 b3 = encode i ∧ tail = rest := by
  rw [← decode_eq_ok_iff, decodeBytes]
  cases decode (wordOfBytes b0 b1 b2 b3) <;> simp

/-- Settles O2: a run of fewer than four bytes is no command and begins with none; a longer one
decodes by its first word, whose four bytes are its byte lanes. -/
theorem decodeAndEncodeAgree : Obligations.DecodeAndEncodeAgree := by
  unfold Obligations.DecodeAndEncodeAgree
  intro bs rest i
  rw [encodeBytes, bytesOfWord]
  match bs with
  | [] | [_] | [_, _] | [_, _, _] => simp [decodeBytes]
  | b0 :: b1 :: b2 :: b3 :: tail =>
    rw [decodeBytes_word_iff, wordOfBytes_eq_iff]
    simp [and_assoc]

/-- Settles O1: each word and each run of bytes is evaluated. -/
theorem opcodeMapWordsDecode : Obligations.OpcodeMapWordsDecode := by
  unfold Obligations.OpcodeMapWordsDecode
  decide

end Sys2Proof
end

section
/-! The commands: which one a step runs, what each of them leaves unchanged, the checks of COMPRESS
and its pair step (44_commands.md sections 1 to 3). -/

namespace Sys2Proof.Machine

/-! ## The step that runs a command (44_commands.md R181, R183, R189) -/

/-- At its check step the decoded command runs; CMDL never decodes to ABORT there. -/
theorem engineTurn_check_decoded {s : State} {i : Instr} (hr : s.rst = false)
    (hp : s.phase = .check) (hi : i ≠ .abort) (hd : decode s.cmdl = .ok i) :
    engineTurn s = exec i s := by
  cases i with
  | abort => exact absurd rfl hi
  | nop => simp [engineTurn, engineStep, hr, hp, hd]
  | compress => simp [engineTurn, engineStep, hr, hp, hd]

/-- Settles O4: an engine's turn runs NOP or COMPRESS, and the CMD write of the ABORT word runs
ABORT. -/
theorem stepRunsTheDecodedCommand : Obligations.StepRunsTheDecodedCommand := by
  unfold Obligations.StepRunsTheDecodedCommand
  intro s hr
  refine ⟨fun hnext hp i hi hd => ?_, fun hnext hp => ?_, fun v rest hb hd => ?_⟩
  · rw [step_engine hnext]
    exact engineTurn_check_decoded (s := popEvent s) hr hp hi hd
  · rw [step_engine hnext, engineTurn_run (s := popEvent s) hr hp, exec_compress,
      execCompress_run (s := popEvent s) hp]
  · rw [step_cmd_abort hr hb ((decode_abort_iff v).1 hd), popEvent_eq hb, exec_abort, answered]

/-- The placed word of a command is the command's word. -/
theorem fetchWord_encode (i : Instr) : fetchWord 32 (encode i).toNat = encode i := by
  cases i <;> decide

theorem decode_encode (i : Instr) : decode (encode i) = .ok i := (decode_eq_ok_iff _ i).2 rfl

/-- A placed word other than ABORT's is issued, and the engine moves next. -/
theorem withFetchWord_issued (s : State) {i : Instr} (hi : i ≠ .abort) :
    s.withFetchWord 32 (encode i).toNat =
      { issue (encode i) s with rst := false, bus := .engine :: s.bus } := by
  rw [State.withFetchWord, fetchWord_encode, decode_encode]
  cases i with
  | abort => exact absurd rfl hi
  | nop => rfl
  | compress => rfl

/-- The placed ABORT word is the next host access. -/
theorem withFetchWord_abort (s : State) : s.withFetchWord 32 (encode .abort).toNat =
    { s with rst := false, bus := .host (.write 0x00004#20 4 0x00000002#32) :: s.bus } := by
  rw [State.withFetchWord, fetchWord_encode, decode_encode]
  rfl

/-- Settles O58: the placed word runs at the check step it is issued for, or at its CMD write. -/
theorem fetchedWordRunsNext : Obligations.FetchedWordRunsNext := by
  unfold Obligations.FetchedWordRunsNext
  refine fun s => ⟨fun i hi => ?_, ?_⟩
  · rw [withFetchWord_issued s hi, step_engine (.inr rfl)]
    exact engineTurn_check_decoded (s := { issue (encode i) s with rst := false }) rfl rfl hi
      (decode_encode i)
  · rw [withFetchWord_abort, step_cmd_abort rfl rfl rfl, exec_abort]

/-! ## NOP and ABORT (44_commands.md R184, R191) -/

/-- Settles O6: ABORT looks at BUSY alone. -/
theorem abortSetsOnlyTheAbortRequest : Obligations.AbortSetsOnlyTheAbortRequest := by
  unfold Obligations.AbortSetsOnlyTheAbortRequest
  intro s
  rw [exec_abort, execAbort, ← busy_iff, ← busy_eq_false_iff]
  exact ⟨fun h => by rw [if_pos h], fun h => by rw [if_neg (ne_true_of_eq_false h)]⟩

/-- Settles O14: a NOP completes or does nothing; an ABORT sets the abort request or does nothing.
-/
theorem nopAndAbortFrame : Obligations.NopAndAbortFrame := by
  unfold Obligations.NopAndAbortFrame
  intro s t h
  have hnop : exec .nop s = .next t → s.phase ≠ .check → t = s := by
    intro h hp
    rcases execNop_cases h with ⟨hc, -⟩ | ⟨-, rfl⟩
    · exact absurd hc hp
    · rfl
  have habort : exec .abort s = .next t → t.phase = s.phase ∧ t.done = s.done ∧ t.err = s.err ∧
      t.aborted = s.aborted ∧ t.errcode = s.errcode ∧ t.errinfo = s.errinfo := by
    intro h
    rcases execAbort_cases h with ⟨-, rfl⟩ | ⟨-, rfl⟩ <;> simp
  have hframe : (∃ kind code info, t = complete kind code info s) ∨ t = s ∨
      t = { s with abortReq := true } := by
    rcases h with h | h
    · rcases execNop_cases h with ⟨-, h⟩ | ⟨-, h⟩
      · exact .inl ⟨_, _, _, h⟩
      · exact .inr (.inl h)
    · rcases execAbort_cases h with ⟨-, h⟩ | ⟨-, h⟩
      · exact .inr (.inr h)
      · exact .inr (.inl h)
  rcases hframe with ⟨_, _, _, rfl⟩ | rfl | rfl <;>
    exact ⟨rfl, rfl, rfl, rfl, rfl, rfl, rfl, rfl, rfl, rfl, rfl, rfl, fun _ => rfl, hnop, habort⟩

/-! ## The bounds check and the overlap check (44_commands.md R186, R187) -/

theorem compressCheck_empty {s : State} (hn : s.desc.count = 0#32) :
    compressCheck s = .next (complete .success .none 0#32 s) := if_pos hn

theorem compressCheck_bounds {s : State} {id : Word} (hn : s.desc.count ≠ 0#32)
    (h : boundsError s.cfg.memWords s.desc = some id) :
    compressCheck s = .next (complete .error .bounds id s) := by
  rw [compressCheck, if_neg hn, h]

theorem compressCheck_overlap {s : State} {id : Word} (hn : s.desc.count ≠ 0#32)
    (hb : BoundsPass s.cfg.memWords s.desc) (h : overlapError s.desc = some id) :
    compressCheck s = .next (complete .error .overlap id s) := by
  rw [compressCheck, if_neg hn, (boundsError_none_iff _ _).2 hb, h]

/-- Before its range check the check step looks at the descriptor and the parameters alone: they end
the command, whatever else the state holds, or they are those of a batch that comes to the range
check. -/
theorem compressCheck_before_scan (s : State) :
    (∃ kind code info, ∀ u : State, u.cfg = s.cfg → u.desc = s.desc →
      compressCheck u = .next (complete kind code info u)) ∨
    (BoundsPass s.cfg.memWords s.desc ∧ OverlapPass s.desc ∧
      ∀ u : State, u.cfg = s.cfg → u.desc = s.desc →
        compressCheck u = rangeCheck (scanOrder s.desc) u) := by
  by_cases hn : s.desc.count = 0#32
  · exact .inl ⟨_, _, _, fun u _ hd => compressCheck_empty (hd ▸ hn)⟩
  cases hb : boundsError s.cfg.memWords s.desc with
  | some id => exact .inl ⟨_, _, _, fun u hc hd => compressCheck_bounds (hd ▸ hn) (hc ▸ hd ▸ hb)⟩
  | none =>
    have hb := (boundsError_none_iff _ _).1 hb
    cases ho : overlapError s.desc with
    | some id =>
      exact .inl ⟨_, _, _, fun u hc hd =>
        compressCheck_overlap (hd ▸ hn) (hc ▸ hd ▸ hb) (hd ▸ ho)⟩
    | none =>
      have ho := (overlapError_none_iff _).1 ho
      exact .inr ⟨hb, ho, fun u hc hd =>
        hd ▸ compressCheck_range (hd ▸ hn) (hc ▸ hd ▸ hb) (hd ▸ ho)⟩

/-- Settles O9: the three ends are compared with MEM_WORDS in order. -/
theorem boundsErrorNamesTheFirstRange : Obligations.BoundsErrorNamesTheFirstRange := by
  unfold Obligations.BoundsErrorNamesTheFirstRange
  intro s hp hn n end1 end2 endD boundsAt
  rw [exec_compress, execCompress_check hp]
  refine ⟨fun h1 => ?_, fun h1 h2 => ?_, fun h1 h2 hD => ?_⟩
  · have h : boundsError s.cfg.memWords s.desc = some 1#32 := if_pos h1
    exact compressCheck_bounds hn h
  · have h : boundsError s.cfg.memWords s.desc = some 2#32 :=
      (if_neg (Nat.not_lt.2 h1)).trans (if_pos h2)
    exact compressCheck_bounds hn h
  · have h : boundsError s.cfg.memWords s.desc = some 3#32 :=
      (if_neg (Nat.not_lt.2 h1)).trans ((if_neg (Nat.not_lt.2 h2)).trans (if_pos hD))
    exact compressCheck_bounds hn h

/-- Settles O10: the outputs are compared with each other, then with in1's range, then with in2's.
-/
theorem overlapErrorNamesTheFirstRange : Obligations.OverlapErrorNamesTheFirstRange := by
  unfold Obligations.OverlapErrorNamesTheFirstRange
  intro s hp hn hb n end1 end2 endD selfOverlap meets1 meets2 overlapAt
  rw [exec_compress, execCompress_check hp]
  have hmeets1 : intervalsMeet s.desc.dst.toNat s.desc.endD s.desc.src1.toNat s.desc.end1 = true ↔
      meets1 := intervalsMeet_iff ..
  have hmeets2 : intervalsMeet s.desc.dst.toNat s.desc.endD s.desc.src2.toNat s.desc.end2 = true ↔
      meets2 := intervalsMeet_iff ..
  refine ⟨fun h => ?_, fun h h1 => ?_, fun h h1 h2 => ?_⟩
  · have ho : overlapError s.desc = some 3#32 := if_pos h
    exact compressCheck_overlap hn hb ho
  · have ho : overlapError s.desc = some 1#32 := (if_neg h).trans (if_pos (hmeets1.2 h1))
    exact compressCheck_overlap hn hb ho
  · have ho : overlapError s.desc = some 2#32 :=
      (if_neg h).trans ((if_neg (mt hmeets1.1 h1)).trans (if_pos (hmeets2.2 h2)))
    exact compressCheck_overlap hn hb ho

/-! ## An abort request during the check step (44_commands.md R191) -/

/-- A state that a check step goes on to, as it is with an abort request pending: a completion
discards the request, the run phase keeps it. -/
def withPending (t : State) : State := if t.busy then { t with abortReq := true } else t

theorem withPending_idle {t : State} (h : t.phase = .idle) : withPending t = t :=
  if_neg (ne_true_of_eq_false ((busy_eq_false_iff t).2 h))

theorem withPending_run {t : State} (h : t.phase = .run) :
    withPending t = { t with abortReq := true } :=
  if_pos ((busy_iff t).2 (by rw [h]; decide))

theorem rangeCheck_withPending {ws : List Nat} {s t : State} (h : rangeCheck ws s = .next t) :
    rangeCheck ws { s with abortReq := true } = .next (withPending t) := by
  induction ws with
  | nil =>
    cases h
    rfl
  | cons w ws ih =>
    have hread : bufRead { s with abortReq := true } w = bufRead s w := bufRead_congr rfl rfl w
    rw [rangeCheck] at h
    rw [rangeCheck, hread]
    cases hr : bufRead s w with
    | error f => rw [hr] at h; cases h
    | ok v =>
      rw [hr] at h
      by_cases hf : isFieldWord v = true
      · simp only [hf, if_true] at h ⊢
        exact ih h
      · simp only [hf] at h ⊢
        cases h
        rfl

theorem compressCheck_withPending {s t : State} (h : compressCheck s = .next t) :
    compressCheck { s with abortReq := true } = .next (withPending t) := by
  rcases compressCheck_before_scan s with ⟨kind, code, info, hend⟩ | ⟨-, -, hscan⟩
  · rw [hend s rfl rfl] at h
    cases h
    exact hend _ rfl rfl
  · rw [hscan s rfl rfl] at h
    exact (hscan { s with abortReq := true } rfl rfl).trans (rangeCheck_withPending h)

/-- A check step that enters the run phase is at pair 0 of a nonempty batch. -/
theorem compressCheck_run {s t : State} (h : compressCheck s = .next t) (hp : t.phase = .run) :
    t.k.toNat < t.desc.count.toNat := by
  rcases compressCheck_cases h with ⟨-, rfl⟩ | ⟨-, _, -, rfl⟩ | ⟨-, -, _, -, rfl⟩ |
    ⟨-, -, _, -, _, -, -, -, rfl⟩ | ⟨hn, -, rfl⟩
  · cases hp
  · cases hp
  · cases hp
  · cases hp
  · exact Nat.pos_of_ne_zero fun h0 => hn (BitVec.eq_of_toNat_eq h0)

/-- Settles O7: the check step does not look at the request, its completions discard it, and the
pair step that finds it ends the command. -/
theorem abortDuringTheCheckStepWaitsForAPair :
    Obligations.AbortDuringTheCheckStepWaitsForAPair := by
  unfold Obligations.AbortDuringTheCheckStepWaitsForAPair
  intro s hp
  have hpending : ∀ t, exec .compress s = .next t →
      exec .compress { s with abortReq := true } = .next (withPending t) := by
    intro t h
    rw [exec_compress, execCompress_check hp] at h
    rw [exec_compress, execCompress_check (s := { s with abortReq := true }) hp]
    exact compressCheck_withPending h
  refine ⟨?_, fun t h ht => ?_, fun t h ht => ⟨?_, ?_⟩⟩
  · rw [exec_nop_check hp, exec_nop_check (s := { s with abortReq := true }) hp]
    rfl
  · rw [hpending t h, withPending_idle ht]
  · rw [hpending t h, withPending_run ht]
  · rw [exec_compress, execCompress_check hp] at h
    rw [exec_compress, execCompress_run (s := { t with abortReq := true }) ht]
    have hk : t.k.toNat < t.desc.count.toNat := compressCheck_run h ht
    exact pairStep_abort (s := { t with abortReq := true }) hk rfl

/-! ## The pair step (44_commands.md R189) -/

/-- With its sixteen input words written by two digests and its output inside the buffer, pair k is
ready. -/
theorem pairReady_of_digests {s : State} {in1 in2 : Digest}
    (hw1 : ∀ j < 8, in1Index s.desc s.k.toNat j < s.cfg.memWords)
    (hw2 : ∀ j < 8, in2Index s.desc s.k.toNat j < s.cfg.memWords)
    (hwD : ∀ j < 8, outIndex s.desc s.k.toNat j < s.cfg.memWords)
    (h1 : ∀ j : Fin 8, s.mem.readWord (in1Index s.desc s.k.toNat j) = some (feWord in1[j]))
    (h2 : ∀ j : Fin 8, s.mem.readWord (in2Index s.desc s.k.toNat j) = some (feWord in2[j])) :
    PairReady s where
  reads := by
    intro w hw
    obtain ⟨j, hj, rfl | rfl⟩ := (mem_pairReads _ _ _).1 hw
    · exact ⟨hw1 j hj, by simp [holdsField, h1 ⟨j, hj⟩]⟩
    · exact ⟨hw2 j hj, by simp [holdsField, h2 ⟨j, hj⟩]⟩
  writes := hwD

/-- The digest that a pair step writes is COMPRESS_PAIR of the two it reads. -/
theorem extractDigest_pairLanes (s : State) : extractDigest (pairLanes s) =
    compressPair (operandDigest s (in1Index s.desc s.k.toNat))
      (operandDigest s (in2Index s.desc s.k.toNat)) := by
  rw [pairLanes, compressPair]

/-- A pair step as one record: what a completion writes after the last pair, and otherwise the next
pair index. -/
theorem pairDone_pairWritten (s : State) : pairDone (pairWritten s) =
    if s.k.toNat + 1 = s.desc.count.toNat then { s with
      mem := (pairWritten s).mem, lanes := pairLanes s, rc := lastRound, progress := s.k + 1#32,
      phase := .idle, abortReq := false, done := true, err := false, aborted := false,
      errcode := .none, errinfo := 0#32 }
    else { s with
      mem := (pairWritten s).mem, lanes := pairLanes s, rc := lastRound, progress := s.k + 1#32,
      k := s.k + 1#32 } := by
  have hw : pairWritten s =
      { s with mem := (pairWritten s).mem, lanes := pairLanes s, rc := lastRound } := by
    rw [pairWritten_mem, pairWritten]
  generalize (pairWritten s).mem = m at hw ⊢
  rw [hw, pairDone]
  rfl

/-- In the run phase every input word of pair k is written and below P. -/
theorem Inv.input_word {s : State} (h : Inv s) (hp : s.phase = .run) {w : Nat}
    (hw : ∃ j < 8, w = in1Index s.desc s.k.toNat j ∨ w = in2Index s.desc s.k.toNat j) :
    ∃ v, s.mem.readWord w = some v ∧ v.toNat < P := by
  obtain ⟨-, hk, -⟩ := h.runPairs hp
  obtain ⟨j, hj, hw⟩ := hw
  exact (holdsField_iff _ _).1
    ((h.runChecked hp).inputs w ((mem_scanOrder _ _).2 ⟨s.k.toNat, hk, j, hj, hw⟩))

/-- Settles O12: the pair is ready, its eight output words are written by the digest of its lanes,
and the rest is what follows a pair. -/
theorem pairStepWritesTheCompression : Obligations.PairStepWritesTheCompression := by
  unfold Obligations.PairStepWritesTheCompression
  intro s hp hk
  rw [exec_compress, execCompress_run hp]
  refine ⟨fun ha => pairStep_abort hk ha, ?_, fun hinv j hj => ?_⟩
  · intro ha in1 in2 k w1 w2 wD hw1 hw2 hwD h1 h2
    have hlt1 : ∀ j < 8, w1 + j < s.cfg.memWords := fun j hj => by omega
    have hlt2 : ∀ j < 8, w2 + j < s.cfg.memWords := fun j hj => by omega
    have hltD : ∀ j < 8, wD + j < s.cfg.memWords := fun j hj => by omega
    have hd1 : operandDigest s (in1Index s.desc s.k.toNat) = in1 :=
      operandDigest_eq fun j => operandValue_of_feWord (hlt1 j j.isLt) (h1 j)
    have hd2 : operandDigest s (in2Index s.desc s.k.toNat) = in2 :=
      operandDigest_eq fun j => operandValue_of_feWord (hlt2 j j.isLt) (h2 j)
    refine ⟨(pairWritten s).mem, pairLanes s, lastRound, fun j => ?_, fun a hout => ?_, ?_⟩
    · have hword := pairWritten_readWord s j
      rw [extractDigest_pairLanes, hd1, hd2] at hword
      exact hword
    · refine pairWritten_read_other fun j hj b hb => ?_
      change a ≠ 0x10000 + 4 * (wD + j) + b
      omega
    · rw [pairStep_ready hk ha (pairReady_of_digests hlt1 hlt2 hltD h1 h2), pairDone_pairWritten]
  · obtain ⟨v1, hv1, hP1⟩ := hinv.input_word hp ⟨j, hj, .inl rfl⟩
    obtain ⟨v2, hv2, hP2⟩ := hinv.input_word hp ⟨j, hj, .inr rfl⟩
    exact ⟨v1, v2, hv1, hv2, hP1, hP2⟩

end Sys2Proof.Machine
end

section
/-! What a step changes and what it leaves alone: the engine's, the host's and reset's
(44_commands.md sections 2 and 3; 20_memory.md sections 3 to 5; 70_reset_and_hazards.md). -/

namespace Sys2Proof.Machine

/-! ## The engine (44_commands.md R180, R185) -/

/-- COMPRESS has no step here: the block is idle, or no pair is left. -/
abbrev NoCompressStep (s : State) : Prop :=
  s.phase = .idle ∨ (s.phase = .run ∧ s.desc.count.toNat ≤ s.k.toNat)

/-- A check step of COMPRESS ends the command or enters the run phase. -/
theorem compressCheck_effect {s t : State} (h : compressCheck s = .next t) :
    (∃ kind code info, t = complete kind code info s) ∨
    t = { s with phase := .run, k := 0#32 } := by
  rcases compressCheck_cases h with ⟨-, rfl⟩ | ⟨-, _, -, rfl⟩ | ⟨-, -, _, -, rfl⟩ |
    ⟨-, -, _, -, _, -, -, -, rfl⟩ | ⟨-, -, rfl⟩
  · exact .inl ⟨_, _, _, rfl⟩
  · exact .inl ⟨_, _, _, rfl⟩
  · exact .inl ⟨_, _, _, rfl⟩
  · exact .inl ⟨_, _, _, rfl⟩
  · exact .inr rfl

/-- A step of COMPRESS that goes on does nothing, ends the command, enters the run phase, or
computes a pair. -/
theorem execCompress_effect {s t : State} (h : execCompress s = .next t) :
    (NoCompressStep s ∧ t = s) ∨
    (¬NoCompressStep s ∧ ∃ kind code info, t = complete kind code info s) ∨
    (s.phase = .check ∧ t = { s with phase := .run, k := 0#32 }) ∨
    (s.phase = .run ∧ s.k.toNat < s.desc.count.toNat ∧ t = pairDone (pairWritten s)) := by
  cases hp : s.phase with
  | idle =>
    rw [execCompress_idle hp] at h
    cases h
    exact .inl ⟨.inl hp, rfl⟩
  | check =>
    rw [execCompress_check hp] at h
    rcases compressCheck_effect h with hend | hrun
    · exact .inr (.inl ⟨by simp [hp], hend⟩)
    · exact .inr (.inr (.inl ⟨rfl, hrun⟩))
  | run =>
    rw [execCompress_run hp] at h
    rcases pairStep_cases h with ⟨hk, rfl⟩ | ⟨hk, -, rfl⟩ | ⟨hk, -, -, rfl⟩
    · exact .inl ⟨.inr ⟨hp, hk⟩, rfl⟩
    · exact .inr (.inl ⟨by simpa [hp] using hk, _, _, _, rfl⟩)
    · exact .inr (.inr (.inr ⟨rfl, hk, rfl⟩))

/-- An engine's turn that goes on does nothing, ends the command in progress, enters the run phase,
or computes a pair. -/
theorem engineTurn_effect {s t : State} (h : engineTurn s = .next t) :
    t = s ∨
    (s.busy = true ∧ ∃ kind code info, t = complete kind code info s) ∨
    (s.phase = .check ∧ t = { s with phase := .run, k := 0#32 }) ∨
    (s.phase = .run ∧ t = pairDone (pairWritten s)) := by
  have hbusy : s.phase ≠ .idle → s.busy = true := (busy_iff s).2
  rcases engineTurn_cases h with ⟨-, rfl⟩ | ⟨-, hp, -, rfl⟩ | ⟨-, hp, -, -, rfl⟩ |
    ⟨-, hp, -, hcheck⟩ | ⟨-, hp, hpair⟩
  · exact .inl rfl
  · exact .inr (.inl ⟨hbusy (by rw [hp]; decide), _, _, _, rfl⟩)
  · exact .inr (.inl ⟨hbusy (by rw [hp]; decide), _, _, _, rfl⟩)
  · rcases compressCheck_effect hcheck with hend | hrun
    · exact .inr (.inl ⟨hbusy (by rw [hp]; decide), hend⟩)
    · exact .inr (.inr (.inl ⟨hp, hrun⟩))
  · rcases pairStep_cases hpair with ⟨-, rfl⟩ | ⟨-, -, rfl⟩ | ⟨-, -, -, rfl⟩
    · exact .inl rfl
    · exact .inr (.inl ⟨hbusy (by rw [hp]; decide), _, _, _, rfl⟩)
    · exact .inr (.inr (.inr ⟨hp, rfl⟩))

/-- The bytes a pair step leaves alone. -/
theorem pairDone_read_other {s : State} {a : Nat}
    (h : ∀ j < 8, ∀ b < 4, a ≠ wordOffset (outIndex s.desc s.k.toNat j) + b) :
    (pairDone (pairWritten s)).mem.read a = s.mem.read a := by
  obtain ⟨-, -, -, -, -, -, -, -, hmem, -, -⟩ := pairDone_frame (pairWritten s)
  rw [hmem]
  exact pairWritten_read_other h

/-- Settles O13: a completion, the entry of the run phase and a pair step each write their own
fields. -/
theorem compressFrame : Obligations.CompressFrame := by
  unfold Obligations.CompressFrame
  intro s t h
  rcases execCompress_effect h with ⟨-, rfl⟩ | ⟨hstep, _, _, _, rfl⟩ | ⟨hp, rfl⟩ | ⟨hp, hk, rfl⟩
  · simp
  · exact ⟨by simp, fun _ _ => rfl, fun _ => ⟨rfl, rfl, rfl⟩, fun hidle => absurd rfl hidle,
      fun hno => absurd hno hstep⟩
  · exact ⟨by simp, fun _ _ => rfl, fun _ => ⟨rfl, rfl, rfl⟩, fun _ => by simp, by simp [hp]⟩
  · have hno : ¬NoCompressStep s := by
      rintro (hidle | ⟨-, hle⟩)
      · rw [hp] at hidle; cases hidle
      · omega
    refine ⟨?_, fun a ha => pairDone_read_other (ha hp), fun hrun => absurd hp hrun,
      fun hidle => ?_, fun hidle => absurd hidle hno⟩
    · rw [pairDone_pairWritten]
      split <;> simp
    · rw [pairDone_pairWritten] at hidle ⊢
      split at hidle
      · exact absurd rfl hidle
      · next hmore => rw [if_neg hmore]; simp

/-! ## The host (20_memory.md R62; 44_commands.md R181, R193 to R196) -/

/-- Only a write through the data window while idle changes the buffer, and no access changes the
lane state or the round counter. -/
theorem hostAccess_datapath {a : Access} {s t : State} (h : hostAccess a s = .next t) :
    t.lanes = s.lanes ∧ t.rc = s.rc ∧
    (t.mem = s.mem ∨ s.busy = false ∧ ∃ addr v, ∃ w, a = .write addr 4 v ∧
      addr.toNat = wordOffset w ∧ t.mem = s.mem.writeWord w v) := by
  rcases a with ⟨addr, size⟩ | ⟨addr, size, v⟩
  · obtain ⟨-, -, -, v, rfl⟩ := hostAccess_read_cases h
    exact ⟨rfl, rfl, .inl rfl⟩
  · obtain ⟨-, rfl, -, hcase⟩ := hostAccess_write_cases h
    rcases hcase with ⟨-, -, rfl⟩ | ⟨-, -, rfl⟩ | ⟨-, rfl⟩ | ⟨-, rfl⟩ | ⟨-, -, d, rfl⟩ |
      ⟨w, -, hw, hidle, rfl⟩ | ⟨-, rfl⟩
    · split <;> exact ⟨rfl, rfl, .inl rfl⟩
    · split <;> exact ⟨rfl, rfl, .inl rfl⟩
    · exact ⟨rfl, rfl, .inl rfl⟩
    · exact ⟨rfl, rfl, .inl rfl⟩
    · rw [lockedWrite]
      split <;> exact ⟨rfl, rfl, .inl rfl⟩
    · exact ⟨rfl, rfl, .inr ⟨hidle, addr, v, w, rfl, hw, rfl⟩⟩
    · exact ⟨rfl, rfl, .inl rfl⟩

/-- No access ends a command, and none sets DONE. -/
theorem hostAccess_done {a : Access} {s t : State} (h : hostAccess a s = .next t) :
    (s.busy = true → t.busy = true) ∧ (t.done = true → s.done = true) := by
  cases hb : s.busy with
  | true =>
    obtain ⟨d, bw, ie, ab, ans, rfl, hd, -⟩ := hostAccess_busy hb h
    exact ⟨fun _ => hb, hd⟩
  | false =>
    refine ⟨fun hbusy => absurd hbusy (by decide), ?_⟩
    rcases a with ⟨addr, size⟩ | ⟨addr, size, v⟩
    · obtain ⟨-, -, -, v, rfl⟩ := hostAccess_read_cases h
      exact id
    · obtain ⟨-, -, -, hcase⟩ := hostAccess_write_cases h
      rcases hcase with ⟨-, -, rfl⟩ | ⟨-, -, rfl⟩ | ⟨-, rfl⟩ | ⟨-, rfl⟩ | ⟨-, -, d, rfl⟩ |
        ⟨w, -, -, -, rfl⟩ | ⟨-, rfl⟩
      · simp [hb]
      · simp [hb]
      · exact fun hd => (Bool.and_eq_true_iff.1 hd).1
      · exact id
      · rw [lockedWrite_idle d (by simpa using hb)]; exact id
      · exact id
      · exact id

/-! ## Every step -/

/-- Settles O27: the engine has no write to the descriptor, and a host's while busy is dropped. -/
theorem descriptorIsFixedWhileBusy : Obligations.DescriptorIsFixedWhileBusy := by
  unfold Obligations.DescriptorIsFixedWhileBusy
  intro s t h hb hreset
  rcases step_cases h with ⟨-, hturn⟩ | ⟨a, rest, -, hacc⟩ | ⟨level, rest, hbus, -⟩
  · rcases engineTurn_effect hturn with rfl | ⟨-, _, _, _, rfl⟩ | ⟨-, rfl⟩ | ⟨-, rfl⟩
    · rfl
    · rfl
    · rfl
    · rw [pairDone_pairWritten]
      split <;> rfl
  · obtain ⟨_, _, _, _, _, rfl, -, -⟩ := hostAccess_busy (s := popEvent s) hb hacc
    rfl
  · exact absurd (by rw [hbus, List.head?_cons]) (hreset level)

/-- Settles O28: an access to a busy block may also clear DONE, which the invariant has at 0 there.
-/
theorem hostCannotDisturbARunningCommand : Obligations.HostCannotDisturbARunningCommand := by
  unfold Obligations.HostCannotDisturbARunningCommand
  intro s t a rest hinv hb hbus h
  rw [step_host hbus, popEvent_eq hbus] at h
  obtain ⟨d, bw, ie, ab, ans, rfl, hd, -⟩ := hostAccess_busy (s := { s with bus := rest }) hb h
  obtain ⟨hdone, -⟩ := hinv.busyClear hb
  have hd0 : d = s.done := by
    rw [hdone, ← Bool.not_eq_true]
    intro hd1
    rw [hdone] at hd
    cases hd hd1
  exact ⟨bw, ie, ab, ans, by rw [hd0]⟩

/-- What a register reads as does not depend on the host's side of the block. -/
theorem regRead_withIo (r : Reg) (s : State) (b : List Event) (a : Answer) :
    regRead r { s with bus := b, answer := a } = regRead r s := by
  cases r <;> rfl

/-- A read is answered the same whatever the last answer was. -/
theorem hostRead_answered {g : Region} {s t : State} (a : Answer) (h : hostRead g s = .next t) :
    hostRead g (answered a s) = .next t := by
  cases g with
  | reg r => rw [← h, hostRead, answered, regRead_withIo]; rfl
  | data w => exact h
  | _ => exact h

/-- Settles O29: a read that is answered leaves everything that it depends on as it was. -/
theorem readsHaveNoSideEffect : Obligations.ReadsHaveNoSideEffect := by
  unfold Obligations.ReadsHaveNoSideEffect
  intro s t addr size rest hbus h
  rw [step_host hbus, popEvent_eq hbus] at h
  obtain ⟨hr, rfl, h4, v, rfl⟩ := hostAccess_read_cases h
  refine ⟨v, rfl, ?_⟩
  rw [hostAccess_read addr hr h4] at h
  rw [step_read_aligned (s := { answered (.data v) { s with bus := rest } with
    bus := .host (.read addr 4) :: rest }) hr rfl h4]
  exact hostRead_answered (.data v) h

/-- Settles O31: only a completion sets DONE or leaves a busy block idle, and it does both. -/
theorem doneMarksExactlyTheEndOfACommand : Obligations.DoneMarksExactlyTheEndOfACommand := by
  unfold Obligations.DoneMarksExactlyTheEndOfACommand
  intro s t h hreset
  rcases step_cases h with ⟨-, hturn⟩ | ⟨a, rest, -, hacc⟩ | ⟨level, rest, hbus, -⟩
  · have hturn := engineTurn_effect hturn
    rcases hturn with rfl | ⟨hb, _, _, _, rfl⟩ | ⟨hp, rfl⟩ | ⟨hp, rfl⟩
    · exact ⟨fun h0 h1 => by simp [h0] at h1, fun h1 h0 => by simp [h1] at h0⟩
    · exact ⟨fun _ _ => ⟨hb, rfl⟩, fun _ _ => rfl⟩
    · exact ⟨fun h0 h1 => by simp [h0] at h1, fun _ h0 => by cases h0⟩
    · have hb : s.busy = true := (busy_iff s).2 (by rw [← popEvent_phase s, hp]; decide)
      rw [pairDone_pairWritten]
      split
      · exact ⟨fun _ _ => ⟨hb, rfl⟩, fun _ _ => rfl⟩
      · exact ⟨fun h0 h1 => by simp [h0] at h1, fun _ h0 => absurd hb (ne_true_of_eq_false h0)⟩
  · obtain ⟨hbusy, hdone⟩ := hostAccess_done hacc
    rw [popEvent_busy] at hbusy
    rw [popEvent_done] at hdone
    refine ⟨fun h0 h1 => ?_, fun h1 h0 => ?_⟩
    · rw [hdone h1] at h0; cases h0
    · rw [hbusy h1] at h0; cases h0
  · exact absurd (by rw [hbus, List.head?_cons]) (hreset level)

/-- Settles O32: no host access writes the datapath registers, and an engine's turn away from the
run phase ends a command or begins its pairs. -/
theorem laneStateChangesOnlyInAPairStep : Obligations.LaneStateChangesOnlyInAPairStep := by
  unfold Obligations.LaneStateChangesOnlyInAPairStep
  intro s t h hreset hpair
  rcases step_cases h with ⟨hnext, hturn⟩ | ⟨a, rest, -, hacc⟩ | ⟨level, rest, hbus, -⟩
  · rcases engineTurn_effect hturn with rfl | ⟨-, _, _, _, rfl⟩ | ⟨-, rfl⟩ | ⟨hp, rfl⟩
    · exact ⟨rfl, rfl⟩
    · exact ⟨rfl, rfl⟩
    · exact ⟨rfl, rfl⟩
    · exact absurd ⟨hp, hnext⟩ hpair
  · obtain ⟨hlanes, hrc, -⟩ := hostAccess_datapath hacc
    exact ⟨hlanes, hrc⟩
  · exact absurd (by rw [hbus, List.head?_cons]) (hreset level)

/-- Settles O33: the engine writes the buffer in a pair step alone, at its output words, and the
host through the data window alone. -/
theorem bufferChangesOnlyByItsOwners : Obligations.BufferChangesOnlyByItsOwners := by
  unfold Obligations.BufferChangesOnlyByItsOwners
  intro s t a h hne
  rcases step_cases h with ⟨hnext, hturn⟩ | ⟨acc, rest, hbus, hacc⟩ | ⟨level, rest, hbus, -⟩
  · rcases engineTurn_effect hturn with rfl | ⟨-, _, _, _, rfl⟩ | ⟨-, rfl⟩ | ⟨hp, rfl⟩
    · exact absurd rfl hne
    · exact absurd rfl hne
    · exact absurd rfl hne
    · refine .inl ⟨hp, hnext, ?_⟩
      by_contra hout
      push Not at hout
      exact hne (pairDone_read_other (s := popEvent s) hout)
  · obtain ⟨-, -, hmem | ⟨hidle, addr, v, w, rfl, hw, hmem⟩⟩ := hostAccess_datapath hacc
    · rw [hmem] at hne
      exact absurd rfl hne
    · refine .inr (.inl ⟨hidle, addr, v, by rw [hbus, List.head?_cons], ?_⟩)
      rw [hw]
      by_contra hout
      rw [hmem] at hne
      simp only [wordOffset] at hout
      exact hne (memory_read_writeWord_other _ _ (by simp only [wordOffset]; omega))
  · exact .inr (.inr ⟨level, by rw [hbus, List.head?_cons]⟩)

end Sys2Proof.Machine
end

section
/-! Register reads, the STATUS word, byte order and reset (10_state.md R32 to R52; 20_memory.md R65,
R68; 70_reset_and_hazards.md section 1). -/

namespace Sys2Proof.Machine

/-! ## Register reads (20_memory.md R68) -/

/-- A step on a read of the register at an offset of the register map answers the register's value.
-/
theorem step_read_value {s : State} {addr : Offset} {rest : List Event} {r : Reg}
    (hr : s.rst = false) (hb : s.bus = .host (.read addr 4) :: rest)
    (haddr : addr = BitVec.ofNat 20 r.offset) :
    step s = .next { s with bus := rest, answer := .data (regRead r s) } := by
  have hv : regRead r (popEvent s) = regRead r s := regRead_withIo r s _ _
  rw [← hv]
  subst haddr
  cases r <;> exact step_read_reg hr hb (by decide) (by decide) rfl

/-- The CTRL word is its IE bit. -/
theorem ctrlWord_eq (s : State) : s.ctrlWord = if s.ie then 1#32 else 0#32 := by
  cases h : s.ie <;> simp [State.ctrlWord, h]

/-- Settles O40: each offset is that of its register. -/
theorem registerReadsReturnTheirValues : Obligations.RegisterReadsReturnTheirValues := by
  unfold Obligations.RegisterReadsReturnTheirValues
  intro s addr rest hr hb reads
  have hreads : ∀ r : Reg, addr = BitVec.ofNat 20 r.offset → reads (regRead r s) :=
    fun _ haddr => step_read_value hr hb haddr
  exact ⟨hreads .id, hreads .cmd, hreads .status, ctrlWord_eq s ▸ hreads .ctrl, hreads .count,
    hreads .src1, hreads .stride1, hreads .src2, hreads .stride2, hreads .dst, hreads .strided,
    hreads .progress, hreads .errinfo, hreads .memsize⟩

/-! ## The STATUS word (10_state.md R35) -/

theorem errCodeBits_eq (c : ErrCode) : errCodeBits c = (match c with
    | .none => 0#4
    | .illegalCmd => 1#4
    | .bounds => 2#4
    | .overlap => 3#4
    | .outOfRange => 4#4) := by
  cases c <;> rfl

/-- STATUS bit by bit: the five flags, then three zeros, then the error code. -/
theorem statusWord_getLsbD (s : State) (i : Nat) : s.statusWord.getLsbD i =
    if i = 0 then s.busy else if i = 1 then s.done else if i = 2 then s.err
    else if i = 3 then s.aborted else if i = 4 then s.bwerr
    else if i < 8 then false else (errCodeBits s.errcode).getLsbD (i - 8) := by
  rcases Nat.lt_or_ge i 12 with hi | hi
  · interval_cases i <;>
      simp only [State.statusWord, BitVec.getLsbD_append, BitVec.getLsbD_ofBool] <;> simp
  · obtain ⟨k, rfl⟩ := Nat.exists_eq_add_of_le' hi
    simp only [State.statusWord, BitVec.getLsbD_append]
    simp

theorem busy_eq_decide (s : State) : s.busy = decide (s.phase ≠ .idle) := by
  rw [Bool.eq_iff_iff, busy_iff, decide_eq_true_iff]

/-- Settles O41: the fields are read off the concatenation that STATUS is. -/
theorem statusWordFields : Obligations.StatusWordFields := by
  unfold Obligations.StatusWordFields
  intro s
  refine ⟨?_, ?_, ?_, ?_, ?_, ?_, ?_⟩
  · rw [statusWord_getLsbD, if_pos rfl, busy_eq_decide]
  · rw [statusWord_getLsbD]; rfl
  · rw [statusWord_getLsbD]; rfl
  · rw [statusWord_getLsbD]; rfl
  · rw [statusWord_getLsbD]; rfl
  · refine Eq.trans (BitVec.eq_of_getLsbD_eq fun j hj => ?_) (errCodeBits_eq s.errcode)
    rw [BitVec.getLsbD_extractLsb', statusWord_getLsbD, if_neg (by omega), if_neg (by omega),
      if_neg (by omega), if_neg (by omega), if_neg (by omega), if_neg (by omega),
      Nat.add_sub_cancel_left]
    simp [hj]
  · intro i hi
    rw [statusWord_getLsbD, if_neg (by omega), if_neg (by omega), if_neg (by omega),
      if_neg (by omega), if_neg (by omega)]
    split
    · rfl
    · exact BitVec.getLsbD_of_ge _ _ (by omega)

/-! ## Byte order (20_memory.md R65) -/

/-- Byte lane j is the value divided by 2^(8j), reduced to a byte. -/
theorem byteLane_eq_ofNat (v : Word) (j : Nat) :
    byteLane v j = BitVec.ofNat 8 (v.toNat / 2 ^ (8 * j)) := by
  apply BitVec.eq_of_toNat_eq
  rw [byteLane, BitVec.extractLsb'_toNat, BitVec.toNat_ofNat, Nat.shiftRight_eq_div_pow]

/-- Settles O44: the bytes of a word written are its byte lanes. -/
theorem bufferWordsAreLittleEndian : Obligations.BufferWordsAreLittleEndian := by
  unfold Obligations.BufferWordsAreLittleEndian
  intro m w v j hj
  change (m.writeWord w v).read (wordOffset w + j) = _
  rw [memory_read_writeWord, if_pos (by omega), Nat.add_sub_cancel_left, byteLane_eq_ofNat]

/-! ## Reset (70_reset_and_hazards.md R270, R272, R273) -/

/-- STATUS after reset is 0. -/
theorem setReset_statusWord (level : Bool) (s : State) : (setReset level s).statusWord = 0#32 :=
  resetOf_statusWord s.cfg

/-- While RST is asserted every access is refused. -/
theorem hostAccess_inReset {s : State} (a : Access) (hr : s.rst = true) :
    hostAccess a s = .fault (.busError .inReset) := by
  rcases a with ⟨addr, size⟩ | ⟨addr, size, v⟩
  · exact hostAccess_early (.inl rfl) (if_pos hr)
  · exact hostAccess_early (.inr ⟨v, rfl⟩) (if_pos hr)

/-- Settles O46: reset is `setReset`; while RST is asserted accesses are refused and the engine's
turn only takes its event. -/
theorem resetReturnsEveryPieceOfState : Obligations.ResetReturnsEveryPieceOfState := by
  unfold Obligations.ResetReturnsEveryPieceOfState
  refine ⟨fun s level rest hb => ⟨_, step_reset hb, ?_⟩, fun s a rest hr hb => ?_,
    fun s hr hnext => ?_⟩
  · exact ⟨rfl, rfl, rfl, rfl, rfl, rfl, setReset_statusWord .., rfl, rfl, rfl, rfl, rfl,
      fun _ => rfl⟩
  · rw [step_host hb]
    exact hostAccess_inReset (s := popEvent s) a hr
  · rw [step_engine hnext]
    exact engineTurn_stutter (.inl hr)

end Sys2Proof.Machine
end

section
/-! The invariant holds at reset and every step keeps it; what follows from it for the engine: which
steps go on, which fault, which end in an error, and how soon a command completes (10_state.md;
20_memory.md section 4; 44_commands.md section 5; 60_exceptions.md). -/

namespace Sys2Proof.Machine

/-! ## Reset meets the invariant (70_reset_and_hazards.md section 1) -/

/-- The state after reset meets the invariant, at either level of RST. -/
theorem inv_resetOf {c : Config} (hc : c.wellFormed = true) (level : Bool) :
    Inv { State.resetOf c with rst := level } where
  config := hc
  memory := memoryInv_nil _
  busyClear := fun _ => ⟨rfl, rfl, rfl⟩
  errCode := ⟨fun h => (nomatch h), fun h => absurd rfl h⟩
  errAborted := fun h => (nomatch h.1)
  errInfo := fun _ => rfl
  errProgress := fun _ => rfl
  abortBusy := fun h => (nomatch h)
  cmdlNotAbort := by simp [State.resetOf]
  checkFresh := fun h => (nomatch h)
  runPairs := fun h => (nomatch h)
  runChecked := fun h => (nomatch h)
  inReset := fun h => by
    cases level with
    | true => rfl
    | false => cases h

/-- Settles O25: the default parameters are legal ones. -/
theorem resetMeetsTheInvariant : Obligations.ResetMeetsTheInvariant := by
  unfold Obligations.ResetMeetsTheInvariant
  exact ⟨inv_resetOf (by decide) false, fun c hc => inv_resetOf hc false⟩

theorem inv_setReset {s : State} (level : Bool) (h : Inv s) : Inv (setReset level s) :=
  inv_withIo s.bus s.answer (inv_resetOf h.config level)

/-! ## The engine keeps the invariant -/

/-- A checked, nonempty batch enters the run phase at pair 0. -/
theorem inv_enterRun {s : State} (h : Inv s) (hr : s.rst = false) (hp : s.phase = .check)
    (hc : s.cmdl = 0x00000001#32) (hn : s.desc.count ≠ 0#32) (hchecked : Checked s) :
    Inv { s with phase := .run, k := 0#32 } where
  config := h.config
  memory := h.memory
  busyClear := fun _ => h.busyClear ((busy_iff s).2 (by rw [hp]; decide))
  errCode := h.errCode
  errAborted := h.errAborted
  errInfo := h.errInfo
  errProgress := h.errProgress
  abortBusy := fun _ => rfl
  cmdlNotAbort := h.cmdlNotAbort
  checkFresh := fun h => (nomatch h)
  runPairs := fun _ => by
    obtain ⟨-, hprogress⟩ := h.checkFresh hp
    exact ⟨hc, Nat.pos_of_ne_zero fun h0 => hn (BitVec.eq_of_toNat_eq h0), hprogress⟩
  runChecked := fun _ => checked_of_same_inputs hchecked rfl rfl fun _ _ => rfl
  inReset := fun hr' => absurd hr' (ne_true_of_eq_false hr)

/-- An error at the check step keeps the invariant: PROGRESS is still 0 there. -/
theorem inv_checkError {s : State} (h : Inv s) (hr : s.rst = false) (hp : s.phase = .check)
    {code : ErrCode} (hcode : code ≠ .none) (info : Word) :
    Inv (complete .error code info s) := by
  obtain ⟨-, hprogress⟩ := h.checkFresh hp
  exact inv_complete .error code info h hr (by simp [hcode]) (by simp) fun _ => hprogress

theorem inv_success {s : State} (h : Inv s) (hr : s.rst = false) :
    Inv (complete .success .none 0#32 s) :=
  inv_complete .success .none 0#32 h hr (by simp) (fun _ => rfl) (by simp)

theorem inv_aborted {s : State} (h : Inv s) (hr : s.rst = false) :
    Inv (complete .aborted .none 0#32 s) :=
  inv_complete .aborted .none 0#32 h hr (by simp) (fun _ => rfl) (by simp)

theorem engineTurn_keeps_inv {s t : State} (h : Inv s) (hturn : engineTurn s = .next t) :
    Inv t := by
  rcases engineTurn_cases hturn with ⟨-, rfl⟩ | ⟨hr, -, -, rfl⟩ | ⟨hr, hp, -, -, rfl⟩ |
    ⟨hr, hp, hc, hcheck⟩ | ⟨hr, hp, hpair⟩
  · exact h
  · exact inv_success h hr
  · exact inv_checkError h hr hp (by simp) _
  · rcases compressCheck_cases hcheck with ⟨-, rfl⟩ | ⟨-, id, -, rfl⟩ | ⟨-, -, id, -, rfl⟩ |
      ⟨-, -, w, -, v, -, -, -, rfl⟩ | ⟨hn, hchecked, rfl⟩
    · exact inv_success h hr
    · exact inv_checkError h hr hp (by simp) _
    · exact inv_checkError h hr hp (by simp) _
    · exact inv_checkError h hr hp (by simp) _
    · exact inv_enterRun h hr hp hc hn hchecked
  · rcases pairStep_cases hpair with ⟨-, rfl⟩ | ⟨-, -, rfl⟩ | ⟨-, -, -, rfl⟩
    · exact h
    · exact inv_aborted h hr
    · exact inv_pairDone h hr hp

/-! ## A host access keeps the invariant -/

/-- A write to a locked register keeps the invariant: it is dropped while busy, and nothing has been
checked while idle. -/
theorem inv_lockedWrite {s : State} (h : Inv s) (hr : s.rst = false) (d : Descriptor) :
    Inv (lockedWrite d s) := by
  cases hb : s.busy with
  | true =>
    rw [lockedWrite_busy d hb]
    exact inv_withFlags h hr s.done true s.ie s.abortReq id h.abortBusy
  | false =>
    rw [lockedWrite_idle d hb]
    exact inv_withDesc h hr ((busy_eq_false_iff s).1 hb) d s.mem h.memory

theorem hostAccess_keeps_inv {a : Access} {s t : State} (h : Inv s)
    (hacc : hostAccess a s = .next t) : Inv t := by
  rcases a with ⟨addr, size⟩ | ⟨addr, size, v⟩
  · obtain ⟨-, -, -, v, rfl⟩ := hostAccess_read_cases hacc
    exact inv_answered _ h
  · obtain ⟨hr, -, -, hcase⟩ := hostAccess_write_cases hacc
    have ha : Inv (answered .ok s) := inv_answered .ok h
    rcases hcase with ⟨-, -, rfl⟩ | ⟨-, hv, rfl⟩ | ⟨-, rfl⟩ | ⟨-, rfl⟩ | ⟨-, -, d, rfl⟩ |
      ⟨w, hw, -, hidle, rfl⟩ | ⟨-, rfl⟩
    · split
      · next hb => exact inv_withFlags ha hr s.done s.bwerr s.ie true id fun _ => hb
      · exact ha
    · split
      · exact inv_withFlags ha hr s.done true s.ie s.abortReq id h.abortBusy
      · exact inv_issue v ha hr hv
    · exact inv_withFlags ha hr (s.done && !v.getLsbD 1) (s.bwerr && !v.getLsbD 4) s.ie s.abortReq
        (fun hd => (Bool.and_eq_true_iff.1 hd).1) h.abortBusy
    · exact inv_withFlags ha hr s.done s.bwerr (v.getLsbD 0) s.abortReq id h.abortBusy
    · exact inv_lockedWrite ha hr d
    · exact inv_withDesc ha hr ((busy_eq_false_iff s).1 hidle) s.desc _
        (memoryInv_writeWord v h.memory hw)
    · exact ha

/-- Every step keeps the invariant. -/
theorem step_keeps_inv {s t : State} (h : Inv s) (hstep : step s = .next t) : Inv t := by
  rcases step_cases hstep with ⟨-, hturn⟩ | ⟨a, rest, -, hacc⟩ | ⟨level, rest, -, rfl⟩
  · exact engineTurn_keeps_inv (inv_popEvent h) hturn
  · exact hostAccess_keeps_inv (inv_popEvent h) hacc
  · exact inv_setReset level (inv_popEvent h)

/-- Settles O26: the engine's turn, a host access and reset each keep the invariant. -/
theorem everyStepKeepsTheInvariant : Obligations.EveryStepKeepsTheInvariant := by
  unfold Obligations.EveryStepKeepsTheInvariant
  exact fun s t => step_keeps_inv

/-! ## The ranges of a checked batch (44_commands.md R186, R187) -/

/-- Settles O23: a word of a pair lies before the end of its range. -/
theorem checkedBatchStaysInsideTheBuffer : Obligations.CheckedBatchStaysInsideTheBuffer := by
  unfold Obligations.CheckedBatchStaysInsideTheBuffer
  intro memWords d hb k hk j hj
  obtain ⟨h1, h2, hD⟩ := hb
  exact ⟨(effIndex_lt_rangeEnd _ _ _ hk hj).2.trans_le h1,
    (effIndex_lt_rangeEnd _ _ _ hk hj).2.trans_le h2,
    (effIndex_lt_rangeEnd _ _ _ hk hj).2.trans_le hD⟩

/-- Settles O24: no scanned word is an output word, and output words are told apart by pair and
lane. -/
theorem checkedBatchNeverReadsAnOutputWord : Obligations.CheckedBatchNeverReadsAnOutputWord := by
  unfold Obligations.CheckedBatchNeverReadsAnOutputWord
  intro d ho k hk k' hk' j hj j' hj'
  have hnot : ∀ w ∈ scanOrder d, w ≠ outIndex d k' j' := fun w hw =>
    (outIndex_not_scanned ho hk' hj' hw).symm
  exact ⟨hnot _ ((mem_scanOrder d _).2 ⟨k, hk, j, hj, .inl rfl⟩),
    hnot _ ((mem_scanOrder d _).2 ⟨k, hk, j, hj, .inr rfl⟩),
    outIndex_injective ho hk hk' hj hj'⟩

/-! ## The run phase goes on (20_memory.md R73) -/

/-- RST is not asserted while busy: in reset the block is idle. -/
theorem Inv.rst_of_busy {s : State} (h : Inv s) (hb : s.busy = true) : s.rst = false := by
  rw [← Bool.not_eq_true]
  intro hr
  rw [h.inReset hr] at hb
  cases hb

theorem busy_of_run {s : State} (hp : s.phase = .run) : s.busy = true :=
  (busy_iff s).2 (by rw [hp]; decide)

/-- A pair step in a state that meets the invariant ends the command as aborted, or computes its
pair. -/
theorem Inv.pairStep {s : State} (h : Inv s) (hp : s.phase = .run) :
    pairStep s = .next (complete .aborted .none 0#32 s) ∨
    pairStep s = .next (pairDone (pairWritten s)) := by
  obtain ⟨-, hk, -⟩ := h.runPairs hp
  cases ha : s.abortReq with
  | true => exact .inl (pairStep_abort hk ha)
  | false => exact .inr (pairStep_ready hk ha (pairReady_of_checked (h.runChecked hp) hk))

/-- Settles O19: a pair of a checked batch is ready, so its step goes on. -/
theorem runPhaseNeverFaults : Obligations.RunPhaseNeverFaults := by
  unfold Obligations.RunPhaseNeverFaults
  intro s h hp
  rw [exec_compress, execCompress_run hp]
  rcases h.pairStep hp with hstep | hstep <;> exact ⟨_, hstep⟩

/-- A step of a block left alone in the run phase: the command ends, or the next pair follows. -/
theorem Inv.step_run {s : State} (h : Inv s) (hb : s.bus = []) (hp : s.phase = .run) :
    ∃ t, step s = .next t ∧ t.bus = [] ∧
      ((t.phase = .idle ∧ t.done = true) ∨
        (t.phase = .run ∧ t.k.toNat = s.k.toNat + 1 ∧ t.desc = s.desc)) := by
  rw [Machine.step_run (h.rst_of_busy (busy_of_run hp)) hb hp]
  rcases h.pairStep hp with hstep | hstep
  · exact ⟨_, hstep, hb, .inl ⟨rfl, rfl⟩⟩
  · refine ⟨_, hstep, ?_⟩
    obtain ⟨-, hk, -⟩ := h.runPairs hp
    have hk1 : (s.k + 1#32).toNat = s.k.toNat + 1 := by
      have := s.desc.count.isLt
      bv_omega
    rw [pairDone_pairWritten]
    split
    · exact ⟨hb, .inl ⟨rfl, rfl⟩⟩
    · exact ⟨hb, .inr ⟨hp, hk1, rfl⟩⟩

/-- A block left alone past its check step goes on, and stays past it. -/
theorem Inv.step_past_check {s : State} (h : Inv s) (hb : s.bus = []) (hp : s.phase ≠ .check) :
    ∃ t, step s = .next t ∧ t.bus = [] ∧ t.phase ≠ .check := by
  cases hphase : s.phase with
  | check => exact absurd hphase hp
  | idle =>
    rw [step_engine (.inl hb), popEvent_of_bus_nil hb, engineTurn_stutter (.inr hphase)]
    exact ⟨s, rfl, hb, hp⟩
  | run =>
    obtain ⟨t, hstep, hbus, ⟨ht, -⟩ | ⟨ht, -⟩⟩ := h.step_run hb hphase
    · exact ⟨t, hstep, hbus, by rw [ht]; decide⟩
    · exact ⟨t, hstep, hbus, by rw [ht]; decide⟩

/-- Settles O20: by induction on the number of steps, each of which keeps the invariant. -/
theorem blockPastItsCheckIsSafeForever : Obligations.BlockPastItsCheckIsSafeForever := by
  unfold Obligations.BlockPastItsCheckIsSafeForever
  intro s n h hb hp
  induction n generalizing s with
  | zero => exact ⟨s, rfl⟩
  | succ n ih =>
    obtain ⟨t, hstep, hbus, ht⟩ := h.step_past_check hb hp
    rw [SafeFor, runFor_step n hstep]
    exact ih t (step_keeps_inv h hstep) hbus ht

/-! ## How soon a command completes (44_commands.md R198) -/

/-- A block left alone in the run phase completes in as many steps as there are pairs left. -/
theorem Inv.run_completes {s : State} (h : Inv s) (hb : s.bus = []) (hp : s.phase = .run) :
    ∃ n ≤ s.desc.count.toNat - s.k.toNat, ∃ t, runFor n s = .next t ∧ RunEnded t ∧
      t.done = true := by
  induction hm : s.desc.count.toNat - s.k.toNat generalizing s with
  | zero =>
    obtain ⟨-, hk, -⟩ := h.runPairs hp
    omega
  | succ m ih =>
    obtain ⟨u, hstep, hbus, ⟨hidle, hdone⟩ | ⟨hrun, hk, hd⟩⟩ := h.step_run hb hp
    · exact ⟨1, by omega, u, runFor_step 0 hstep, ⟨hbus, hidle⟩, hdone⟩
    · obtain ⟨n, hn, t, ht⟩ := ih (step_keeps_inv h hstep) hbus hrun (by rw [hd, hk]; omega)
      exact ⟨n + 1, by omega, t, by rwa [runFor_step n hstep]⟩

/-- The check step of COMPRESS goes on when its range check, if it comes to one, meets no unwritten
word. -/
theorem compressCheck_goes {s : State}
    (h : BoundsPass s.cfg.memWords s.desc → OverlapPass s.desc →
      ∀ pre w post, scanOrder s.desc = pre ++ w :: post →
        (∀ u ∈ pre, holdsField s.mem u = true) → s.mem.readWord w ≠ none) :
    ∃ t, compressCheck s = .next t := by
  rcases compressCheck_before_scan s with ⟨kind, code, info, hend⟩ | ⟨hb, ho, hscan⟩
  · exact ⟨_, hend s rfl rfl⟩
  · rw [hscan s rfl rfl]
    exact rangeCheck_goes (fun w hw => scanOrder_lt hb hw) (h hb ho)

/-- A check step ends its command or enters the run phase at pair 0, if its range check meets no
unwritten word. -/
theorem engineTurn_check {s : State} (hr : s.rst = false) (hp : s.phase = .check)
    (h : s.cmdl = 0x00000001#32 → ∃ t, compressCheck s = .next t) :
    (∃ kind code info, engineTurn s = .next (complete kind code info s)) ∨
    engineTurn s = .next { s with phase := .run, k := 0#32 } := by
  by_cases h0 : s.cmdl = 0x00000000#32
  · exact .inl ⟨_, _, _, engineTurn_nop hr hp h0⟩
  by_cases h1 : s.cmdl = 0x00000001#32
  · obtain ⟨t, ht⟩ := h h1
    rw [engineTurn_compress hr hp h1, ht]
    rcases compressCheck_effect ht with ⟨kind, code, info, rfl⟩ | rfl
    · exact .inl ⟨kind, code, info, rfl⟩
    · exact .inr rfl
  · exact .inl ⟨_, _, _, engineTurn_illegal hr hp h0 h1⟩

/-- Settles O18: one check step, and then a pair step for each pair of the batch at most. -/
theorem commandCompletesWithinCountPlusOneSteps :
    Obligations.CommandCompletesWithinCountPlusOneSteps := by
  unfold Obligations.CommandCompletesWithinCountPlusOneSteps
  intro s h hr hb hbusy hwritten
  cases hp : s.phase with
  | idle => exact absurd hp ((busy_iff s).1 hbusy)
  | run =>
    obtain ⟨n, hn, hend⟩ := h.run_completes hb hp
    exact ⟨n, by omega, hend⟩
  | check =>
    have hgoes := fun hc => compressCheck_goes (hwritten hp hc)
    have hturn : step s = engineTurn s := by rw [step_engine (.inl hb), popEvent_of_bus_nil hb]
    rcases engineTurn_check hr hp hgoes with ⟨kind, code, info, hstep⟩ | hstep
    · exact ⟨1, by omega, _, runFor_step 0 (hturn.trans hstep), ⟨hb, rfl⟩, rfl⟩
    · have hstep := hturn.trans hstep
      obtain ⟨n, hn, t, ht⟩ := (step_keeps_inv h hstep).run_completes hb rfl
      refine ⟨n + 1, ?_, t, by rwa [runFor_step n hstep]⟩
      have : n ≤ s.desc.count.toNat := hn.trans (Nat.sub_le _ _)
      omega

/-! ## Faults and errors of the engine (20_memory.md R73; 60_exceptions.md) -/

/-- The check step of COMPRESS faults on an unwritten input word of a batch within its bounds alone.
-/
theorem compressCheck_fault {s : State} {f : Fault} (h : compressCheck s = .fault f) :
    BoundsPass s.cfg.memWords s.desc ∧ OverlapPass s.desc ∧
      ∃ w ∈ scanOrder s.desc, w < s.cfg.memWords ∧ s.mem.readWord w = none ∧
        f = .engineReadUnwritten w := by
  rcases compressCheck_before_scan s with ⟨kind, code, info, hend⟩ | ⟨hb, ho, hscan⟩
  · rw [hend s rfl rfl] at h
    cases h
  · rw [hscan s rfl rfl] at h
    obtain ⟨w, hw, hread, hf⟩ := rangeCheck_fault (fun w hw => scanOrder_lt hb hw) h
    exact ⟨hb, ho, w, hw, scanOrder_lt hb hw, hread, hf⟩

/-- An engine's turn that faults in a state that meets the invariant is a check step of COMPRESS. -/
theorem Inv.engineTurn_fault {s : State} {f : Fault} (h : Inv s) (hf : engineTurn s = .fault f) :
    s.phase = .check ∧ s.cmdl = 0x00000001#32 ∧ compressCheck s = .fault f := by
  cases hr : s.rst with
  | true => rw [engineTurn_stutter (.inl hr)] at hf; cases hf
  | false =>
    cases hp : s.phase with
    | idle => rw [engineTurn_stutter (.inr hp)] at hf; cases hf
    | run =>
      rw [engineTurn_run hr hp] at hf
      rcases h.pairStep hp with hstep | hstep <;> rw [hstep] at hf <;> cases hf
    | check =>
      by_cases h0 : s.cmdl = 0x00000000#32
      · rw [engineTurn_nop hr hp h0] at hf; cases hf
      by_cases h1 : s.cmdl = 0x00000001#32
      · exact ⟨rfl, h1, by rwa [engineTurn_compress hr hp h1] at hf⟩
      · rw [engineTurn_illegal hr hp h0 h1] at hf; cases hf

/-- Settles O21: a fault comes from a check step of COMPRESS, and so from its range check. -/
theorem engineFaultsOnlyOnUnwrittenInputs : Obligations.EngineFaultsOnlyOnUnwrittenInputs := by
  unfold Obligations.EngineFaultsOnlyOnUnwrittenInputs
  intro s f h hnext hf
  rw [step_engine hnext] at hf
  obtain ⟨hp, hc, hcheck⟩ := (inv_popEvent h).engineTurn_fault hf
  exact ⟨hp, hc, compressCheck_fault (s := popEvent s) hcheck⟩

/-- The index of a word of the buffer fits a register. -/
theorem Inv.toNat_wordIndex {s : State} (h : Inv s) {w : Nat} (hw : w < s.cfg.memWords) :
    (BitVec.ofNat 32 w).toNat = w := by
  have hfit : s.cfg.memWords ≤ 245760 := by
    have := h.config
    simp only [Config.wellFormed, Config.fitsAperture, Bool.and_eq_true, decide_eq_true_eq] at this
    exact this.2
  rw [BitVec.toNat_ofNat]
  omega

/-- What an error of the check step leaves, whichever check has failed. -/
theorem Inv.checkError {s : State} (h : Inv s) (hp : s.phase = .check) (code : ErrCode)
    (info : Word) {q : Prop} (hq : q) :
    let t := complete .error code info s
    s.phase = .check ∧ t.phase = .idle ∧ t.done = true ∧ t.aborted = false ∧
      t.progress = 0#32 ∧ t.mem = s.mem ∧ t.desc = s.desc ∧ t.ie = s.ie ∧ q := by
  obtain ⟨-, hprogress⟩ := h.checkFresh hp
  exact ⟨hp, rfl, rfl, rfl, hprogress, rfl, rfl, rfl, hq⟩

/-- Settles O22: while busy ERR is 0, so an engine's turn that leaves it 1 is a check step that has
failed, and each failing check has its code and its ERRINFO. -/
theorem errorCompletionIsPrecise : Obligations.ErrorCompletionIsPrecise := by
  unfold Obligations.ErrorCompletionIsPrecise
  intro s t h hr hnext hbusy hstep herr
  rw [step_engine hnext] at hstep
  have hu := inv_popEvent h
  obtain ⟨-, hclear, -⟩ := h.busyClear hbusy
  rcases engineTurn_cases hstep with ⟨-, rfl⟩ | ⟨-, -, -, rfl⟩ | ⟨-, hp, h0, h1, rfl⟩ |
    ⟨-, hp, hc, hcheck⟩ | ⟨-, hp, hpair⟩
  · exact absurd herr (ne_true_of_eq_false hclear)
  · cases herr
  · exact hu.checkError hp _ _ (.inl ⟨rfl, rfl, h0, h1⟩)
  · rcases compressCheck_cases hcheck with ⟨-, rfl⟩ | ⟨hn, id, hid, rfl⟩ |
      ⟨hn, -, id, hid, rfl⟩ | ⟨hn, -, w, hw, v, hlt, hv, hP, rfl⟩ | ⟨-, -, rfl⟩
    · cases herr
    · exact hu.checkError hp _ _ (.inr ⟨hc, hn, .inl ⟨rfl, hid⟩⟩)
    · exact hu.checkError hp _ _ (.inr ⟨hc, hn, .inr (.inl ⟨rfl, hid⟩)⟩)
    · refine hu.checkError hp _ _ (.inr ⟨hc, hn, .inr (.inr ⟨rfl, ?_⟩)⟩)
      rw [complete_errinfo, hu.toNat_wordIndex hlt]
      exact ⟨hw, v, hv, hP⟩
    · exact absurd herr (ne_true_of_eq_false hclear)
  · rcases pairStep_cases hpair with ⟨-, rfl⟩ | ⟨-, -, rfl⟩ | ⟨-, -, -, rfl⟩
    · exact absurd herr (ne_true_of_eq_false hclear)
    · cases herr
    · rw [pairDone_pairWritten] at herr
      split at herr
      · cases herr
      · exact absurd herr (ne_true_of_eq_false hclear)

end Sys2Proof.Machine
end

section
/-! The arithmetic of the datapath in the prime field of P elements: its laws, the S-box as a
bijection, one round as a formula, MIX by lane-class sums, and the permutation as a bijection
(41_field_arithmetic.md; 43_permutation.md). -/

namespace Sys2Proof.Machine

/-! ## Field elements in ZMod P -/

@[simp] theorem cast_fred (u : Nat) : ((fred u).val : ZMod P) = u := ZMod.natCast_mod u P

@[simp] theorem cast_fadd (a b : Fe) : ((fadd a b).val : ZMod P) = a.val + b.val := by
  rw [fadd, cast_fred, Nat.cast_add]

@[simp] theorem cast_fmul (a b : Fe) : ((fmul a b).val : ZMod P) = a.val * b.val := by
  rw [fmul, cast_fred, Nat.cast_mul]

@[simp] theorem cast_sbox (x : Fe) : ((sbox x).val : ZMod P) = (x.val : ZMod P) ^ 5 := by
  rw [sbox_val, ZMod.natCast_mod, Nat.cast_pow]

/-- Field elements are equal when they are so in ZMod P: each is its own residue. -/
theorem fe_ext {a b : Fe} (h : (a.val : ZMod P) = b.val) : a = b := by
  rw [ZMod.natCast_eq_natCast_iff', Nat.mod_eq_of_lt a.isLt, Nat.mod_eq_of_lt b.isLt] at h
  exact Fin.ext h

/-- Settles O54: the laws are those of ZMod P; an unreduced sum is below 2P, so one subtraction
reduces it. -/
theorem fieldArithmeticLaws : Obligations.FieldArithmeticLaws := by
  unfold Obligations.FieldArithmeticLaws
  intro a b c
  have ha := a.isLt
  have hb := b.isLt
  refine ⟨fadd_comm a b, fmul_comm a b, fe_ext ?_, fe_ext ?_, fe_ext ?_, fadd_zero_left b,
    fmul_one_left b, fmul_zero_left b, by omega, by decide, ?_⟩
  · simp only [cast_fadd]; ring
  · simp only [cast_fmul]; ring
  · simp only [cast_fadd, cast_fmul]; ring
  · rw [fadd_val]
    split
    · next h => rw [Nat.mod_eq_sub_mod h, Nat.mod_eq_of_lt (by omega)]
    · next h => exact Nat.mod_eq_of_lt (by omega)

/-! ## The S-box (43_permutation.md R151) -/

/-- The fifth power is injective mod P: 5 · 1717986917 is 1 modulo P - 1, so the power 1717986917
undoes it. -/
theorem pow_five_injective : Function.Injective fun x : ZMod P => x ^ 5 := by
  have : Fact (Nat.Prime P) := ⟨prime_P⟩
  have hundo : ∀ x : ZMod P, (x ^ 5) ^ 1717986917 = x := by
    intro x
    rw [← pow_mul, show 5 * 1717986917 = (P - 1) * 4 + 1 by decide, pow_succ, pow_mul]
    by_cases hx : x = 0
    · rw [hx, mul_zero]
    · rw [ZMod.pow_card_sub_one_eq_one hx, one_pow, one_mul]
  intro x y h
  rw [← hundo x, ← hundo y]
  exact congrArg (· ^ 1717986917) h

theorem sbox_injective : Function.Injective sbox := by
  intro x y h
  refine fe_ext (pow_five_injective ?_)
  change (x.val : ZMod P) ^ 5 = (y.val : ZMod P) ^ 5
  rw [← cast_sbox, ← cast_sbox, h]

/-- 3^((P-1)/7) is a seventh root of 1 other than 1. -/
theorem pow_seven_not_injective : ¬Function.Injective fun x : Fe => fred (x.val ^ 7) := by
  intro h
  have hroot : fred ((1752599774 : Fe).val ^ 7) = fred ((1 : Fe).val ^ 7) := by decide
  exact absurd (h hroot) (by decide)

/-- Settles O48: an injective map of a finite set is a bijection; the examples are evaluated. -/
theorem sboxIsTheFifthPower : Obligations.SboxIsTheFifthPower := by
  unfold Obligations.SboxIsTheFifthPower
  exact ⟨sbox_val, Finite.injective_iff_bijective.1 sbox_injective, pow_seven_not_injective,
    by decide⟩

/-! ## Bounds of the intermediates (41_field_arithmetic.md R115, R119) -/

/-- A column of M has 24 entries of at most 14 (42_parameter_roms.md R137). -/
theorem columnSum_le (S : Lanes) (c : Nat) : columnSum S c ≤ 24 * 14 * (P - 1) := by
  have hterm : ∀ r : Fin 24, S[r].val * (mixEntry r.val c).val ≤ 14 * (P - 1) := by
    intro r
    rw [Nat.mul_comm]
    exact Nat.mul_le_mul (mixEntry_le _ _) (Nat.le_sub_one_of_lt S[r].isLt)
  rw [columnSum_eq]
  calc ∑ r : Fin 24, S[r].val * (mixEntry r.val c).val
      ≤ ∑ _r : Fin 24, 14 * (P - 1) := Finset.sum_le_sum fun r _ => hterm r
    _ = 24 * 14 * (P - 1) := by rw [Finset.sum_const, Finset.card_fin]; rfl

/-- Settles O52: each factor is at most P - 1. -/
theorem intermediatesFitTheirAccumulators : Obligations.IntermediatesFitTheirAccumulators := by
  unfold Obligations.IntermediatesFitTheirAccumulators
  refine ⟨fun a b => ?_, fun a b => ⟨?_, fe_mul_lt a b⟩,
    fun S c => ⟨columnSum_le S c, (columnSum_le S c).trans_lt (by decide)⟩⟩
  · have ha := a.isLt
    have hb := b.isLt
    have hP : 2 * P < 2 ^ 32 := by decide
    omega
  · rw [pow_two]
    exact Nat.mul_le_mul (Nat.le_sub_one_of_lt a.isLt) (Nat.le_sub_one_of_lt b.isLt)

/-- The fold adds the quotient and the remainder by 2^31. -/
theorem fold_eq (u : Nat) : (u &&& 0x7FFFFFFF) + (u >>> 31) = u % 2 ^ 31 + u / 2 ^ 31 := by
  rw [Nat.shiftRight_eq_div_pow, ← Nat.and_two_pow_sub_one_eq_mod u 31]

/-- Settles O53: with u = 2^31·q + r the fold is q + r, which is u less q times P and at most 2P. -/
theorem mersenneFoldReduces : Obligations.MersenneFoldReduces := by
  unfold Obligations.MersenneFoldReduces
  refine ⟨?_, by decide⟩
  intro u hu
  rw [fold_eq, fred_val]
  intro t t1 t2
  have hle : t ≤ 2 * 2147483647 := by omega
  have hmod : t % 2147483647 = u % 2147483647 := by omega
  have ht1 : t1 = if 2147483647 ≤ t then t - 2147483647 else t := rfl
  have ht2 : t2 = if 2147483647 ≤ t1 then t1 - 2147483647 else t1 := rfl
  change t2 = u % 2147483647 ∧ t2 < 2147483647
  clear_value t1 t2 t
  split at ht1 <;> split at ht2 <;> omega

/-! ## One round (43_permutation.md R150 to R156) -/

/-- The lanes that MIX takes in round i: the S-box is on every lane of a full round and on lane 0 of
a partial one. -/
theorem sboxLayer_lane (A : Lanes) (i : Nat) (l : Fin 24) :
    (if isFullRound i then sboxFull A else sboxPartial A)[l] =
      if i < 4 ∨ 60 ≤ i ∨ l.val = 0 then sbox A[l] else A[l] := by
  simp only [← or_assoc, ← isFullRound_iff]
  cases isFullRound i with
  | true => exact sboxFull_lane A l
  | false => simpa using sboxPartial_lane A l

/-- Settles O49: a round is MIX of the S-box layer of the lanes with their constants added. -/
theorem roundIsConstantThenSboxThenMix : Obligations.RoundIsConstantThenSboxThenMix := by
  unfold Obligations.RoundIsConstantThenSboxThenMix
  intro S i c k A Y b M
  have hA : ∀ l : Fin 24, (arc S i)[l].val = A l := by
    intro l
    rw [arc_lane, fadd_val, rcEntry_val]
  have hY : ∀ l : Fin 24,
      (if isFullRound i then sboxFull (arc S i) else sboxPartial (arc S i))[l].val = Y l := by
    intro l
    rw [sboxLayer_lane, apply_ite Fin.val, sbox_val, hA]
  have hM : ∀ r : Fin 24, (mixEntry r.val c.val).val = M r := by
    intro r
    rw [mixEntry_val, mul_ite, Nat.mul_one, Nat.mul_comm]
    rfl
  rw [roundFn, mix_lane, fred_val, columnSum_eq]
  simp only [hY, hM]

end Sys2Proof.Machine
end

section
/-! MIX by lane-class sums, and the permutation as a bijection; COMPRESS_PAIR from INIT to EXTRACT
(43_permutation.md R157 to R163). -/

namespace Sys2Proof.Machine

/-! ## Lane classes (43_permutation.md R163) -/

/-- The value of lane l, and 0 past the last lane. -/
def laneVal (S : Lanes) (l : Nat) : Nat := if h : l < 24 then S[l].val else 0

theorem laneVal_fin (S : Lanes) (l : Fin 24) : laneVal S l.val = S[l].val := dif_pos l.isLt

/-- The sum of lane class r: lanes r, 4 + r, to 20 + r. -/
def classSum (S : Lanes) (r : Nat) : Nat := ∑ I : Fin 6, laneVal S (4 * I.val + r)

/-- The entry of M at lane r of block I and column c of block J: doubled when the blocks agree. -/
theorem mixEntry_block (I J : Fin 6) (r c : Fin 4) :
    (mixEntry (4 * I.val + r.val) (4 * J.val + c.val)).val =
      baseEntry r.val c.val * if I = J then 2 else 1 := by
  have hmod : ∀ (K : Fin 6) (x : Fin 4), (4 * K.val + x.val) % 4 = x.val := by omega
  have hdiv : ∀ (K : Fin 6) (x : Fin 4), (4 * K.val + x.val) / 4 = K.val := by omega
  rw [mixEntry_val, hmod, hmod, hdiv, hdiv]
  simp only [Fin.ext_iff]

/-- A class of lanes contributes to a column its sum and its own block's lane once more. -/
theorem classColumn_eq (S : Lanes) (J : Fin 6) (r c : Fin 4) :
    ∑ I : Fin 6, laneVal S (4 * I.val + r.val) *
        (mixEntry (4 * I.val + r.val) (4 * J.val + c.val)).val =
      baseEntry r.val c.val * (classSum S r.val + laneVal S (4 * J.val + r.val)) := by
  have hterm : ∀ I : Fin 6, laneVal S (4 * I.val + r.val) *
        (mixEntry (4 * I.val + r.val) (4 * J.val + c.val)).val =
      baseEntry r.val c.val * (laneVal S (4 * I.val + r.val) +
        if I = J then laneVal S (4 * I.val + r.val) else 0) := by
    intro I
    rw [mixEntry_block]
    split <;> ring
  simp only [hterm]
  rw [← Finset.mul_sum, Finset.sum_add_distrib, Finset.sum_ite_eq' Finset.univ J,
    if_pos (Finset.mem_univ J), classSum]

/-- A column sum of MIX by lane classes. -/
theorem columnSum_classes (S : Lanes) (J : Fin 6) (c : Fin 4) :
    columnSum S (4 * J.val + c.val) =
      ∑ r : Fin 4, baseEntry r.val c.val * (classSum S r.val + laneVal S (4 * J.val + r.val)) := by
  rw [columnSum_eq]
  simp only [← laneVal_fin]
  rw [sum_lanes fun r => laneVal S r * (mixEntry r (4 * J.val + c.val)).val]
  simp only [classColumn_eq]

/-- The lane in column c of block J. -/
def blockLane (J : Fin 6) (c : Fin 4) : Fin 24 := ⟨4 * J.val + c.val, by omega⟩

/-- Settles O51: the products of a column sum regrouped by the lane class of their row. -/
theorem mixByLaneClassSums : Obligations.MixByLaneClassSums := by
  unfold Obligations.MixByLaneClassSums
  intro S J c lane U
  have hlane : 4 * J.val + c.val < 24 := by omega
  have hcolumn := columnSum_classes S J c
  rw [dif_pos hlane]
  exact (congrArg Fin.val (mix_lane S (blockLane J c))).trans (congrArg (· % P) hcolumn)

/-! ## MIX is injective -/

/-- The base matrix is invertible mod P: its determinant is -64, and the combinations are the
columns of 8 times its inverse. -/
theorem baseMatrix_injective {x : Fin 4 → ZMod P}
    (h : ∀ c : Fin 4, ∑ r : Fin 4, (baseEntry r.val c.val : ZMod P) * x r = 0) (r : Fin 4) :
    x r = 0 := by
  have h8 : (8 : ZMod P) ≠ 0 := by decide
  have : Fact (Nat.Prime P) := ⟨prime_P⟩
  have h0 : 5 * x 0 + 4 * x 1 + x 2 + x 3 = 0 := by
    simpa [Fin.sum_univ_four, baseEntry, baseMatrix] using h 0
  have h1 : 7 * x 0 + 6 * x 1 + 3 * x 2 + x 3 = 0 := by
    simpa [Fin.sum_univ_four, baseEntry, baseMatrix] using h 1
  have h2 : x 0 + x 1 + 5 * x 2 + 4 * x 3 = 0 := by
    simpa [Fin.sum_univ_four, baseEntry, baseMatrix] using h 2
  have h3 : 3 * x 0 + x 1 + 7 * x 2 + 6 * x 3 = 0 := by
    simpa [Fin.sum_univ_four, baseEntry, baseMatrix] using h 3
  have hcancel : ∀ y : ZMod P, 8 * y = 0 → y = 0 := fun y hy =>
    (mul_eq_zero.1 hy).resolve_left h8
  have hx0 : x 0 = 0 := hcancel _ (by linear_combination -h0 + h1 - 6 * h2 + 4 * h3)
  have hx1 : x 1 = 0 := hcancel _ (by linear_combination 3 * h0 - h1 + 7 * h2 - 5 * h3)
  have hx2 : x 2 = 0 := hcancel _ (by linear_combination -6 * h0 + 4 * h1 - h2 + h3)
  have hx3 : x 3 = 0 := hcancel _ (by linear_combination 7 * h0 - 5 * h1 + 3 * h2 - h3)
  fin_cases r
  · exact hx0
  · exact hx1
  · exact hx2
  · exact hx3

theorem cast_classSum (S : Lanes) (r : Nat) : (classSum S r : ZMod P) =
    ∑ I : Fin 6, (laneVal S (4 * I.val + r) : ZMod P) := by
  rw [classSum, Nat.cast_sum]

section
variable {S T : Lanes} (h : mix S = mix T)
include h

/-- Lane states with the same MIX agree on each class sum plus one of its lanes. -/
theorem classSum_add_laneVal_eq (J : Fin 6) (r : Fin 4) :
    (classSum S r.val : ZMod P) + laneVal S (4 * J.val + r.val) =
      classSum T r.val + laneVal T (4 * J.val + r.val) := by
  have hcolumn : ∀ c : Fin 4, (columnSum S (4 * J.val + c.val) : ZMod P) =
      columnSum T (4 * J.val + c.val) := by
    intro c
    have hlane : fred (columnSum S (blockLane J c)) = fred (columnSum T (blockLane J c)) := by
      rw [← mix_lane, ← mix_lane, h]
    have hcast := congrArg (fun x : Fe => (x.val : ZMod P)) hlane
    simpa only [cast_fred, blockLane] using hcast
  refine sub_eq_zero.1 (baseMatrix_injective (x := fun r : Fin 4 =>
    ((classSum S r.val : ZMod P) + laneVal S (4 * J.val + r.val)) -
      (classSum T r.val + laneVal T (4 * J.val + r.val))) (fun c => ?_) r)
  have hc := hcolumn c
  rw [columnSum_classes, columnSum_classes] at hc
  push_cast at hc
  simp only [mul_sub, Finset.sum_sub_distrib, hc, sub_self]

/-- So they agree on the class sums: the six blocks add up to 7 times a class sum. -/
theorem classSum_cast_eq (r : Fin 4) : (classSum S r.val : ZMod P) = classSum T r.val := by
  have h7 : (7 : ZMod P) ≠ 0 := by decide
  have : Fact (Nat.Prime P) := ⟨prime_P⟩
  have hsum : ∑ J : Fin 6, ((classSum S r.val : ZMod P) + laneVal S (4 * J.val + r.val)) =
      ∑ J : Fin 6, ((classSum T r.val : ZMod P) + laneVal T (4 * J.val + r.val)) :=
    Finset.sum_congr rfl fun J _ => classSum_add_laneVal_eq h J r
  rw [Finset.sum_add_distrib, Finset.sum_add_distrib, ← cast_classSum, ← cast_classSum] at hsum
  simp only [Finset.sum_const, Finset.card_fin, nsmul_eq_mul] at hsum
  refine mul_left_cancel₀ h7 ?_
  linear_combination hsum

end

theorem mix_injective : Function.Injective mix := by
  intro S T h
  refine lanes_ext fun l => fe_ext ?_
  have hl : l = blockLane ⟨l.val / 4, by omega⟩ ⟨l.val % 4, by omega⟩ :=
    Fin.ext (Nat.div_add_mod l.val 4).symm
  have hlane := classSum_add_laneVal_eq h ⟨l.val / 4, by omega⟩ ⟨l.val % 4, by omega⟩
  rw [classSum_cast_eq h] at hlane
  have hval : laneVal S l.val = (laneVal T l.val : ZMod P) := by
    rw [hl]
    exact add_left_cancel hlane
  rwa [laneVal_fin, laneVal_fin] at hval

/-! ## The rounds and the permutation (43_permutation.md R157) -/

theorem fadd_right_injective (c : Fe) : Function.Injective fun x => fadd x c := by
  intro x y h
  have hcast := congrArg (fun x : Fe => (x.val : ZMod P)) h
  simp only [cast_fadd, add_left_inj] at hcast
  exact fe_ext hcast

theorem arc_injective (i : Nat) : Function.Injective fun S => arc S i := by
  intro S T h
  refine lanes_ext fun l => fadd_right_injective (rcEntry i l) ?_
  simpa only [arc_lane] using congrArg (·[l]) h

theorem sboxFull_injective : Function.Injective sboxFull := by
  intro S T h
  refine lanes_ext fun l => sbox_injective ?_
  simpa only [sboxFull_lane] using congrArg (·[l]) h

theorem sboxPartial_injective : Function.Injective sboxPartial := by
  intro S T h
  refine lanes_ext fun l => ?_
  have hl : (sboxPartial S)[l] = (sboxPartial T)[l] := congrArg (·[l]) h
  rw [sboxPartial_lane, sboxPartial_lane] at hl
  split at hl
  · exact sbox_injective hl
  · exact hl

theorem roundFn_injective (i : Nat) : Function.Injective fun S => roundFn S i := by
  intro S T h
  have hlayer := mix_injective h
  refine arc_injective i ?_
  split at hlayer
  · exact sboxFull_injective hlayer
  · exact sboxPartial_injective hlayer

/-- Rounds one after the other are injective when each is. -/
theorem foldl_roundFn_injective (rounds : List Nat) :
    Function.Injective fun S => rounds.foldl roundFn S := by
  induction rounds with
  | nil => exact Function.injective_id
  | cons i rounds ih => exact ih.comp (roundFn_injective i)

theorem perm_injective : Function.Injective perm := foldl_roundFn_injective _

/-- There are finitely many lane states. -/
theorem lanes_finite : Finite Lanes :=
  Finite.of_injective (fun (S : Lanes) (l : Fin 24) => S[l]) fun _ _ h => lanes_ext (congrFun h)

/-- Settles O57: every round step is injective, and there are finitely many states. -/
theorem permIsABijection : Obligations.PermIsABijection := by
  unfold Obligations.PermIsABijection
  have := lanes_finite
  exact Finite.injective_iff_bijective.1 perm_injective

/-! ## COMPRESS_PAIR (43_permutation.md R157 to R160) -/

/-- Settles O56: the three segments of INIT, the rounds in order, and the segment that EXTRACT
takes. -/
theorem initAndExtractSegments : Obligations.InitAndExtractSegments := by
  unfold Obligations.InitAndExtractSegments
  have hextract : ∀ (S : Lanes) (j : Fin 8), (extractDigest S)[j.val] = S[8 + j.val] :=
    extractDigest_lane
  refine ⟨fun in1 in2 j => ⟨?_, ?_, ?_⟩, fun T hT => perm_of_trace hT, hextract, fun _ _ => rfl,
    fun in1 in2 T h0 hT j => ?_⟩
  · exact (initLanes_lane in1 in2 ⟨j.val, by omega⟩).trans (dif_pos j.isLt)
  · refine (initLanes_lane in1 in2 ⟨8 + j.val, by omega⟩).trans ((dif_neg (by simp)).trans
      ((dif_pos (by simp; omega)).trans ?_))
    simp only [Nat.add_sub_cancel_left]
  · exact (initLanes_lane in1 in2 ⟨16 + j.val, by omega⟩).trans ((dif_neg (by simp; omega)).trans
      (dif_neg (by simp)))
  · rw [← perm_of_trace hT, h0]
    exact hextract _ j

end Sys2Proof.Machine
end

section
/-! A batch from its issue to its end: the host sequence that issues it, its engine steps, and the
host accesses that may come between them (30_encoding.md R99, R100; 44_commands.md R191, R199;
60_exceptions.md R241). -/

namespace Sys2Proof.Machine

/-! ## SETBATCH and ISSUE COMPRESS (30_encoding.md R99, R100) -/

/-- The bus accesses of the two pseudo-instructions. -/
theorem hostProgram_issueBatch (d : Descriptor) :
    hostProgram [.setBatch d, .issue .compress] =
      [.write 0x00010#20 4 d.count, .write 0x00014#20 4 d.src1, .write 0x00018#20 4 d.stride1,
        .write 0x0001C#20 4 d.src2, .write 0x00020#20 4 d.stride2, .write 0x00024#20 4 d.dst,
        .write 0x00028#20 4 d.strided, .write 0x00004#20 4 0x00000001#32] := rfl

/-- A run on an idle block that begins with a write to the locked register number i. -/
theorem runFor_locked_write {s : State} {addr : Offset} {v : Word} {rest : List Event}
    {d d' : Descriptor} {ans : Answer} (n i : Nat) (hr : s.rst = false) (hp : s.phase = .idle)
    (hd : (lockedWrites d v)[i]? = some (addr, d')) :
    runFor (n + 1)
        { s with desc := d, bus := .host (.write addr 4 v) :: rest, answer := ans } =
      runFor n { s with desc := d', bus := rest, answer := .ok } := by
  have hstep := step_locked_write
    (s := { s with desc := d, bus := .host (.write addr 4 v) :: rest, answer := ans }) hr rfl
    (List.mem_of_getElem? hd)
  exact (runFor_step n hstep).trans
    (congrArg (runFor n) (if_neg (ne_true_of_eq_false ((busy_eq_false_iff s).2 hp))))

/-- Settles O59: seven locked writes set the seven registers, and the CMD write issues COMPRESS. -/
theorem hostSequenceIssuesABatch : Obligations.HostSequenceIssuesABatch := by
  unfold Obligations.HostSequenceIssuesABatch
  intro s d hr hp hb
  rw [hostProgram_issueBatch, State.withHost, hb, List.append_nil]
  refine (runFor_locked_write 7 0 hr hp rfl).trans ?_
  refine (runFor_locked_write 6 1 hr hp rfl).trans ?_
  refine (runFor_locked_write 5 2 hr hp rfl).trans ?_
  refine (runFor_locked_write 4 3 hr hp rfl).trans ?_
  refine (runFor_locked_write 3 4 hr hp rfl).trans ?_
  refine (runFor_locked_write 2 5 hr hp rfl).trans ?_
  refine (runFor_locked_write 1 6 hr hp rfl).trans ?_
  exact runFor_step 0 (step_cmd_issued
    (s := { s with desc := d, bus := [.host (.write 0x00004#20 4 0x00000001#32)], answer := .ok })
    hr rfl (by decide) ((busy_eq_false_iff _).2 hp))

end Sys2Proof.Machine
end

section
/-! A checked batch from its issue to its end, left alone or interrupted by the host
(44_commands.md R191, R199; 60_exceptions.md R241; 20_memory.md R79). -/

namespace Sys2Proof.Machine

/-! ## The two stages of a batch -/

/-- In `t` the batch that was issued in `s` is in progress, with its first `m` pairs computed. -/
structure InBatch (s t : State) (m : Nat) : Prop where
  cfg : t.cfg = s.cfg
  desc : t.desc = s.desc
  rst : t.rst = false
  cmdl : t.cmdl = 0x00000001#32
  clear : t.done = false ∧ t.err = false ∧ t.aborted = false ∧ t.errcode = .none ∧ t.errinfo = 0#32
  progress : t.progress.toNat = m
  more : m < s.desc.count.toNat
  phase : (t.phase = .check ∧ m = 0) ∨ (t.phase = .run ∧ t.k = t.progress)
  pairs : FirstPairs s t m

/-- In `t` the batch that was issued in `s` has ended with its first `m` pairs computed, as aborted
or with SUCCESS. -/
structure BatchEnded (s t : State) (m : Nat) (wasAborted : Bool) : Prop where
  desc : t.desc = s.desc
  idle : t.phase = .idle
  done : t.done = true
  aborted : t.aborted = wasAborted
  clear : t.err = false ∧ t.errcode = .none ∧ t.errinfo = 0#32
  progress : t.progress.toNat = m
  pairs : FirstPairs s t m

/-- The host's write of the ABORT word. -/
abbrev abortEvent : Event := .host (.write 0x00004#20 4 0x00000002#32)

/-- The issue begins the batch, with no pair computed. -/
theorem inBatch_issue {s : State} (hr : s.rst = false) (hn : s.desc.count ≠ 0#32) :
    InBatch s (issue 0x00000001#32 s) 0 where
  cfg := rfl
  desc := rfl
  rst := hr
  cmdl := rfl
  clear := ⟨rfl, rfl, rfl, rfl, rfl⟩
  progress := rfl
  more := Nat.pos_of_ne_zero fun h0 => hn (BitVec.eq_of_toNat_eq h0)
  phase := .inl ⟨rfl, rfl⟩
  pairs := firstPairs_zero rfl

namespace InBatch

/-- The host's flags, the inputs to come and the answer are no part of a batch. -/
theorem withHost {s t : State} {m : Nat} (h : InBatch s t m) (bw ie ab : Bool) (bus : List Event)
    (ans : Answer) :
    InBatch s { t with bwerr := bw, ie := ie, abortReq := ab, bus := bus, answer := ans } m where
  cfg := h.cfg
  desc := h.desc
  rst := h.rst
  cmdl := h.cmdl
  clear := h.clear
  progress := h.progress
  more := h.more
  phase := h.phase
  pairs := h.pairs.of_mem_eq rfl

theorem afterPop {s t : State} {m : Nat} (h : InBatch s t m) : InBatch s (popEvent t) m :=
  h.withHost t.bwerr t.ie t.abortReq _ t.answer

theorem busy {s t : State} {m : Nat} (h : InBatch s t m) : t.busy = true := by
  rw [busy_iff]
  rcases h.phase with ⟨hp, -⟩ | ⟨hp, -⟩ <;> rw [hp] <;> decide

/-- What was checked stays checked. -/
theorem checked {s t : State} {m : Nat} (h : InBatch s t m) (hc : Checked s) : Checked t :=
  h.pairs.checked hc h.cfg h.desc h.more.le

/-- In the run phase the pair index counts the pairs computed. -/
theorem k_eq {s t : State} {m : Nat} (h : InBatch s t m) (hp : t.phase = .run) :
    t.k = t.progress ∧ t.k.toNat = m := by
  rcases h.phase with ⟨hcheck, -⟩ | ⟨-, hk⟩
  · rw [hp] at hcheck; cases hcheck
  · exact ⟨hk, by rw [hk, h.progress]⟩

/-- The entry of the run phase computes no pair. -/
theorem enterRun {s t : State} {m : Nat} (h : InBatch s t m) (hp : t.phase = .check) :
    InBatch s { t with phase := .run, k := 0#32 } m where
  cfg := h.cfg
  desc := h.desc
  rst := h.rst
  cmdl := h.cmdl
  clear := h.clear
  progress := h.progress
  more := h.more
  phase := by
    rcases h.phase with ⟨-, rfl⟩ | ⟨hrun, -⟩
    · exact .inr ⟨rfl, (BitVec.eq_of_toNat_eq h.progress).symm⟩
    · rw [hp] at hrun; cases hrun
  pairs := h.pairs.of_mem_eq rfl

/-- An abort ends the batch with the pairs it has. -/
theorem afterAbort {s t : State} {m : Nat} (h : InBatch s t m) :
    BatchEnded s (complete .aborted .none 0#32 t) m true where
  desc := h.desc
  idle := rfl
  done := rfl
  aborted := rfl
  clear := ⟨rfl, rfl, rfl⟩
  progress := h.progress
  pairs := h.pairs.of_mem_eq rfl

/-- A pair step computes the next pair; the last one ends the batch. -/
theorem afterPair {s t : State} {m : Nat} (h : InBatch s t m) (hc : Checked s)
    (hp : t.phase = .run) :
    (m + 1 < s.desc.count.toNat → InBatch s (pairDone (pairWritten t)) (m + 1) ∧
      (pairDone (pairWritten t)).phase = .run) ∧
    (m + 1 = s.desc.count.toNat → BatchEnded s (pairDone (pairWritten t)) (m + 1) false) := by
  obtain ⟨hk, hkm⟩ := h.k_eq hp
  have hlt : t.k.toNat < s.desc.count.toNat := by rw [hkm]; exact h.more
  have hnext : (t.k + 1#32).toNat = m + 1 := by
    have := s.desc.count.isLt
    bv_omega
  have hpairs : FirstPairs s (pairWritten t) (m + 1) := by
    have hk_pairs : FirstPairs s t t.k.toNat := by rw [hkm]; exact h.pairs
    have hwritten := hk_pairs.pairWritten hc h.cfg h.desc hlt
    rwa [hkm] at hwritten
  rw [pairDone_pairWritten, h.desc, hkm]
  refine ⟨fun hmore => ?_, fun hlast => ?_⟩
  · rw [if_neg hmore.ne]
    exact ⟨⟨h.cfg, rfl, h.rst, h.cmdl, h.clear, hnext, hmore, .inr ⟨hp, rfl⟩,
      hpairs.of_mem_eq rfl⟩, hp⟩
  · rw [if_pos hlast]
    exact ⟨rfl, rfl, rfl, rfl, ⟨rfl, rfl, rfl⟩, hnext, hpairs.of_mem_eq rfl⟩

/-! ## The steps of a batch in progress -/

section
variable {s t : State} {m : Nat} (h : InBatch s t m)
include h

theorem step_check (hc : Checked s) (hp : t.phase = .check) (hnext : EngineNext t) :
    step t = .next { popEvent t with phase := .run, k := 0#32 } := by
  have hn : t.desc.count ≠ 0#32 := by
    intro h0
    have hmore := h.more
    rw [← h.desc, h0] at hmore
    cases hmore
  rw [step_engine hnext, engineTurn_compress (s := popEvent t) h.rst hp h.cmdl]
  exact compressCheck_pass (s := popEvent t) hn (h.afterPop.checked hc)

theorem step_run (hp : t.phase = .run) (hnext : EngineNext t) :
    step t = pairStep (popEvent t) ∧ t.k.toNat < t.desc.count.toNat := by
  rw [step_engine hnext, engineTurn_run (s := popEvent t) h.rst hp, h.desc, (h.k_eq hp).2]
  exact ⟨rfl, h.more⟩

theorem step_abort (hp : t.phase = .run) (ha : t.abortReq = true) (hnext : EngineNext t) :
    step t = .next (complete .aborted .none 0#32 (popEvent t)) := by
  obtain ⟨hstep, hk⟩ := h.step_run hp hnext
  rw [hstep]
  exact pairStep_abort hk ha

theorem step_pair (hc : Checked s) (hp : t.phase = .run) (ha : t.abortReq = false)
    (hnext : EngineNext t) :
    step t = .next (pairDone (pairWritten (popEvent t))) := by
  obtain ⟨hstep, hk⟩ := h.step_run hp hnext
  rw [hstep]
  exact pairStep_ready hk ha (pairReady_of_checked (h.afterPop.checked hc) hk)

/-- A host access leaves the batch in progress; an abort request that was not there comes from a
write of the ABORT word. -/
theorem afterAccess {a : Access} {u : State}
    (hacc : hostAccess a (popEvent t) = .next u) :
    InBatch s u m ∧ u.bus = t.bus.tail ∧
      (u.abortReq = true → t.abortReq = true ∨ Event.host a = abortEvent) := by
  obtain ⟨d, bw, ie, ab, ans, rfl, hd, hab⟩ := hostAccess_busy h.afterPop.busy hacc
  obtain ⟨hdone, -⟩ := h.clear
  have hd0 : d = t.done := by
    cases d with
    | false => exact hdone.symm
    | true => exact (hd rfl).symm
  subst hd0
  exact ⟨h.withHost bw ie ab _ ans, rfl, fun hu => (hab hu).imp_right (congrArg Event.host)⟩

/-- A write of the ABORT word sets the abort request. -/
theorem step_abort_write {rest : List Event} (hb : t.bus = abortEvent :: rest) :
    step t = .next { t with abortReq := true, bus := rest, answer := .ok } :=
  (step_cmd_abort h.rst hb rfl).trans (congrArg _ (if_pos h.busy))

end

end InBatch

/-! ## A batch that the engine alone moves (44_commands.md R199) -/

/-- One step more of a run. -/
theorem runFor_snoc {n : Nat} {s u t : State} (h : runFor n s = .next u)
    (hstep : step u = .next t) :
    runFor (n + 1) s = .next t := by
  rw [runFor_add 1 h, runFor_step 0 hstep, runFor_zero]

/-- The entry that comes next after n entries is among the first n + 1. -/
theorem mem_take_succ_of_drop {bus rest : List Event} {n : Nat} {e : Event}
    (h : bus.drop n = e :: rest) : e ∈ bus.take (n + 1) := by
  have hget : bus[n]? = some e := by rw [← List.head?_drop, h, List.head?_cons]
  exact List.mem_of_getElem? (i := n) (by rw [List.getElem?_take_of_lt (Nat.lt_succ_self n), hget])

/-- After n entries of a history whose first n + 1 entries are engine's turns the engine moves. -/
theorem engineNext_of_drop {s t : State} {n : Nat} (hb : t.bus = s.bus.drop n)
    (hengine : ∀ e ∈ s.bus.take (n + 1), e = .engine) : EngineNext t := by
  rcases hd : s.bus.drop n with - | ⟨e, rest⟩
  · exact .inl (hb.trans hd)
  · rw [EngineNext, hb, hd, hengine e (mem_take_succ_of_drop hd)]
    exact .inr rfl

/-- What a pair step leaves of the host's side. -/
theorem pairDone_hostSide (t : State) :
    (pairDone (pairWritten t)).bus = t.bus ∧ (pairDone (pairWritten t)).ie = t.ie ∧
    (pairDone (pairWritten t)).bwerr = t.bwerr ∧
    (t.abortReq = false → (pairDone (pairWritten t)).abortReq = false) := by
  rw [pairDone_pairWritten]
  split
  · exact ⟨rfl, rfl, rfl, fun _ => rfl⟩
  · exact ⟨rfl, rfl, rfl, id⟩

/-- m + 1 engine steps from the issue compute exactly the first m pairs. -/
theorem batch_engine_run {s : State} (hr : s.rst = false) (hn : s.desc.count ≠ 0#32)
    (hc : Checked s) {m : Nat} (hm : m ≤ s.desc.count.toNat)
    (hengine : ∀ e ∈ s.bus.take (m + 1), e = .engine) :
    ∃ t, runFor (m + 1) (issue 0x00000001#32 s) = .next t ∧ t.bus = s.bus.drop (m + 1) ∧
      t.abortReq = false ∧ t.ie = s.ie ∧ t.bwerr = s.bwerr ∧
      (m < s.desc.count.toNat → InBatch s t m ∧ t.phase = .run) ∧
      (m = s.desc.count.toNat → BatchEnded s t m false) := by
  induction m with
  | zero =>
    have h := inBatch_issue hr hn
    have hnext : EngineNext (issue 0x00000001#32 s) := engineNext_of_drop (n := 0) rfl hengine
    exact ⟨_, runFor_step 0 (h.step_check hc rfl hnext), List.drop_one.symm, rfl, rfl, rfl,
      fun _ => ⟨h.afterPop.enterRun rfl, rfl⟩, fun h0 => absurd h0 h.more.ne⟩
  | succ m ih =>
    have hprefix : ∀ e ∈ s.bus.take (m + 1), e = .engine := fun e he =>
      hengine e ((List.take_subset_take_left s.bus (Nat.le_succ _)) he)
    obtain ⟨t, hrun, hbus, ha, hie, hbwerr, hgo, -⟩ := ih (by omega) hprefix
    obtain ⟨h, hp⟩ := hgo (by omega)
    obtain ⟨hbus', hie', hbwerr', ha'⟩ := pairDone_hostSide (popEvent t)
    obtain ⟨hmore, hlast⟩ := h.afterPop.afterPair hc hp
    have hnext := engineNext_of_drop hbus hengine
    refine ⟨_, runFor_snoc hrun (h.step_pair hc hp ha hnext), ?_, ha' ha,
      hie'.trans hie, hbwerr'.trans hbwerr, hmore, hlast⟩
    rw [hbus', popEvent_bus, hbus, List.tail_drop]

/-- Settles O17: with no input to come every turn is the engine's. -/
theorem batchComputesEveryPair : Obligations.BatchComputesEveryPair := by
  unfold Obligations.BatchComputesEveryPair
  intro s m hr hb hp hn hc hm in1 in2
  obtain ⟨t, hrun, -, -, hie, hbwerr, hgo, hend⟩ :=
    batch_engine_run hr hn hc hm (by rw [hb, List.take_nil]; simp)
  refine ⟨t, hrun, ?_⟩
  rcases Nat.lt_or_eq_of_le hm with hlt | heq
  · obtain ⟨h, hrun⟩ := hgo hlt
    exact ⟨h.pairs.written, h.pairs.others, h.progress, h.desc, hie, hbwerr,
      fun _ => ⟨hrun, (h.k_eq hrun).2⟩, fun heq => absurd heq hlt.ne⟩
  · have h := hend heq
    obtain ⟨herr, hcode, hinfo⟩ := h.clear
    exact ⟨h.pairs.written, h.pairs.others, h.progress, h.desc, hie, hbwerr,
      fun hlt => absurd heq hlt.ne,
      fun _ => ⟨h.idle, h.done, herr, h.aborted, hcode, hinfo⟩⟩

/-! ## A batch under any history without a reset (44_commands.md R191, R199) -/

/-- Where the batch that was issued in `s` stands in `t`, after n entries of its history: in
progress, with an abort request only if the host has written the ABORT word; ended with SUCCESS
after all its pairs; or ended as aborted before its last pair, by such a write. -/
def BatchAfter (s t : State) (n : Nat) : Prop :=
  (∃ m, InBatch s t m ∧ t.bus = s.bus.drop n ∧
    (t.abortReq = true → abortEvent ∈ s.bus.take n)) ∨
  BatchEnded s t s.desc.count.toNat false ∨
  (∃ m < s.desc.count.toNat, BatchEnded s t m true ∧ abortEvent ∈ s.bus.take n)

/-- One step of a batch in progress, whoever moves. -/
theorem InBatch.step {s u t : State} {m n : Nat} (h : InBatch s u m) (hc : Checked s)
    (hbus : u.bus = s.bus.drop n) (hab : u.abortReq = true → abortEvent ∈ s.bus.take n)
    (hreset : ∀ level, .reset level ∉ s.bus.take (n + 1)) (hstep : step u = .next t) :
    BatchAfter s t (n + 1) := by
  have hprefix : abortEvent ∈ s.bus.take n → abortEvent ∈ s.bus.take (n + 1) := fun he =>
    (List.take_subset_take_left s.bus (Nat.le_succ _)) he
  have htail : u.bus.tail = s.bus.drop (n + 1) := by rw [hbus, List.tail_drop]
  rcases step_cases hstep with ⟨hnext, -⟩ | ⟨a, rest, hhead, hacc⟩ | ⟨level, rest, hhead, -⟩
  · rcases h.phase with ⟨hp, -⟩ | ⟨hp, -⟩
    · rw [h.step_check hc hp hnext] at hstep
      cases hstep
      exact .inl ⟨m, h.afterPop.enterRun hp, htail, fun ha => hprefix (hab ha)⟩
    · cases ha : u.abortReq with
      | true =>
        rw [h.step_abort hp ha hnext] at hstep
        cases hstep
        exact .inr (.inr ⟨m, h.more, h.afterPop.afterAbort, hprefix (hab ha)⟩)
      | false =>
        rw [h.step_pair hc hp ha hnext] at hstep
        cases hstep
        obtain ⟨hbus', -, -, ha'⟩ := pairDone_hostSide (popEvent u)
        obtain ⟨hmore, hlast⟩ := h.afterPop.afterPair hc hp
        rcases Nat.lt_or_eq_of_le (Nat.succ_le_of_lt h.more) with hlt | heq
        · exact .inl ⟨m + 1, (hmore hlt).1, hbus'.trans htail,
            fun ha1 => absurd ha1 (ne_true_of_eq_false (ha' ha))⟩
        · exact .inr (.inl (heq ▸ hlast heq))
  · obtain ⟨hin, hbus', ha⟩ := h.afterAccess hacc
    refine .inl ⟨m, hin, hbus'.trans htail, fun ha1 => ?_⟩
    rcases ha ha1 with ha0 | heq
    · exact hprefix (hab ha0)
    · exact heq ▸ mem_take_succ_of_drop (hbus.symm.trans hhead)
  · exact absurd (mem_take_succ_of_drop (hbus.symm.trans hhead)) (hreset level)

/-- Along every history without a reset the batch is in progress or has ended, until the step that
ends it. -/
theorem batchAfter_run {s t : State} {n : Nat} (hr : s.rst = false) (hn : s.desc.count ≠ 0#32)
    (hc : Checked s) (hreset : ∀ level, .reset level ∉ s.bus.take n)
    (hbusy : ∀ n' < n, ∀ u, runFor n' (issue 0x00000001#32 s) = .next u → u.busy = true)
    (hrun : runFor n (issue 0x00000001#32 s) = .next t) : BatchAfter s t n := by
  induction n generalizing t with
  | zero =>
    cases hrun
    exact .inl ⟨0, inBatch_issue hr hn, rfl, fun ha => (nomatch ha)⟩
  | succ n ih =>
    obtain ⟨u, hu, hstep⟩ := runFor_last hrun
    have hsub := List.take_subset_take_left s.bus (Nat.le_succ n)
    have hbusy_u := hbusy n (Nat.lt_succ_self n) u hu
    rcases ih (fun level he => hreset level (hsub he))
      (fun n' hn' => hbusy n' (Nat.lt_succ_of_lt hn')) hu with
      ⟨m, h, hbus, hab⟩ | hend | ⟨m, -, hend, -⟩
    · exact h.step hc hbus hab hreset hstep
    · exact absurd hbusy_u (ne_true_of_eq_false ((busy_eq_false_iff u).2 hend.idle))
    · exact absurd hbusy_u (ne_true_of_eq_false ((busy_eq_false_iff u).2 hend.idle))

/-- Settles O60: the first part follows the batch along its history; in the other two an ABORT
written in the run phase, or before the check step, is found by the next pair step. -/
theorem interruptedBatchKeepsExactlyItsFirstPairs :
    Obligations.InterruptedBatchKeepsExactlyItsFirstPairs := by
  unfold Obligations.InterruptedBatchKeepsExactlyItsFirstPairs
  intro s hr hp hn hc issued abort abortedAt
  have hended : ∀ t m, BatchEnded s t m true → abortedAt t m := fun t m h =>
    ⟨h.idle, h.done, h.clear.1, h.aborted, h.clear.2.1, h.clear.2.2, h.progress, h.desc, h.pairs⟩
  refine ⟨fun n t hreset hbusy hrun => ?_, fun m rest hm hb => ?_, fun rest hb => ?_⟩
  · rcases batchAfter_run hr hn hc hreset hbusy hrun with ⟨m, h, -, -⟩ | h | ⟨m, hm, h, hab⟩ <;>
      rw [h.progress]
    · exact ⟨h.pairs, h.more.le, h.desc, fun hidle => absurd h.busy (ne_true_of_eq_false hidle)⟩
    · obtain ⟨herr, hcode, hinfo⟩ := h.clear
      exact ⟨h.pairs, le_rfl, h.desc, fun _ => ⟨h.done, herr, hcode, hinfo,
        fun _ => BitVec.eq_of_toNat_eq h.progress,
        fun ha => absurd ha (ne_true_of_eq_false h.aborted)⟩⟩
    · obtain ⟨herr, hcode, hinfo⟩ := h.clear
      exact ⟨h.pairs, hm.le, h.desc, fun _ => ⟨h.done, herr, hcode, hinfo,
        fun ha => absurd h.aborted (ne_true_of_eq_false ha), fun _ => ⟨hm, hab⟩⟩⟩
  · have hlen : (List.replicate (m + 1) Event.engine).length = m + 1 := List.length_replicate
    have hengine : ∀ e ∈ s.bus.take (m + 1), e = .engine := by
      rw [hb, List.take_left' hlen]
      exact fun e he => List.eq_of_mem_replicate he
    obtain ⟨t, hrun, hbus, -, -, -, hgo, -⟩ := batch_engine_run hr hn hc hm.le hengine
    obtain ⟨h, hp⟩ := hgo hm
    rw [hb, List.drop_left' hlen] at hbus
    have hpending := h.withHost t.bwerr t.ie true (.engine :: rest) .ok
    have hfound := hpending.step_abort hp rfl (.inr rfl)
    exact ⟨_, runFor_snoc (runFor_snoc hrun (h.step_abort_write hbus)) hfound, rfl,
      hended _ _ hpending.afterPop.afterAbort⟩
  · have h := inBatch_issue hr hn
    have hpending := h.withHost s.bwerr s.ie true (.engine :: .engine :: rest) .ok
    have hcheck := hpending.step_check hc rfl (.inr rfl)
    have hentered := hpending.afterPop.enterRun rfl
    have hfound := hentered.step_abort rfl rfl (.inr rfl)
    exact ⟨_, (runFor_step 2 (h.step_abort_write hb)).trans ((runFor_step 1 hcheck).trans
      (runFor_step 0 hfound)), rfl, hended _ _ hentered.afterPop.afterAbort⟩

end Sys2Proof.Machine
end
